-- ==== Sys2Proof/Word.lean ====
section
/-! DEFINITION. The word types of PRCORE (spec/00_scope.md, Notation): a byte, the 16-bit and 32-bit fields of a
packet header, and the 9-bit index registers. PRCORE does no signed arithmetic, so one unsigned type per width. -/

namespace Sys2Proof

/-- A byte: 8 bits, bit 7 the most significant (00_scope.md, Notation). -/
abbrev Byte := BitVec 8

/-- A 16-bit field or register: `length`, `altitude`, a sequence number, a count (R21, R22, R24). -/
abbrev Half := BitVec 16

/-- A 32-bit field: `latitude`, `longitude`, moved as two's-complement patterns only (R21). -/
abbrev Quad := BitVec 32

/-- The 9-bit index registers `ENC.IDX` and `DEC.IDX` (R25, R30). -/
abbrev Index := BitVec 9

end Sys2Proof
end

