-- ==== Sys2Proof/Syntax.lean ====
section
/-! DEFINITION. The operations of PRCORE, one constructor per row of spec/opcode_table.json (R115), with the records
their operands are made of, and the words in which they are presented: the lines a word stands on and its bytes. -/

namespace Sys2Proof

/-- The logical PacketHeader, 104 bits (R21). -/
structure PacketHeader where
  /-- `payload_id`, an application-defined tag -/
  pid : Byte
  /-- `length`, the payload byte count plus 14 -/
  len : Half
  /-- `latitude`, a raw 32-bit pattern -/
  lat : Quad
  /-- `longitude`, a raw 32-bit pattern -/
  lon : Quad
  /-- `altitude` -/
  alt : Half
deriving DecidableEq, Repr, Inhabited

/-- The content of one wire frame behind its sync pair (R101): version, sequence number, the 220 bytes of the
header/data region and the 32 parity bytes. -/
structure Frame where
  version : Byte
  seq : Half
  data : List Byte
  parity : List Byte
deriving DecidableEq, Repr, Inhabited

/-- Every operation of PRCORE (R115): the host-selected ones, the phase-selected steps of ENC and DEC, the wire
patterns and the event word. -/
inductive Instr where
  /-- `ENCODE`: a word on `ENC.CMD` (R160, R110) -/
  | encode (h : PacketHeader)
  /-- `DECODE_STREAM`: a transaction on `DEC.CMD` (R200) -/
  | decodeStream
  /-- `ENC.RESET` (R310) -/
  | encReset
  /-- `DEC.RESET` (R310) -/
  | decReset
  /-- `E.BUILD` (R161) -/
  | eBuild
  /-- `E.FILL` (R162) -/
  | eFill
  /-- `E.PARITY` (R163, R251) -/
  | eParity
  /-- `E.EMIT` (R164) -/
  | eEmit
  /-- `D.SYNC` (R142) -/
  | dSync
  /-- `D.BODY` (R201) -/
  | dBody
  /-- `D.VALIDATE` (R202, R252) -/
  | dValidate
  /-- `D.DISPATCH.HDR` (R203, R208) -/
  | dDispatchHdr
  /-- `D.DISPATCH.DATA` (R204) -/
  | dDispatchData
  /-- `D.STREAM` (R205, R207) -/
  | dStream
  /-- `D.STREAM.END` (R206) -/
  | dStreamEnd
  /-- `SYNC_PREFIX`: the wire byte W[0] (R101) -/
  | syncPrefix
  /-- `SYNC_CONT`: the wire byte W[1] (R101) -/
  | syncCont
  /-- `FRAME_HDR`: the wire bytes W[1..4] (R102) -/
  | frameHdr (version : Byte) (seq : Half)
  /-- `PKT_HDR`: the wire bytes W[5..18] of a first frame (R103) -/
  | pktHdr (version : Byte) (h : PacketHeader)
  /-- `FRAME`: the wire bytes W[0..256] (R101) -/
  | frame (f : Frame)
  /-- `EVT.packet`: the event word, DEC to host (R113) -/
  | evtPacket (valid : Bool) (h : PacketHeader)
deriving DecidableEq, Repr, Inhabited

/-- What a word of R115 stands on: the channel, register or input that selects the operation. The encodings of two
operations may be equal as bits when they stand on different lines (`E.BUILD` and `D.SYNC` are both `001`). -/
inductive Selector where
  /-- the command channel of ENC: 13 bytes (R110) -/
  | encCmd
  /-- the command channel of DEC: no operand (R110) -/
  | decCmd
  /-- the reset input of ENC: no operand (R310) -/
  | encReset
  /-- the reset input of DEC: no operand (R310) -/
  | decReset
  /-- the register `ENC.PHASE` (R111) -/
  | encPhase
  /-- the register `DEC.PHASE`, followed by `DEC.MODE` in phase DISPATCH (R111, R115); `more` is the condition
  `DEC.IDX < 224` and `DEC.REM > 0`, which tells `D.STREAM` from `D.STREAM.END` -/
  | decPhase (more : Bool)
  /-- the wire into DEC: 1, 4, 14 or 257 bytes (R101, R102, R103) -/
  | wire
  /-- the event channel: the 105-bit word in 14 bytes (R113) -/
  | evt
deriving DecidableEq, Repr, Inhabited

/-- A word as it is presented to the machine: its lines, and its bytes with the most significant first. -/
structure OpWord where
  sel : Selector
  bytes : List Byte
deriving DecidableEq, Repr, Inhabited

end Sys2Proof
end

