-- ==== Sys2Proof/Config.lean ====
section
/-! DEFINITION. The constants of R6, the open parameters of R6 as one record `Config` of which `Config.given` is an
uninterpreted member, the free values (answers of the channels, choices of the environment, contents of registers that
a reset leaves unspecified), and the codec properties P1 and P2 of R253. -/

namespace Sys2Proof

/-- R6: bytes of a frame buffer. -/
@[simp] abbrev frameSize : Nat := 256
/-- R6: bytes before the parity trailer. -/
@[simp] abbrev frameDataSize : Nat := 224
/-- R6: bytes of the parity trailer. -/
@[simp] abbrev paritySize : Nat := 32
/-- R6: bytes of the FEC message. -/
@[simp] abbrev fecMsgSize : Nat := 223
/-- R6: bytes of the FEC codeword. -/
@[simp] abbrev fecCwSize : Nat := 255
/-- R6: bytes of the data region. -/
@[simp] abbrev dataRegionSize : Nat := 220
/-- R6: bytes of a frame on the wire, sync prefix included. -/
@[simp] abbrev wireFrameSize : Nat := 257
/-- R6: bytes of the secondary header. -/
@[simp] abbrev pktHdrSize : Nat := 14
/-- R6: payload bytes in the first frame of a packet. -/
@[simp] abbrev firstCap : Nat := 206
/-- R6: payload bytes in a continuation frame. -/
@[simp] abbrev contCap : Nat := 220
/-- R6: the sync prefix, outside the frame buffer. -/
@[simp] abbrev syncPrefixByte : Byte := 0xAA#8
/-- R6: the sync continuation, byte 0 of the frame buffer. -/
@[simp] abbrev syncContByte : Byte := 0x5A#8

/-- The 223 bytes the parity is computed over: `FBUF[1..223]` (R250). -/
abbrev Message := Fin 223 → Byte

/-- The 32 bytes of the parity trailer: `FBUF[224..255]` (R250). -/
abbrev Parity := Fin 32 → Byte

/-- The 255 bytes handed to the codec: `FBUF[1..255]` (R250). -/
abbrev Codeword := Fin 255 → Byte

/-- The codeword of a message and its parity, message first (R250). -/
def codewordOf (m : Message) (q : Parity) : Codeword := fun j =>
  if h : j.val < 223 then m ⟨j.val, h⟩ else q ⟨j.val - 223, by omega⟩

/-- What the environment does next (R75; DESIGN CHOICE, assumption log 2): ENC makes its next step, DEC makes its next step, or a word is presented
from outside (a command offered, a reset asserted, a wire pattern arriving, an event word). -/
inductive Turn where
  | enc
  | dec
  | line (w : OpWord)
deriving DecidableEq, Repr, Inhabited

/-- The registers that `ENC.RESET` leaves unspecified (R40, R310), within the ranges of R24. -/
structure EncUnset where
  idx : Index
  hdr : PacketHeader
  todo : Fin 65522
  first : Bool
  count : Fin 299
deriving DecidableEq, Repr, Inhabited

/-- The registers that `DEC.RESET` leaves unspecified (R40, R310), within the range of R29. -/
structure DecUnset where
  idx : Index
  hdr : PacketHeader
  rem : Fin 65522
  seqRx : Half
deriving DecidableEq, Repr, Inhabited

/-- Everything R6 leaves open, and every value the environment or an unspecified register supplies. A draw of a
channel answers `none` when the channel is not ready (R73). -/
structure Config where
  /-- `PROTOCOL_VERSION` (R6, I1) -/
  protocolVersion : Byte
  /-- `SEQ_INIT` (R6, I2) -/
  seqInit : Half
  /-- `fec_encode` (R6, R253) -/
  fecEncode : Message → Parity
  /-- `fec_decode` (R6, R253): `none` is `Uncorrectable` -/
  fecDecode : Codeword → Option Message
  /-- `FEC_T` (R6, I4) -/
  fecT : Nat
  /-- the order in which agents and environment act (R75) -/
  turnDraw : Nat → Option Turn
  /-- answers of SRC (R68) -/
  srcDraw : Nat → Option (Option Byte)
  /-- answers of TX (R66) -/
  txDraw : Nat → Option Bool
  /-- answers of RX (R67) -/
  rxDraw : Nat → Option (Option Byte)
  /-- answers of SNK (R69) -/
  snkDraw : Nat → Option Bool
  /-- readiness of EVT (R71, R73) -/
  evtDraw : Nat → Option Unit
  /-- readiness of `ENC.RSP` (R72, R73) -/
  encRspDraw : Nat → Option Unit
  /-- readiness of `DEC.RSP` (R72, R73) -/
  decRspDraw : Nat → Option Unit
  /-- what the n-th `ENC.RESET` leaves in the unspecified registers (R40) -/
  encUnset : Nat → EncUnset
  /-- what the n-th `ENC.RESET` leaves in `ENC.FBUF` (R40) -/
  encUnsetByte : Nat → Nat → Byte
  /-- what the n-th `DEC.RESET` leaves in the unspecified registers (R40) -/
  decUnset : Nat → DecUnset
  /-- what the n-th `DEC.RESET` leaves in `DEC.FBUF` (R40) -/
  decUnsetByte : Nat → Nat → Byte
deriving Inhabited

/-- The configuration of the machine: no body, so nothing can be proved of its values (assumption
logs 1, 2, 3 and 6). -/
opaque Config.given : Config

/-- P1 (clean codeword) of R253. -/
def Config.CleanCodeword (c : Config) : Prop :=
  ∀ m : Message, c.fecDecode (codewordOf m (c.fecEncode m)) = some m

/-- In how many positions two codewords differ (R253). -/
def codewordErrors (a b : Codeword) : Nat :=
  (Finset.univ.filter (fun j => a j ≠ b j)).card

/-- P2 (correction) of R253: fewer than `FEC_T` corrupted bytes are corrected. -/
def Config.Corrects (c : Config) : Prop :=
  ∀ (m : Message) (w : Codeword),
    codewordErrors (codewordOf m (c.fecEncode m)) w < c.fecT → c.fecDecode w = some m

end Sys2Proof
end

