-- ==== Sys2Proof/WellFormed.lean ====
section
/-! DEFINITION. Which operations are well formed: a wire frame has exactly 220 bytes of data region and 32 bytes of
parity (R100, R101); every other operation is well formed at every value of its operands (R109). -/

namespace Sys2Proof

/-- R100, R101: there is one frame length. -/
def Frame.wellFormed (f : Frame) : Bool :=
  f.data.length == dataRegionSize && f.parity.length == paritySize

/-- The check of an operation. Every constructor is named, so that a new one cannot slip past. -/
def Instr.wellFormed : Instr → Bool
  | .encode _ => true
  | .decodeStream => true
  | .encReset => true
  | .decReset => true
  | .eBuild => true
  | .eFill => true
  | .eParity => true
  | .eEmit => true
  | .dSync => true
  | .dBody => true
  | .dValidate => true
  | .dDispatchHdr => true
  | .dDispatchData => true
  | .dStream => true
  | .dStreamEnd => true
  | .syncPrefix => true
  | .syncCont => true
  | .frameHdr _ _ => true
  | .pktHdr _ _ => true
  | .frame f => f.wellFormed
  | .evtPacket _ _ => true

end Sys2Proof
end

