-- ==== Sys2Proof/Decode.lean ====
section
/-! DEFINITION. Reading an operation from the word that presents it, and writing that word: the byte order of R62,
the wire patterns of R101 to R103, the command word of R110, the control codes of R111, the event word of R113, and
the opcode table's own numbering of a row's bits. -/

namespace Sys2Proof

/-- Why a word presents no operation. -/
inductive DecodeError where
  /-- a command, reset or event word of the wrong number of bytes -/
  | wrongLength
  /-- an `ENC.PHASE` code that selects no step: IDLE, or the unreachable 5..7 (R111, I13) -/
  | encPhaseCode
  /-- a `DEC.PHASE` selector that selects no step: IDLE, or an unreachable code (R111, I13) -/
  | decPhaseCode
  /-- wire bytes that are none of the patterns of R101 to R103 -/
  | wirePattern
  /-- an event word whose bits above bit 104 are not zero (R113) -/
  | eventWord
deriving DecidableEq, Repr, Inhabited

/-- R62: a 16-bit field, most significant byte first. -/
def be16 (v : Half) : List Byte := [v.extractLsb' 8 8, v.extractLsb' 0 8]

/-- R62: a 32-bit field, most significant byte first. -/
def be32 (v : Quad) : List Byte :=
  [v.extractLsb' 24 8, v.extractLsb' 16 8, v.extractLsb' 8 8, v.extractLsb' 0 8]

/-- R107: the 16-bit field of two consecutive bytes. -/
def of16 (a b : Byte) : Half := a ++ b

/-- R107: the 32-bit field of four consecutive bytes. -/
def of32 (a b c d : Byte) : Quad := a ++ b ++ c ++ d

/-- The 13 bytes of a PacketHeader in the order of R110, R113 and (after the version byte) R103. -/
def headerBytes (h : PacketHeader) : List Byte :=
  [h.pid] ++ be16 h.len ++ be32 h.lat ++ be32 h.lon ++ be16 h.alt

/-- The PacketHeader of 13 bytes; `none` for another number of bytes. -/
def headerOf : List Byte → Option PacketHeader
  | [p, l1, l0, a3, a2, a1, a0, o3, o2, o1, o0, h1, h0] =>
    some ⟨p, of16 l1 l0, of32 a3 a2 a1 a0, of32 o3 o2 o1 o0, of16 h1 h0⟩
  | _ => none

/-- R103: the secondary header on the wire, 14 bytes. -/
def pktHdrBytes (version : Byte) (h : PacketHeader) : List Byte := version :: headerBytes h

/-- R102: the frame header on the wire, 4 bytes. -/
def frameHdrBytes (version : Byte) (seq : Half) : List Byte := syncContByte :: version :: be16 seq

/-- R101: the wire frame, 257 bytes when the frame is well formed. -/
def frameBytes (f : Frame) : List Byte :=
  syncPrefixByte :: frameHdrBytes f.version f.seq ++ f.data ++ f.parity

/-- R101: a wire frame read back from its 257 bytes. -/
def frameOf : List Byte → Option Frame
  | p :: k :: v :: s1 :: s0 :: rest =>
    if p = syncPrefixByte ∧ k = syncContByte ∧ rest.length = 252 then
      some ⟨v, of16 s1 s0, rest.take 220, rest.drop 220⟩
    else none
  | _ => none

/-- The wire patterns of R101 to R103, told apart by their length (R115). -/
def decodeWire (bytes : List Byte) : Except DecodeError Instr :=
  match bytes with
  | [b] =>
    if b = syncPrefixByte then .ok .syncPrefix
    else if b = syncContByte then .ok .syncCont
    else .error .wirePattern
  | [k, v, s1, s0] =>
    if k = syncContByte then .ok (.frameHdr v (of16 s1 s0)) else .error .wirePattern
  | bytes =>
    match frameOf bytes with
    | some f => .ok (.frame f)
    | none =>
      match bytes with
      | [] => .error .wirePattern
      | v :: rest =>
        match headerOf rest with
        | some h => .ok (.pktHdr v h)
        | none => .error .wirePattern

/-- R111, R115: the step that a code of `ENC.PHASE` selects. -/
def decodeEncPhase (code : Nat) : Except DecodeError Instr :=
  match code with
  | 1 => .ok .eBuild
  | 2 => .ok .eFill
  | 3 => .ok .eParity
  | 4 => .ok .eEmit
  | _ => .error .encPhaseCode

/-- R111, R115: the step that the selector of DEC selects: a code of `DEC.PHASE`, or in phase DISPATCH the phase
code followed by the mode bit. -/
def decodeDecPhase (more : Bool) (code : Nat) : Except DecodeError Instr :=
  match code with
  | 1 => .ok .dSync
  | 2 => .ok .dBody
  | 3 => .ok .dValidate
  | 5 => .ok (if more then .dStream else .dStreamEnd)
  | 8 => .ok .dDispatchHdr
  | 9 => .ok .dDispatchData
  | _ => .error .decPhaseCode

/-- R113: the event word of 105 bits in 14 bytes, the first of which holds `valid` alone. -/
def decodeEvent (bytes : List Byte) : Except DecodeError Instr :=
  match bytes with
  | [] => .error .wrongLength
  | d :: rest =>
    match headerOf rest with
    | none => .error .wrongLength
    | some h =>
      if d = 0#8 then .ok (.evtPacket false h)
      else if d = 1#8 then .ok (.evtPacket true h)
      else .error .eventWord

/-- The operation a word presents (R115): total, and rejecting by name. -/
def decode (w : OpWord) : Except DecodeError Instr :=
  match w.sel with
  | .encCmd =>
    match headerOf w.bytes with
    | some h => .ok (.encode h)
    | none => .error .wrongLength
  | .decCmd => if w.bytes = [] then .ok .decodeStream else .error .wrongLength
  | .encReset => if w.bytes = [] then .ok .encReset else .error .wrongLength
  | .decReset => if w.bytes = [] then .ok .decReset else .error .wrongLength
  | .encPhase =>
    match w.bytes with
    | [b] => decodeEncPhase b.toNat
    | _ => .error .wrongLength
  | .decPhase more =>
    match w.bytes with
    | [b] => decodeDecPhase more b.toNat
    | _ => .error .wrongLength
  | .wire => decodeWire w.bytes
  | .evt => decodeEvent w.bytes

/-- The word that presents an operation (R101 to R103, R110 to R113; the bytes of the command and event words are a
DESIGN CHOICE, assumption log 19). -/
def encode : Instr → OpWord
  | .encode h => ⟨.encCmd, headerBytes h⟩
  | .decodeStream => ⟨.decCmd, []⟩
  | .encReset => ⟨.encReset, []⟩
  | .decReset => ⟨.decReset, []⟩
  | .eBuild => ⟨.encPhase, [1#8]⟩
  | .eFill => ⟨.encPhase, [2#8]⟩
  | .eParity => ⟨.encPhase, [3#8]⟩
  | .eEmit => ⟨.encPhase, [4#8]⟩
  | .dSync => ⟨.decPhase false, [1#8]⟩
  | .dBody => ⟨.decPhase false, [2#8]⟩
  | .dValidate => ⟨.decPhase false, [3#8]⟩
  | .dDispatchHdr => ⟨.decPhase false, [8#8]⟩
  | .dDispatchData => ⟨.decPhase false, [9#8]⟩
  | .dStream => ⟨.decPhase true, [5#8]⟩
  | .dStreamEnd => ⟨.decPhase false, [5#8]⟩
  | .syncPrefix => ⟨.wire, [syncPrefixByte]⟩
  | .syncCont => ⟨.wire, [syncContByte]⟩
  | .frameHdr v s => ⟨.wire, frameHdrBytes v s⟩
  | .pktHdr v h => ⟨.wire, pktHdrBytes v h⟩
  | .frame f => ⟨.wire, frameBytes f⟩
  | .evtPacket valid h => ⟨.evt, BitVec.ofNat 8 valid.toNat :: headerBytes h⟩

/-- The `n` low bytes of a number, most significant first (R62). -/
def beBytes (n w : Nat) : List Byte :=
  (List.range n).reverse.map (fun k => BitVec.ofNat 8 (w >>> (8 * k)))

/-- The word a row of spec/opcode_table.json stands for, from the row's bits and their number. The row's bits do not
say which lines they are on: a phase code 1 to 4 is taken as `ENC.PHASE`, 5 to 9 as `DEC.PHASE`, 112 bits as a
secondary header, and no bits at all as a command to DEC (DESIGN CHOICE, assumption log 9). -/
def tableWord (nbits w : Nat) : OpWord :=
  if nbits = 0 then ⟨.decCmd, []⟩
  else if nbits ≤ 8 then
    let b := w % 256
    if b = 0xAA ∨ b = 0x5A then ⟨.wire, [BitVec.ofNat 8 b]⟩
    else if b ≤ 4 then ⟨.encPhase, [BitVec.ofNat 8 b]⟩
    else ⟨.decPhase true, [BitVec.ofNat 8 b]⟩
  else if nbits = 16 then ⟨.wire, beBytes 2 w ++ List.replicate 255 0#8⟩
  else if nbits = 104 then ⟨.encCmd, beBytes 13 w⟩
  else if nbits = 105 then ⟨.evt, beBytes 14 w⟩
  else ⟨.wire, beBytes ((nbits + 7) / 8) w⟩

/-- What the decoder reads from a row's bits. -/
def decodeTableWord (nbits w : Nat) : Option Instr :=
  match decode (tableWord nbits w) with
  | .ok i => some i
  | .error _ => none

end Sys2Proof
end

