-- ==== Sys2Proof/Machine/State.lean ====
section
/-! DEFINITION. The state of PRCORE as plain data: every register of R21 to R34, the two frame buffers (R60), and the
environment's channels (R66 to R72), which the model holds beside the registers so that a step is one function of the
state; the reasons a step can stop; and the machine after reset (R40). -/

namespace Sys2Proof.Machine

/-- `ENC.PHASE` (R25, R111). -/
inductive EncPhase where
  | idle | build | fill | parity | emit
deriving DecidableEq, Repr, Inhabited

/-- `DEC.PHASE` (R30, R111). -/
inductive DecPhase where
  | idle | sync | body | validate | dispatch | stream
deriving DecidableEq, Repr, Inhabited

/-- `DEC.SCAN` (R31). -/
inductive Scan where
  | hunt | gotAA
deriving DecidableEq, Repr, Inhabited

/-- `DEC.MODE` (R28). -/
inductive Mode where
  | awaitingHeader | awaitingData
deriving DecidableEq, Repr, Inhabited

/-- `ENC.RES.STATUS` (R27, R112). -/
inductive EncStatus where
  | none | ok | errSrc | errTx | errLen
deriving DecidableEq, Repr, Inhabited

/-- `DEC.STATUS` (R34, R112). -/
inductive DecStatus where
  | none | running | endEosSync | endEosBody | endFec | endVersion
deriving DecidableEq, Repr, Inhabited

/-- `ENC.RES`, also the content of one `ENC.RSP` transaction (R27, R72). -/
structure EncRes where
  status : EncStatus
  count : Half
deriving DecidableEq, Repr, Inhabited

/-- One EVT transaction: a copy of `DEC.HDR` and the bit `valid` (R71, R113). -/
structure Event where
  hdr : PacketHeader
  valid : Bool
deriving DecidableEq, Repr, Inhabited

/-- A frame buffer: its bytes by index 0..255, addresses strictly rising, no byte `0x00` listed (R60, R65; assumption
log 5: an unlisted byte reads as `0x00`). -/
abbrev Memory := List Host.Cell

/-- What a channel answers when its script has run out: always the same, or a fresh draw each time. -/
inductive Tail (α : Type) where
  /-- the same answer for ever (`none`: never ready) -/
  | always (a : Option α)
  /-- the `n`-th draw of the configuration and then the later ones -/
  | free (n : Nat)
deriving DecidableEq, Repr

/-- The environment's side of a channel (20_memory.md section 5): the answers already fixed, oldest first, where
`none` is a moment at which the channel is not ready (R73), and what follows them. -/
structure Channel (α : Type) where
  queue : List (Option α)
  tail : Tail α
deriving DecidableEq, Repr

/-- The registers of ENC (R22 to R27), and the response that is still to be made (R72; DEDUCED, assumption log 12). -/
structure Enc where
  /-- `ENC.SEQ` (R22) -/
  seq : Half
  /-- `ENC.HDR` (R23) -/
  hdr : PacketHeader
  /-- `ENC.TODO` (R24) -/
  todo : Half
  /-- `ENC.FIRST` (R24) -/
  first : Bool
  /-- `ENC.COUNT` (R24) -/
  count : Half
  /-- `ENC.PHASE` (R25) -/
  phase : EncPhase
  /-- `ENC.IDX` (R25) -/
  idx : Index
  /-- `ENC.FBUF` (R26) -/
  fbuf : Memory
  /-- `ENC.RES` (R27) -/
  res : EncRes
  /-- the command has ended and its `ENC.RSP` transaction is the next one ENC makes (R72, R74; the
  model's own field, DEDUCED, assumption log 12) -/
  rspDue : Bool
deriving DecidableEq, Repr

/-- The registers of DEC (R28 to R34), and the transaction that is still to be made of a step whose first one is past
(R72, R207, D29; DEDUCED, assumption log 12). -/
structure Dec where
  /-- `DEC.MODE` (R28) -/
  mode : Mode
  /-- `DEC.REM` (R28, R29) -/
  rem : Half
  /-- `DEC.HDR` (R28) -/
  hdr : PacketHeader
  /-- `DEC.PHASE` (R30) -/
  phase : DecPhase
  /-- `DEC.IDX` (R30) -/
  idx : Index
  /-- `DEC.SCAN` (R31) -/
  scan : Scan
  /-- `DEC.FBUF` (R32) -/
  fbuf : Memory
  /-- `DEC.SEQ_RX` (R33) -/
  seqRx : Half
  /-- `DEC.STATUS` (R34) -/
  status : DecStatus
  /-- the session has ended and its `DEC.RSP` transaction is the next one DEC makes (R72, R74) -/
  rspDue : Bool
  /-- SNK has refused a byte and the event of R207 is the next transaction DEC makes, which holds it in STREAM (D29) -/
  refused : Bool
deriving DecidableEq, Repr

/-- The whole machine: the registers of the two agents, and the model's own fields for the environment. -/
structure State where
  enc : Enc
  dec : Dec
  /-- SRC (R68) -/
  src : Channel (Option Byte)
  /-- TX (R66) -/
  tx : Channel Bool
  /-- the wire: every byte TX accepted, oldest first (R61) -/
  wire : List Byte
  /-- RX (R67) -/
  rx : Channel (Option Byte)
  /-- SNK (R69) -/
  snk : Channel Bool
  /-- every byte SNK took, oldest first (R69) -/
  sunk : List Byte
  /-- readiness of EVT (R71, R73) -/
  evt : Channel Unit
  /-- every EVT transaction, oldest first (R71) -/
  events : List Event
  /-- commands offered on `ENC.CMD` and not accepted yet (R72) -/
  encCmd : List PacketHeader
  /-- readiness of `ENC.RSP` (R72, R73) -/
  encRsp : Channel Unit
  /-- every `ENC.RSP` transaction, oldest first (R72) -/
  encRsps : List EncRes
  /-- how many commands stand on `DEC.CMD` and are not accepted yet (R72) -/
  decCmd : Nat
  /-- readiness of `DEC.RSP` (R72, R73) -/
  decRsp : Channel Unit
  /-- every `DEC.RSP` transaction, oldest first (R72) -/
  decRsps : List DecStatus
  /-- who acts next (R75) -/
  turns : Channel Turn
  /-- how many resets of ENC have drawn their unspecified registers (R40) -/
  encResets : Nat
  /-- how many resets of DEC have drawn their unspecified registers (R40) -/
  decResets : Nat
deriving DecidableEq, Repr

/-- Why the machine stops with a fault. -/
inductive Fault where
  /-- Raised by `E.EMIT` and `D.BODY` when the index register points at no byte of the frame buffer, which has the
  indices 0..255 and no others (R60, R63). No state that satisfies R41 raises it. Safe: the spec gives no such
  access, and a stop proves nothing. -/
  | noSuchByte (index : Nat)
deriving DecidableEq, Repr

/-- Why an operation is refused. -/
inductive Refusal where
  /-- Raised by an arm of `exec` that has no meaning; no arm raises it. Safe. -/
  | notModelled (mnemonic : String)
  /-- Raised by a step operation asked for in a phase that does not select it: no step rule is enabled then
  (R25, R30, R115), and by an event word that is not the event DEC's step makes (R71). `step` selects by the phase and
  never raises it. Safe: the machine stops where the hardware has no such transition. -/
  | notSelected
deriving DecidableEq, Repr

/-- A channel of which nothing is fixed: every answer is a free draw. -/
def Channel.unfixed {α : Type} : Channel α := ⟨[], .free 0⟩

/-- The PacketHeader of zeros that the model names for the header registers at reset (DESIGN CHOICE, assumption log 4). -/
def zeroHeader : PacketHeader := ⟨0, 0, 0, 0, 0⟩

/-- ENC after reset (R40); the registers R40 leaves unspecified hold zero here (DESIGN CHOICE, assumption log 4). -/
def Enc.reset : Enc where
  seq := Config.given.seqInit
  hdr := zeroHeader
  todo := 0
  first := false
  count := 0
  phase := .idle
  idx := 0
  fbuf := []
  res := ⟨.none, 0⟩
  rspDue := false

/-- DEC after reset (R40); the registers R40 leaves unspecified hold zero here (DESIGN CHOICE, assumption log 4). -/
def Dec.reset : Dec where
  mode := .awaitingHeader
  rem := 0
  hdr := zeroHeader
  phase := .idle
  idx := 0
  scan := .hunt
  fbuf := []
  seqRx := 0
  status := .none
  rspDue := false
  refused := false

/-- The machine right after reset (R40, R311): both agents idle, nothing transferred, nothing fixed of the
environment (DESIGN CHOICE, assumption log 7). -/
def State.reset : State where
  enc := Enc.reset
  dec := Dec.reset
  src := Channel.unfixed
  tx := Channel.unfixed
  wire := []
  rx := Channel.unfixed
  snk := Channel.unfixed
  sunk := []
  evt := Channel.unfixed
  events := []
  encCmd := []
  encRsp := Channel.unfixed
  encRsps := []
  decCmd := 0
  decRsp := Channel.unfixed
  decRsps := []
  turns := Channel.unfixed
  encResets := 0
  decResets := 0

end Sys2Proof.Machine
end

