-- ==== Sys2Proof/Machine/Ops.lean ====
section
/-! DEFINITION. The named operations that the step rules share: a frame buffer's bytes and byte strings (R60, R62,
R63), one transaction on a channel (R66 to R73), the end of a command, of a session and of a packet, taking a failure
(R270 to R279, R282), and the registers a reset leaves unspecified (R40). -/

namespace Sys2Proof.Machine

/-! Frame buffers -/

/-- What a byte that the buffer does not list reads as (DESIGN CHOICE, assumption log 5). -/
def Memory.blank : Byte := 0x00#8

/-- The byte at an index (R63). -/
def Memory.read : Memory → Nat → Byte
  | [], _ => Memory.blank
  | (x, b) :: m, a => if x = a then b else Memory.read m a

/-- A byte put at its place in the rising order of the indices. -/
def Memory.put : Memory → Nat → Byte → Memory
  | [], a, b => [(a, b)]
  | (x, c) :: m, a, b =>
    if a < x then (a, b) :: (x, c) :: m
    else if x = a then (a, b) :: m
    else (x, c) :: Memory.put m a b

/-- The byte at an index is no longer listed. -/
def Memory.drop (m : Memory) (a : Nat) : Memory := m.filter (fun cell => cell.1 != a)

/-- One byte written (R63): the canonical form is kept, so a byte that reads as an unlisted one is not listed. -/
def Memory.write (m : Memory) (a : Nat) (b : Byte) : Memory :=
  if b = Memory.blank then Memory.drop m a else Memory.put m a b

/-- Consecutive bytes written from an index upward. -/
def Memory.writeBytes : Memory → Nat → List Byte → Memory
  | m, _, [] => m
  | m, a, b :: bs => Memory.writeBytes (Memory.write m a b) (a + 1) bs

/-- `n` consecutive bytes read from an index upward. -/
def Memory.readBytes (m : Memory) (a n : Nat) : List Byte :=
  (List.range n).map (fun k => Memory.read m (a + k))

/-- `MemWrite(F, a, 2, v)` (R62). -/
def Memory.write16 (m : Memory) (a : Nat) (v : Half) : Memory := Memory.writeBytes m a (be16 v)

/-- `MemWrite(F, a, 4, v)` (R62). -/
def Memory.write32 (m : Memory) (a : Nat) (v : Quad) : Memory := Memory.writeBytes m a (be32 v)

/-- `MemRead(F, a, 2)` (R62). -/
def Memory.read16 (m : Memory) (a : Nat) : Half := of16 (Memory.read m a) (Memory.read m (a + 1))

/-- `MemRead(F, a, 4)` (R62). -/
def Memory.read32 (m : Memory) (a : Nat) : Quad :=
  of32 (Memory.read m a) (Memory.read m (a + 1)) (Memory.read m (a + 2)) (Memory.read m (a + 3))

/-- The indices rise strictly from a bound on. -/
def Memory.rising : Nat → Memory → Bool
  | _, [] => true
  | lo, (x, _) :: m => decide (lo ≤ x) && Memory.rising (x + 1) m

/-- The canonical form: indices strictly rising, all of them bytes of a frame buffer, no byte listed that reads as an
unlisted one. -/
def Memory.wf (m : Memory) : Bool :=
  Memory.rising 0 m && m.all (fun cell => decide (cell.1 < 256) && decide (cell.2 ≠ Memory.blank))

/-- A buffer whose every byte reads `0x00`: what `E.BUILD` writes first (R161). -/
def Memory.cleared : Memory := []

/-- A buffer of 256 given bytes. -/
def Memory.ofBytes (f : Nat → Byte) : Memory :=
  Memory.writeBytes Memory.cleared 0 ((List.range 256).map f)

/-! Channels -/

/-- What the channel answers to a transaction asked for now; `none`: it is not ready (R73). -/
def Channel.peek {α : Type} (draw : Nat → Option α) (ch : Channel α) : Option α :=
  match ch.queue with
  | a :: _ => a
  | [] =>
    match ch.tail with
    | .always a => a
    | .free n => draw n

/-- The channel after it was asked: the answer, or the moment of not being ready, is past (DESIGN CHOICE, assumption
log 21). -/
def Channel.pop {α : Type} (ch : Channel α) : Channel α :=
  match ch.queue with
  | _ :: q => ⟨q, ch.tail⟩
  | [] =>
    match ch.tail with
    | .always a => ⟨[], .always a⟩
    | .free n => ⟨[], .free (n + 1)⟩

/-- Answers fixed after those already fixed. -/
def Channel.supply {α : Type} (ch : Channel α) (answers : List α) : Channel α :=
  ⟨ch.queue ++ answers.map some, ch.tail⟩

/-- An answer fixed before those already fixed. -/
def Channel.next {α : Type} (ch : Channel α) (a : α) : Channel α :=
  ⟨some a :: ch.queue, ch.tail⟩

/-- Bytes arrive on the wire into DEC: RX will answer them, in order, after what it already holds (R61, R67, R75). -/
def arrive (bytes : List Byte) (s : State) : State :=
  { s with rx := s.rx.supply (bytes.map some) }

/-- An action that makes an EVT transaction happens when EVT is ready; until then DEC is held in its step with no
register changed (R73, R289, D29). -/
def onEvt (c : Config) (s : State) (act : State → State) : State :=
  match s.evt.peek c.evtDraw with
  | none => { s with evt := s.evt.pop }
  | some _ => act s

/-! The end of a command, of a session, of a packet -/

/-- A command ends: `ENC.RES` is written, ENC is IDLE, and the response is the next transaction ENC makes (R27, R72).
A step makes at most one transaction (R7, R281), and these steps have made theirs (DEDUCED, assumption log 12). -/
def endCommand (status : EncStatus) (count : Half) (s : State) : State :=
  { s with enc := { s.enc with res := ⟨status, count⟩, phase := .idle, rspDue := true } }

/-- A session ends: `DEC.STATUS` is written, DEC is IDLE, and the response is the next transaction DEC makes; no event
(R209, R7; DEDUCED, assumption log 12). -/
def endSession (status : DecStatus) (s : State) : State :=
  { s with dec := { s.dec with status := status, phase := .idle, rspDue := true } }

/-- The `ENC.RSP` transaction, which carries `ENC.RES`, once the channel is ready (R27, R72, R73). -/
def respondEnc (c : Config) (s : State) : State :=
  match s.encRsp.peek c.encRspDraw with
  | none => { s with encRsp := s.encRsp.pop }
  | some _ =>
    { s with
      enc := { s.enc with rspDue := false }
      encRsp := s.encRsp.pop
      encRsps := s.encRsps ++ [s.enc.res] }

/-- The `DEC.RSP` transaction, which carries `DEC.STATUS`, once the channel is ready (R34, R72, R73). -/
def respondDec (c : Config) (s : State) : State :=
  match s.decRsp.peek c.decRspDraw with
  | none => { s with decRsp := s.decRsp.pop }
  | some _ =>
    { s with
      dec := { s.dec with rspDue := false }
      decRsp := s.decRsp.pop
      decRsps := s.decRsps ++ [s.dec.status] }

/-- The EVT transaction: a copy of a header and the bit `valid` reach the host (R71, R113). -/
def sendEvent (hdr : PacketHeader) (valid : Bool) (s : State) : State :=
  { s with events := s.events ++ [⟨hdr, valid⟩] }

/-- A packet ends, complete or aborted: the event is made and DEC looks for the next frame (R206, R207, R208). A byte
that SNK refused is dropped with it (R207). -/
def closePacket (valid : Bool) (s : State) : State :=
  sendEvent s.dec.hdr valid
    { s with
      dec := { s.dec with mode := .awaitingHeader, scan := .hunt, phase := .sync, refused := false }
      evt := s.evt.pop }

/-! Failures -/

/-- The nine causes of R270. -/
inductive Cause where
  | encSrcFail | encTxFail | encLenRefused
  | decEosSync | decEosBody | decFecUncorrectable | decBadVersion
  | decSinkFail | decBadLength
deriving DecidableEq, Repr

/-- `raise <Cause>`: the entry actions of R271 to R279. Nothing is saved and nothing is returned from (R282, R283):
a terminating cause writes its status and leaves the agent in IDLE with the response to make; a packet-scoped cause
makes the event and DEC goes on with the next frame. -/
def raise (cause : Cause) (s : State) : State :=
  match cause with
  | .encSrcFail => endCommand .errSrc s.enc.count s
  | .encTxFail => endCommand .errTx s.enc.count s
  | .encLenRefused => endCommand .errLen 0 s
  | .decEosSync => endSession .endEosSync s
  | .decEosBody => endSession .endEosBody s
  | .decFecUncorrectable => endSession .endFec s
  | .decBadVersion => endSession .endVersion s
  | .decSinkFail => closePacket false s
  | .decBadLength => closePacket false s

/-! Resets -/

/-- ENC after its `n`-th reset: the values of R310, no response to make, and free values where R310 says unspecified
(DEDUCED, assumption log 6). -/
def encAfterReset (c : Config) (n : Nat) : Enc where
  seq := c.seqInit
  hdr := (c.encUnset n).hdr
  todo := BitVec.ofNat 16 (c.encUnset n).todo.val
  first := (c.encUnset n).first
  count := BitVec.ofNat 16 (c.encUnset n).count.val
  phase := .idle
  idx := (c.encUnset n).idx
  fbuf := Memory.ofBytes (c.encUnsetByte n)
  res := ⟨.none, 0⟩
  rspDue := false

/-- DEC after its `n`-th reset: the values of R310, no response and no event to make, and free values where R310 says
unspecified (DEDUCED, assumption log 6). -/
def decAfterReset (c : Config) (n : Nat) : Dec where
  mode := .awaitingHeader
  rem := BitVec.ofNat 16 (c.decUnset n).rem.val
  hdr := (c.decUnset n).hdr
  phase := .idle
  idx := (c.decUnset n).idx
  scan := .hunt
  fbuf := Memory.ofBytes (c.decUnsetByte n)
  seqRx := (c.decUnset n).seqRx
  status := .none
  rspDue := false
  refused := false

/-! Outcomes -/

/-- A step happens only in the phase that selects it (R25, R30, R115; DEDUCED, assumption log 14). -/
def whenSelected (selected : Prop) [Decidable selected] (s : State) : Host.Outcome State Fault Refusal :=
  if selected then .next s else .refused .notSelected

end Sys2Proof.Machine
end

