-- ==== Sys2Proof/Machine/Operands.lean ====
section
/-! DEFINITION. The operands of the step rules: the fields of a frame buffer by the map of R65, the frame header and
the secondary header as they are written and read (R102, R103, R107), the parts the codec sees (R106, R250), and the
wire byte of an index (R61). -/

namespace Sys2Proof.Machine

/-- The wire byte `W[i]` of the frame in a buffer: the prefix `0xAA` at 0, `FBUF[i - 1]` after it (R61). -/
def wireByte (m : Memory) (i : Nat) : Byte := if i = 0 then syncPrefixByte else Memory.read m (i - 1)

/-- The frame header at `FBUF[0..3]` (R102). -/
def writeFrameHdr (m : Memory) (version : Byte) (seq : Half) : Memory :=
  Memory.write16 (Memory.write (Memory.write m 0 syncContByte) 1 version) 2 seq

/-- The secondary header at `FBUF[4..17]` (R103). -/
def writePktHdr (m : Memory) (version : Byte) (h : PacketHeader) : Memory :=
  Memory.write16
    (Memory.write32
      (Memory.write32
        (Memory.write16 (Memory.write (Memory.write m 4 version) 5 h.pid) 6 h.len) 8 h.lat) 12 h.lon) 16 h.alt

/-- The secondary header read from `FBUF[5..17]`; `FBUF[4]` is ignored (R103, R203, D7). -/
def readPktHdr (m : Memory) : PacketHeader where
  pid := Memory.read m 5
  len := Memory.read16 m 6
  lat := Memory.read32 m 8
  lon := Memory.read32 m 12
  alt := Memory.read16 m 16

/-- The message `FBUF[1..223]` (R250). -/
def messageOf (m : Memory) : Message := fun i => Memory.read m (1 + i.val)

/-- The codeword `FBUF[1..255]` (R250). -/
def codewordIn (m : Memory) : Codeword := fun j => Memory.read m (1 + j.val)

/-- The parity written to `FBUF[224..255]` (R106, R163). -/
def writeParity (m : Memory) (q : Parity) : Memory := Memory.writeBytes m 224 (List.ofFn q)

/-- The corrected message written to `FBUF[1..223]` (R202). -/
def writeMessage (m : Memory) (msg : Message) : Memory := Memory.writeBytes m 1 (List.ofFn msg)

/-- R160, R203: `length - 14`, used only where the length is at least 14. -/
def payloadCount (len : Half) : Half := len - 14#16

end Sys2Proof.Machine
end

