-- ==== Sys2Proof/Machine/Flags.lean ====
section
/-! DEFINITION. PRCORE has no arithmetic flags (R36): its status and control codes (R111, R112, R270), the selector
words of the two agents (R115), and the conditions that the step rules test. -/

namespace Sys2Proof.Machine

/-- R111: the code of `ENC.PHASE`. -/
def EncPhase.code : EncPhase → Nat
  | .idle => 0
  | .build => 1
  | .fill => 2
  | .parity => 3
  | .emit => 4

/-- R111: the code of `DEC.PHASE`. -/
def DecPhase.code : DecPhase → Nat
  | .idle => 0
  | .sync => 1
  | .body => 2
  | .validate => 3
  | .dispatch => 4
  | .stream => 5

/-- R111: the code of `DEC.SCAN`. -/
def Scan.code : Scan → Nat
  | .hunt => 0
  | .gotAA => 1

/-- R111: the code of `DEC.MODE`. -/
def Mode.code : Mode → Nat
  | .awaitingHeader => 0
  | .awaitingData => 1

/-- R112: the code of `ENC.RES.STATUS`. -/
def EncStatus.code : EncStatus → Nat
  | .none => 0
  | .ok => 1
  | .errSrc => 2
  | .errTx => 3
  | .errLen => 4

/-- R112: the code of `DEC.STATUS`. -/
def DecStatus.code : DecStatus → Nat
  | .none => 0
  | .running => 1
  | .endEosSync => 2
  | .endEosBody => 3
  | .endFec => 4
  | .endVersion => 5

/-- R270: the code of a cause. -/
def Cause.code : Cause → Nat
  | .encSrcFail => 1
  | .encTxFail => 2
  | .encLenRefused => 3
  | .decEosSync => 4
  | .decEosBody => 5
  | .decFecUncorrectable => 6
  | .decBadVersion => 7
  | .decSinkFail => 8
  | .decBadLength => 9

/-- R162: a payload byte has to be pulled, since the region is not full and the packet is not exhausted. -/
abbrev Enc.pulls (e : Enc) : Prop := e.idx.toNat < 224 ∧ 0 < e.todo.toNat

/-- R205: a payload byte has to be delivered. -/
abbrev Dec.more (d : Dec) : Prop := d.idx.toNat < 224 ∧ 0 < d.rem.toNat

/-- The event that DEC's next step makes, if its rule makes one: a length below 14 (R208), a byte that SNK has refused
(R207), or nothing outstanding (R206). No other step makes an event (R71). -/
def Dec.eventNow (d : Dec) : Option Event :=
  match d.phase with
  | .dispatch =>
    if d.mode = .awaitingHeader ∧ (readPktHdr d.fbuf).len.toNat < 14 then some ⟨readPktHdr d.fbuf, false⟩ else none
  | .stream =>
    if d.more then if d.refused then some ⟨d.hdr, false⟩ else none
    else if d.rem.toNat = 0 then some ⟨d.hdr, true⟩
    else none
  | _ => none

/-- R115: the selector of ENC is the code of `ENC.PHASE`. -/
def Enc.selector (e : Enc) : OpWord := ⟨.encPhase, [BitVec.ofNat 8 e.phase.code]⟩

/-- R115: the selector of DEC is the code of `DEC.PHASE`, and in phase DISPATCH that code followed by the mode bit. -/
def Dec.selector (d : Dec) : OpWord :=
  ⟨.decPhase (decide d.more),
    [BitVec.ofNat 8 (if d.phase = .dispatch then 2 * d.phase.code + d.mode.code else d.phase.code)]⟩

end Sys2Proof.Machine
end

