-- ==== Sys2Proof/Machine/Commands.lean ====
section
/-! DEFINITION. The host-selected operations: `ENCODE` (R160), `DECODE_STREAM` (R200), and the two resets (R310). -/

namespace Sys2Proof.Machine

/-- `ENCODE` accepted by an idle ENC (R160). A command of length 0, or of a refused length, is over at once, and its
response is the next transaction ENC makes (R7, R72; DEDUCED, assumption log 12). -/
def acceptEncode (h : PacketHeader) (s : State) : State :=
  if h.len.toNat = 0 then endCommand .ok 0 { s with enc := { s.enc with hdr := h } }
  else if h.len.toNat < 14 then raise .encLenRefused { s with enc := { s.enc with hdr := h } }
  else
    { s with
      enc := { s.enc with
        hdr := h
        res := ⟨.none, 0⟩
        todo := payloadCount h.len
        first := true
        count := 0
        phase := .build } }

/-- `ENCODE` (R160, R72): accepted in IDLE once the last command is answered (R165); otherwise the command channel is
not ready and the command waits, behind those that wait already (DESIGN CHOICE, assumption log 13). -/
def offerEncode (h : PacketHeader) (s : State) : State :=
  if s.enc.phase = .idle ∧ s.enc.rspDue = false then acceptEncode h s else { s with encCmd := s.encCmd ++ [h] }

/-- `DECODE_STREAM` (R200, R72): accepted in IDLE once the last session is answered; otherwise the command channel is
not ready and the command waits. -/
def offerDecode (s : State) : State :=
  if s.dec.phase = .idle ∧ s.dec.rspDue = false then
    { s with dec := { s.dec with mode := .awaitingHeader, scan := .hunt, status := .running, phase := .sync } }
  else { s with decCmd := s.decCmd + 1 }

/-- `ENC.RESET` (R310): at any time, without a response; DEC, everything already transferred and
the commands that wait are untouched (DEDUCED, assumption log 20). -/
def resetEnc (c : Config) (s : State) : State :=
  { s with enc := encAfterReset c s.encResets, encResets := s.encResets + 1 }

/-- `DEC.RESET` (R310). -/
def resetDec (c : Config) (s : State) : State :=
  { s with dec := decAfterReset c s.decResets, decResets := s.decResets + 1 }

/-- `ENCODE` (R160). -/
def execEncode (h : PacketHeader) (s : State) : Host.Outcome State Fault Refusal :=
  .next (offerEncode h s)

/-- `DECODE_STREAM` (R200). -/
def execDecodeStream (s : State) : Host.Outcome State Fault Refusal :=
  .next (offerDecode s)

/-- `ENC.RESET` (R310). -/
def execEncReset (s : State) : Host.Outcome State Fault Refusal :=
  .next (resetEnc Config.given s)

/-- `DEC.RESET` (R310). -/
def execDecReset (s : State) : Host.Outcome State Fault Refusal :=
  .next (resetDec Config.given s)

end Sys2Proof.Machine
end

