-- ==== Sys2Proof/Machine/Decoder.lean ====
section
/-! DEFINITION. The steps of the decoder behind the scanner (spec/42_decoder.md): `D.BODY`, `D.VALIDATE`,
`D.DISPATCH.HDR`, `D.DISPATCH.DATA`, `D.STREAM`, `D.STREAM.END`, and the event they make, `EVT.packet`. -/

namespace Sys2Proof.Machine

/-- `D.BODY` (R201). -/
def readBody (c : Config) (s : State) : State :=
  match s.rx.peek c.rxDraw with
  | none => { s with rx := s.rx.pop }
  | some none => raise .decEosBody { s with rx := s.rx.pop }
  | some (some b) =>
    { s with
      rx := s.rx.pop
      dec := { s.dec with
        fbuf := Memory.write s.dec.fbuf s.dec.idx.toNat b
        idx := s.dec.idx + 1#9
        phase := if s.dec.idx.toNat + 1 = 256 then .validate else .body } }

/-- `D.VALIDATE` (R202, R252): the codec first, then the version of the corrected message. -/
def validate (c : Config) (s : State) : State :=
  match c.fecDecode (codewordIn s.dec.fbuf) with
  | none => raise .decFecUncorrectable s
  | some m =>
    if m 0 = c.protocolVersion then
      { s with
        dec := { s.dec with
          fbuf := writeMessage s.dec.fbuf m
          seqRx := of16 (m 1) (m 2)
          phase := .dispatch } }
    else raise .decBadVersion { s with dec := { s.dec with fbuf := writeMessage s.dec.fbuf m } }

/-- `D.DISPATCH.HDR` (R203, R208). -/
def dispatchHdr (c : Config) (s : State) : State :=
  let h := readPktHdr s.dec.fbuf
  if h.len.toNat < 14 then
    onEvt c s fun s => raise .decBadLength { s with dec := { s.dec with hdr := h } }
  else
    { s with dec := { s.dec with hdr := h, rem := payloadCount h.len, idx := 18#9, phase := .stream } }

/-- `D.DISPATCH.DATA` (R204). -/
def dispatchData (s : State) : State :=
  { s with dec := { s.dec with idx := 4#9, phase := .stream } }

/-- `D.STREAM` (R205, R207). A refused byte takes two transactions, one on SNK and then the event, which DEC makes one
after the other, held in STREAM between them (R7, D29; DEDUCED, assumption log 12). -/
def streamByte (c : Config) (s : State) : State :=
  if s.dec.refused then onEvt c s (raise .decSinkFail)
  else
    match s.snk.peek c.snkDraw with
    | none => { s with snk := s.snk.pop }
    | some false => { s with snk := s.snk.pop, dec := { s.dec with refused := true } }
    | some true =>
      { s with
        snk := s.snk.pop
        sunk := s.sunk ++ [Memory.read s.dec.fbuf s.dec.idx.toNat]
        dec := { s.dec with idx := s.dec.idx + 1#9, rem := s.dec.rem - 1#16 } }

/-- `D.STREAM.END` (R206). -/
def streamEnd (c : Config) (s : State) : State :=
  if s.dec.rem.toNat = 0 then onEvt c s (closePacket true)
  else { s with dec := { s.dec with mode := .awaitingData, scan := .hunt, phase := .sync } }

/-- The EVT transaction in which a packet ends, with the header it carries (R71, R206 to R208). -/
def makeEvent (c : Config) (valid : Bool) (h : PacketHeader) (s : State) : State :=
  onEvt c s fun s => closePacket valid { s with dec := { s.dec with hdr := h } }

/-- `D.BODY` (R201): the buffer has the indices 0..255 (R60), and no byte stands at any other (DEDUCED, assumption
log 15). -/
def execDBody (s : State) : Host.Outcome State Fault Refusal :=
  if s.dec.phase = .body ∧ 255 < s.dec.idx.toNat then .fault (.noSuchByte s.dec.idx.toNat)
  else whenSelected (s.dec.phase = .body) (readBody Config.given s)

/-- `D.VALIDATE` (R202). -/
def execDValidate (s : State) : Host.Outcome State Fault Refusal :=
  whenSelected (s.dec.phase = .validate) (validate Config.given s)

/-- `D.DISPATCH.HDR` (R203). -/
def execDDispatchHdr (s : State) : Host.Outcome State Fault Refusal :=
  whenSelected (s.dec.phase = .dispatch ∧ s.dec.mode = .awaitingHeader) (dispatchHdr Config.given s)

/-- `D.DISPATCH.DATA` (R204). -/
def execDDispatchData (s : State) : Host.Outcome State Fault Refusal :=
  whenSelected (s.dec.phase = .dispatch ∧ s.dec.mode = .awaitingData) (dispatchData s)

/-- `D.STREAM` (R205). -/
def execDStream (s : State) : Host.Outcome State Fault Refusal :=
  whenSelected (s.dec.phase = .stream ∧ s.dec.more) (streamByte Config.given s)

/-- `EVT.packet` (R71, R113): the EVT transaction of DEC's steps, which happens only where the rule of the step that DEC
stands in makes this very event (R206 to R208, R210; DEDUCED, assumption log 11). -/
def execEvtPacket (valid : Bool) (h : PacketHeader) (s : State) : Host.Outcome State Fault Refusal :=
  whenSelected (s.dec.eventNow = some ⟨h, valid⟩) (makeEvent Config.given valid h s)

/-- `D.STREAM.END` (R206), selected whenever `D.STREAM` is not (R115; DEDUCED, assumption log 16). -/
def execDStreamEnd (s : State) : Host.Outcome State Fault Refusal :=
  whenSelected (s.dec.phase = .stream ∧ ¬ s.dec.more) (streamEnd Config.given s)

end Sys2Proof.Machine
end

