-- ==== Sys2Proof/Machine/Encoder.lean ====
section
/-! DEFINITION. The steps of the encoder (spec/41_encoder.md): `E.BUILD`, `E.FILL`, `E.PARITY`, `E.EMIT`. -/

namespace Sys2Proof.Machine

/-- The buffer that `E.BUILD` leaves: cleared, the frame header, and in a first frame the secondary header (R161). -/
def builtBuffer (c : Config) (e : Enc) : Memory :=
  let framed := writeFrameHdr Memory.cleared c.protocolVersion e.seq
  if e.first then writePktHdr framed c.protocolVersion e.hdr else framed

/-- `E.BUILD` (R161). -/
def buildFrame (c : Config) (s : State) : State :=
  { s with
    enc := { s.enc with
      fbuf := builtBuffer c s.enc
      seq := s.enc.seq + 1#16
      idx := if s.enc.first then 18#9 else 4#9
      first := false
      phase := .fill } }

/-- `E.FILL` (R162). -/
def fillByte (c : Config) (s : State) : State :=
  if s.enc.pulls then
    match s.src.peek c.srcDraw with
    | none => { s with src := s.src.pop }
    | some none => raise .encSrcFail { s with src := s.src.pop }
    | some (some b) =>
      { s with
        src := s.src.pop
        enc := { s.enc with
          fbuf := Memory.write s.enc.fbuf s.enc.idx.toNat b
          idx := s.enc.idx + 1#9
          todo := s.enc.todo - 1#16 } }
  else { s with enc := { s.enc with phase := .parity } }

/-- `E.PARITY` (R163, R251). -/
def addParity (c : Config) (s : State) : State :=
  { s with
    enc := { s.enc with
      fbuf := writeParity s.enc.fbuf (c.fecEncode (messageOf s.enc.fbuf))
      idx := 0#9
      phase := .emit } }

/-- `E.EMIT` (R164). -/
def emitByte (c : Config) (s : State) : State :=
  match s.tx.peek c.txDraw with
  | none => { s with tx := s.tx.pop }
  | some false => raise .encTxFail { s with tx := s.tx.pop }
  | some true =>
    let sent : State := { s with tx := s.tx.pop, wire := s.wire ++ [wireByte s.enc.fbuf s.enc.idx.toNat] }
    if s.enc.idx.toNat < 256 then
      { sent with enc := { s.enc with idx := s.enc.idx + 1#9 } }
    else if s.enc.todo.toNat = 0 then
      endCommand .ok (s.enc.count + 1#16) { sent with enc := { s.enc with count := s.enc.count + 1#16 } }
    else { sent with enc := { s.enc with count := s.enc.count + 1#16, phase := .build } }

/-- `E.BUILD` (R161). -/
def execEBuild (s : State) : Host.Outcome State Fault Refusal :=
  whenSelected (s.enc.phase = .build) (buildFrame Config.given s)

/-- `E.FILL` (R162). -/
def execEFill (s : State) : Host.Outcome State Fault Refusal :=
  whenSelected (s.enc.phase = .fill) (fillByte Config.given s)

/-- `E.PARITY` (R163). -/
def execEParity (s : State) : Host.Outcome State Fault Refusal :=
  whenSelected (s.enc.phase = .parity) (addParity Config.given s)

/-- `E.EMIT` (R164): the wire index is 0..256 (R25), and no byte stands at any other (DEDUCED,
assumption log 15). -/
def execEEmit (s : State) : Host.Outcome State Fault Refusal :=
  if s.enc.phase = .emit ∧ 256 < s.enc.idx.toNat then .fault (.noSuchByte (s.enc.idx.toNat - 1))
  else whenSelected (s.enc.phase = .emit) (emitByte Config.given s)

end Sys2Proof.Machine
end

