-- ==== Sys2Proof/Machine/Sync.lean ====
section
/-! DEFINITION. Frame synchronisation (spec/40_sync.md): the two-state scanner and the step `D.SYNC`. -/

namespace Sys2Proof.Machine

/-- What the scanner says of a byte: it goes on in a state, or the pattern is complete. -/
inductive ScanResult where
  | stay (t : Scan)
  | matched
deriving DecidableEq, Repr

/-- The transition function `scan(s, b)` of R141: a byte that breaks a partial match sends the scanner to HUNT, a
second `0xAA` too. -/
def scan (t : Scan) (b : Byte) : ScanResult :=
  match t with
  | .hunt => if b = syncPrefixByte then .stay .gotAA else .stay .hunt
  | .gotAA => if b = syncContByte then .matched else .stay .hunt

/-- `D.SYNC` (R142). -/
def scanByte (c : Config) (s : State) : State :=
  match s.rx.peek c.rxDraw with
  | none => { s with rx := s.rx.pop }
  | some none => raise .decEosSync { s with rx := s.rx.pop }
  | some (some b) =>
    match scan s.dec.scan b with
    | .matched =>
      { s with
        rx := s.rx.pop
        dec := { s.dec with
          fbuf := Memory.write s.dec.fbuf 0 syncContByte
          idx := 1#9
          scan := .hunt
          phase := .body } }
    | .stay t => { s with rx := s.rx.pop, dec := { s.dec with scan := t } }

/-- `D.SYNC` (R142). -/
def execDSync (s : State) : Host.Outcome State Fault Refusal :=
  whenSelected (s.dec.phase = .sync) (scanByte Config.given s)

end Sys2Proof.Machine
end

