-- ==== Sys2Proof/Machine/Wire.lean ====
section
/-! DEFINITION. The wire patterns (R101 to R103) as operations: a pattern arrives on the wire into DEC, where RX answers
its bytes in order (R61, R67; DESIGN CHOICE, assumption log 10). -/

namespace Sys2Proof.Machine

/-- `SYNC_PREFIX` (R101). -/
def execSyncPrefix (s : State) : Host.Outcome State Fault Refusal :=
  .next (arrive [syncPrefixByte] s)

/-- `SYNC_CONT` (R101). -/
def execSyncCont (s : State) : Host.Outcome State Fault Refusal :=
  .next (arrive [syncContByte] s)

/-- `FRAME_HDR` (R102). -/
def execFrameHdr (version : Byte) (seq : Half) (s : State) : Host.Outcome State Fault Refusal :=
  .next (arrive (frameHdrBytes version seq) s)

/-- `PKT_HDR` (R103). -/
def execPktHdr (version : Byte) (h : PacketHeader) (s : State) : Host.Outcome State Fault Refusal :=
  .next (arrive (pktHdrBytes version h) s)

/-- `FRAME` (R101). -/
def execFrame (f : Frame) (s : State) : Host.Outcome State Fault Refusal :=
  .next (arrive (frameBytes f) s)

end Sys2Proof.Machine
end

