-- ==== Sys2Proof/Machine/Dispatch.lean ====
section
/-! DEFINITION. One arm per operation: a direct call of its meaning. -/

namespace Sys2Proof.Machine

def exec (i : Instr) (s : State) : Host.Outcome State Fault Refusal :=
  match i with
  | .encode h => Sys2Proof.Machine.execEncode h s
  | .decodeStream => Sys2Proof.Machine.execDecodeStream s
  | .encReset => Sys2Proof.Machine.execEncReset s
  | .decReset => Sys2Proof.Machine.execDecReset s
  | .eBuild => Sys2Proof.Machine.execEBuild s
  | .eFill => Sys2Proof.Machine.execEFill s
  | .eParity => Sys2Proof.Machine.execEParity s
  | .eEmit => Sys2Proof.Machine.execEEmit s
  | .dSync => Sys2Proof.Machine.execDSync s
  | .dBody => Sys2Proof.Machine.execDBody s
  | .dValidate => Sys2Proof.Machine.execDValidate s
  | .dDispatchHdr => Sys2Proof.Machine.execDDispatchHdr s
  | .dDispatchData => Sys2Proof.Machine.execDDispatchData s
  | .dStream => Sys2Proof.Machine.execDStream s
  | .dStreamEnd => Sys2Proof.Machine.execDStreamEnd s
  | .syncPrefix => Sys2Proof.Machine.execSyncPrefix s
  | .syncCont => Sys2Proof.Machine.execSyncCont s
  | .frameHdr v n => Sys2Proof.Machine.execFrameHdr v n s
  | .pktHdr v h => Sys2Proof.Machine.execPktHdr v h s
  | .frame f => Sys2Proof.Machine.execFrame f s
  | .evtPacket d h => Sys2Proof.Machine.execEvtPacket d h s

end Sys2Proof.Machine
end

