-- ==== Sys2Proof/Machine/Fetch.lean ====
section
/-! DEFINITION. PRCORE fetches no instructions (R77): what selects its next operation is the environment's choice of
who acts (R75) and then a command, a reset or a wire pattern from outside, or the control registers `ENC.PHASE` and
`DEC.PHASE`. This file finds that word, and puts a given word in its place. -/

namespace Sys2Proof.Machine

/-- What is to happen next. -/
inductive Fetched where
  /-- no operation of the opcode table: the environment lets a moment pass, the agent it chose is idle and makes the
  response that is due or has no command, or what is presented is no operation; and the state after that -/
  | noOp (s : State)
  /-- the word that selects the operation, and the state in which the operation happens -/
  | word (w : OpWord) (s : State)
deriving DecidableEq, Repr

/-- The state in which what was fetched happens. -/
def Fetched.state : Fetched → State
  | .noOp s => s
  | .word _ s => s

/-- ENC's turn: a phase other than IDLE selects its step; in IDLE the response that is due is made (R74), and then a
command that stands on `ENC.CMD` is taken. -/
def fetchEnc (c : Config) (s : State) : Fetched :=
  if s.enc.phase = .idle then
    if s.enc.rspDue then .noOp (respondEnc c s)
    else
      match s.encCmd with
      | [] => .noOp s
      | h :: hs => .word (encode (.encode h)) { s with encCmd := hs }
  else .word s.enc.selector s

/-- DEC's turn: a phase other than IDLE selects its step; in IDLE the response that is due is made (R74), and then a
command that stands on `DEC.CMD` is taken. -/
def fetchDec (c : Config) (s : State) : Fetched :=
  if s.dec.phase = .idle then
    if s.dec.rspDue then .noOp (respondDec c s)
    else
      match s.decCmd with
      | 0 => .noOp s
      | n + 1 => .word (encode .decodeStream) { s with decCmd := n }
  else .word s.dec.selector s

/-- What becomes of a word that presents no operation. On the wire it is bytes like any others, which DEC reads and
judges (R61, R109, R142). On a command channel or a reset input nothing is issued and nothing happens: there is no
other command (R110, R285; DESIGN CHOICE, assumption log 17). -/
def noOperation (w : OpWord) (s : State) : State :=
  match w.sel with
  | .wire => arrive w.bytes s
  | _ => s

/-- A word from outside stands on a command channel, a reset input or the wire into DEC. No one outside drives the
control registers (R20) or EVT, which DEC alone uses (R71): a word there does nothing. -/
def fetchLine (w : OpWord) (s : State) : Fetched :=
  match w.sel with
  | .encPhase => .noOp s
  | .decPhase _ => .noOp s
  | .evt => .noOp s
  | _ => .word w s

/-- The next word, once the turn that names who acts is past. -/
def fetch (c : Config) (s : State) : Fetched :=
  let s' := { s with turns := s.turns.pop }
  match s.turns.peek c.turnDraw with
  | none => .noOp s'
  | some .enc => fetchEnc c s'
  | some .dec => fetchDec c s'
  | some (.line w) => fetchLine w s'

/-- The next turn is ENC's, and its phase is the given one, with no response to make. -/
def presentEnc (p : EncPhase) (s : State) : State :=
  { s with enc := { s.enc with phase := p, rspDue := false }, turns := s.turns.next .enc }

/-- The next turn is DEC's, and its phase is the given one, with no response and no event to make. -/
def presentDec (p : DecPhase) (s : State) : State :=
  { s with dec := { s.dec with phase := p, rspDue := false, refused := false }, turns := s.turns.next .dec }

/-- DEC with a payload byte to deliver, or without one, as the selector of phase STREAM says (R115). -/
def withMore (more : Bool) (s : State) : State :=
  if more then
    { s with dec := { s.dec with
      idx := if s.dec.idx.toNat < 224 then s.dec.idx else 18#9
      rem := if s.dec.rem.toNat = 0 then 1#16 else s.dec.rem } }
  else if s.dec.more then { s with dec := { s.dec with rem := 0#16 } }
  else s

/-- DEC where the rule of its step makes the given event: in STREAM with that header and nothing outstanding (R206), or
with a byte that SNK has refused (R207). -/
def presentEvent (valid : Bool) (h : PacketHeader) (s : State) : State :=
  let d := withMore (!valid) { s with dec := { s.dec with hdr := h } }
  { d with
    dec := { d.dec with phase := .stream, rem := if valid then 0#16 else d.dec.rem, rspDue := false, refused := !valid }
    turns := s.turns.next .dec }

/-- An operation is put where the next step finds it: a phase-selected one in the control registers, an event in DEC's
registers, every other as a word that the environment presents next. Nothing else changes (DESIGN CHOICE, assumption
log 8). -/
def present (w : OpWord) (s : State) : State :=
  match decode w with
  | .ok .eBuild => presentEnc .build s
  | .ok .eFill => presentEnc .fill s
  | .ok .eParity => presentEnc .parity s
  | .ok .eEmit => presentEnc .emit s
  | .ok .dSync => presentDec .sync s
  | .ok .dBody => presentDec .body s
  | .ok .dValidate => presentDec .validate s
  | .ok .dDispatchHdr =>
    presentDec .dispatch { s with dec := { s.dec with mode := .awaitingHeader } }
  | .ok .dDispatchData =>
    presentDec .dispatch { s with dec := { s.dec with mode := .awaitingData } }
  | .ok .dStream => presentDec .stream (withMore true s)
  | .ok .dStreamEnd => presentDec .stream (withMore false s)
  | .ok (.evtPacket valid h) => presentEvent valid h s
  | _ => { s with turns := s.turns.next (.line w) }

end Sys2Proof.Machine
end

