-- ==== Sys2Proof/Machine/Step.lean ====
section
/-! DEFINITION. One step of the machine (R7, R74, R75): the next word is found, decoded, and its operation happens. -/

namespace Sys2Proof.Machine

/-- One step. A wait is a step that changes nothing of PRCORE (R73, R289). A word that presents no operation selects
none (assumption log 17). -/
def step (s : State) : Host.Outcome State Fault Refusal :=
  match fetch Config.given s with
  | .noOp s' => .next s'
  | .word w s' =>
    match decode w with
    | .ok i => exec i s'
    | .error _ => .next (noOperation w s')

/-- The operation of a row of the opcode table, put where `step` finds its next one (DESIGN CHOICE, assumption logs 8 and 9). -/
def State.withFetchWord (s : State) (nbits w : Nat) : State := present (tableWord nbits w) s

end Sys2Proof.Machine
end

