-- ==== Sys2Proof/Machine/Reference.lean ====
section
/-! DEFINITION. The functions the spec derives from the step rules: `sync_find` (R147), the frame count (R170), the
wire image of a command (R169), and the decoder as a function (R214). The machine does not call them; statements
compare it with them. -/

namespace Sys2Proof.Machine

/-- The scanner over a byte string from a state and a position: the position behind the first match, and what is
left of the string there. -/
def syncFrom : Scan → Nat → List Byte → Option (Nat × List Byte)
  | _, _, [] => none
  | t, n, b :: bs =>
    match scan t b with
    | .matched => some (n + 1, bs)
    | .stay t' => syncFrom t' (n + 1) bs

/-- `sync_find` (R147): the index of the first body byte of the first frame found. -/
def syncFind (bytes : List Byte) : Option Nat := (syncFrom .hunt 0 bytes).map Prod.fst

/-- R170: the number of frames of a command, from its `length`. -/
def frameCount (len : Nat) : Nat := (len + 219) / 220

/-- R169: the string that the frames of a packet carry, the secondary header and then the payload. -/
def packetString (c : Config) (h : PacketHeader) (payload : List Byte) : List Byte :=
  pktHdrBytes c.protocolVersion h ++ payload

/-- The 220 bytes of a data region: what there is to carry, and `0x00` behind it (R105, R169). -/
def region (bytes : List Byte) : List Byte :=
  bytes.take dataRegionSize ++ List.replicate (dataRegionSize - bytes.length) 0x00#8

/-- R106, R169: the frame of a version, a sequence number and a data region, with the parity of the three. -/
def frameWith (c : Config) (seq : Half) (data : List Byte) : Frame where
  version := c.protocolVersion
  seq := seq
  data := data
  parity :=
    List.ofFn (c.fecEncode fun i => (c.protocolVersion :: be16 seq ++ data).getD i.val 0x00#8)

/-- R169: the frames that carry a string, `n` of them, numbered upward from `seq`. -/
def framesOf (c : Config) : Nat → Half → List Byte → List Frame
  | 0, _, _ => []
  | n + 1, seq, d =>
    frameWith c seq (region d) :: framesOf c n (seq + 1#16) (d.drop dataRegionSize)

/-- `frames(h, p, s)` (R169). -/
def frames (c : Config) (h : PacketHeader) (payload : List Byte) (seq : Half) : List Frame :=
  framesOf c (frameCount h.len.toNat) seq (packetString c h payload)

/-- R169: the wire bytes of frames, one after another. -/
def wireImage (fs : List Frame) : List Byte := (fs.map frameBytes).flatten

/-- What DEC has produced, and what it carries from frame to frame (R214): the bytes the sink took, the events, and
the reassembly state, where `some (h, r)` awaits `r` more bytes of the packet of header `h`. -/
structure Decoded where
  sunk : List Byte
  events : List Event
  awaiting : Option (PacketHeader × Nat)
deriving DecidableEq, Repr, Inhabited

/-- Bytes offered to a sink that answers as listed and `true` after that: the bytes it took, the answers left, and
whether it took them all (R205, R207). -/
def deliver : List Bool → List Byte → List Byte × List Bool × Bool
  | answers, [] => ([], answers, true)
  | [], bs => (bs, [], true)
  | false :: answers, _ :: _ => ([], answers, false)
  | true :: answers, b :: bs =>
    let r := deliver answers bs
    (b :: r.1, r.2)

/-- The payload part of a frame delivered, and the packet closed or continued (R205, R206, R207). -/
def reassemble (d : Decoded) (sink : List Bool) (h : PacketHeader) (rem : Nat) (part : List Byte) :
    Decoded × List Bool :=
  let r := deliver sink (part.take rem)
  let sunk := d.sunk ++ r.1
  if r.2.2 then
    if rem ≤ part.length then (⟨sunk, d.events ++ [⟨h, true⟩], none⟩, r.2.1)
    else (⟨sunk, d.events, some (h, rem - part.length)⟩, r.2.1)
  else (⟨sunk, d.events ++ [⟨h, false⟩], none⟩, r.2.1)

/-- The data region of one validated frame taken in (R203, R204, R208, R214). -/
def takeRegion (d : Decoded) (sink : List Bool) (g : List Byte) : Decoded × List Bool :=
  match d.awaiting with
  | some (h, rem) => reassemble d sink h rem g
  | none =>
    match headerOf ((g.drop 1).take 13) with
    | none => (d, sink)
    | some h =>
      if h.len.toNat < 14 then (⟨d.sunk, d.events ++ [⟨h, false⟩], none⟩, sink)
      else reassemble d sink h (h.len.toNat - 14) (g.drop 14)

/-- The decoder over a finite RX content followed by `None` (R214). The fuel bounds the number of frames; a frame
consumes 257 bytes, so one more than the number of bytes is enough. -/
def decodeFrames (c : Config) : Nat → Decoded → List Bool → List Byte → Decoded × DecStatus
  | 0, d, _, _ => (d, .endEosSync)
  | fuel + 1, d, sink, bytes =>
    match syncFrom .hunt 0 bytes with
    | none => (d, .endEosSync)
    | some (_, body) =>
      if body.length < fecCwSize then (d, .endEosBody)
      else
        match c.fecDecode fun j => body.getD j.val 0x00#8 with
        | none => (d, .endFec)
        | some m =>
          if m 0 = c.protocolVersion then
            let r := takeRegion d sink ((List.ofFn m).drop 3)
            decodeFrames c fuel r.1 r.2 (body.drop fecCwSize)
          else (d, .endVersion)

/-- `decode(bytes, sink)` (R214): a session from its start. -/
def decodeSession (c : Config) (bytes : List Byte) (sink : List Bool) : Decoded × DecStatus :=
  decodeFrames c (bytes.length + 1) ⟨[], [], none⟩ sink bytes

end Sys2Proof.Machine
end

