-- ==== Sys2Proof/Machine/Script.lean ====
section
/-! DEFINITION. The scenario notation of R114 as settings of the environment: what SRC, TX, RX and SNK answer, a
command offered by the host, and the pseudo-operations `ENC.SEND` and `LOOPBACK`. -/

namespace Sys2Proof.Machine

/-- `[b0 b1 ...] then None` (R114). -/
def bytesThenNone (bytes : List Byte) : Channel (Option Byte) :=
  ⟨bytes.map fun b => some (some b), .always (some none)⟩

/-- `accept all` (R114). -/
def acceptAll : Channel Bool := ⟨[], .always (some true)⟩

/-- `fail at n` (R114): the n-th write, counted from 0, is answered `false`, every other one `true`. -/
def failAt (n : Nat) : Channel Bool :=
  ⟨List.replicate n (some true) ++ [some false], .always (some true)⟩

/-- A channel that is always ready. -/
def alwaysReady : Channel Unit := ⟨[], .always (some ())⟩

/-- The response and event channels are always ready, and one agent alone acts. -/
def runOnly (t : Turn) (s : State) : State :=
  { s with
    evt := alwaysReady
    encRsp := alwaysReady
    decRsp := alwaysReady
    turns := ⟨[], .always (some t)⟩ }

/-- `ENC.ENCODE` (R114): the host offers one command. -/
def offer (h : PacketHeader) (s : State) : State := { s with encCmd := s.encCmd ++ [h] }

/-- `DEC.DECODE` (R114): the host offers one command. -/
def offerSession (s : State) : State := { s with decCmd := s.decCmd + 1 }

/-- `ENC.SEND pid lat lon alt [payload]` (R114). -/
def send (pid : Byte) (lat lon : Quad) (alt : Half) (payload : List Byte) (s : State) : State :=
  offer ⟨pid, BitVec.ofNat 16 (payload.length + 14), lat, lon, alt⟩
    { s with src := bytesThenNone payload }

/-- `LOOPBACK` (R114): RX answers the bytes TX accepted, in order, then `None`. -/
def loopback (s : State) : State := { s with rx := bytesThenNone s.wire }

end Sys2Proof.Machine
end

