-- ==== Sys2Proof/Safety.lean ====
section
/-! DEFINITION. What claims about PRCORE are stated in: the ranges of R41 and an invariant that implies them, runs of
several steps, the two agents' sides of the state (R20, R75), and when two states differ only in registers that are
written before they are read (R40). -/

namespace Sys2Proof.Machine

/-! What the environment answers now; `none` while a channel is not ready (R73) -/

/-- Whose turn it is. -/
abbrev State.turnNow (s : State) : Option Turn := s.turns.peek Config.given.turnDraw
/-- The answer of SRC. -/
abbrev State.srcNow (s : State) : Option (Option Byte) := s.src.peek Config.given.srcDraw
/-- The answer of TX. -/
abbrev State.txNow (s : State) : Option Bool := s.tx.peek Config.given.txDraw
/-- The answer of RX. -/
abbrev State.rxNow (s : State) : Option (Option Byte) := s.rx.peek Config.given.rxDraw
/-- The answer of SNK. -/
abbrev State.snkNow (s : State) : Option Bool := s.snk.peek Config.given.snkDraw
/-- EVT is ready. -/
abbrev State.evtReady (s : State) : Prop := s.evt.peek Config.given.evtDraw = some ()
/-- `ENC.RSP` is ready. -/
abbrev State.encRspReady (s : State) : Prop := s.encRsp.peek Config.given.encRspDraw = some ()
/-- `DEC.RSP` is ready. -/
abbrev State.decRspReady (s : State) : Prop := s.decRsp.peek Config.given.decRspDraw = some ()

/-- The frame header stands in the buffer (R102), with the number before the counter's (R161). -/
def Enc.headed (c : Config) (e : Enc) : Prop :=
  Memory.read e.fbuf 0 = syncContByte ∧ Memory.read e.fbuf 1 = c.protocolVersion ∧
    Memory.read16 e.fbuf 2 + 1#16 = e.seq

/-- What holds of ENC at every moment. The sums say how much of the packet string (R108, R169) the frames written,
the buffer and the bytes still to pull make up. -/
structure EncInv (c : Config) (e : Enc) : Prop where
  canonical : Memory.wf e.fbuf = true
  todoRange : e.todo.toNat ≤ 65521
  countRange : e.count.toNat ≤ 298
  pending : e.phase ≠ .idle → e.res.status = .none
  answered : e.rspDue = true → e.phase = .idle ∧ e.res.status ≠ .none
  atBuild : e.phase = .build →
    220 * e.count.toNat + (if e.first then 14 else 0) + e.todo.toNat = e.hdr.len.toNat ∧
      (e.first = false → 0 < e.todo.toNat)
  atFill : e.phase = .fill →
    e.headed c ∧ e.first = false ∧ 4 ≤ e.idx.toNat ∧ e.idx.toNat ≤ 224 ∧ (4 < e.idx.toNat ∨ 0 < e.todo.toNat) ∧
      220 * e.count.toNat + (e.idx.toNat - 4) + e.todo.toNat = e.hdr.len.toNat
  atParity : e.phase = .parity →
    e.headed c ∧ e.first = false ∧ 4 < e.idx.toNat ∧ e.idx.toNat ≤ 224 ∧ (e.idx.toNat = 224 ∨ e.todo.toNat = 0) ∧
      220 * e.count.toNat + (e.idx.toNat - 4) + e.todo.toNat = e.hdr.len.toNat
  atEmit : e.phase = .emit →
    e.headed c ∧ e.first = false ∧ e.idx.toNat ≤ 256 ∧
      (0 < e.todo.toNat → 220 * (e.count.toNat + 1) + e.todo.toNat = e.hdr.len.toNat) ∧
      (e.todo.toNat = 0 → 220 * e.count.toNat < e.hdr.len.toNat ∧ e.hdr.len.toNat ≤ 220 * (e.count.toNat + 1))

/-- What holds of DEC at every moment. -/
structure DecInv (c : Config) (d : Dec) : Prop where
  canonical : Memory.wf d.fbuf = true
  remRange : d.rem.toNat ≤ 65521
  bodyIdx : d.phase = .body → 1 ≤ d.idx.toNat ∧ d.idx.toNat ≤ 255
  streamIdx : d.phase = .stream → 4 ≤ d.idx.toNat ∧ d.idx.toNat ≤ 224
  unfinished : d.mode = .awaitingData → d.phase ≠ .stream → 1 ≤ d.rem.toNat
  idleStatus : d.phase = .idle ↔ d.status ≠ .running
  answered : d.rspDue = true → d.phase = .idle ∧ d.status ≠ .none
  held : d.refused = true → d.phase = .stream ∧ d.more
  inFrame : d.phase ≠ .idle → d.phase ≠ .sync → d.scan = .hunt ∧ Memory.read d.fbuf 0 = syncContByte
  version : d.phase = .dispatch ∨ d.phase = .stream → Memory.read d.fbuf 1 = c.protocolVersion
  declared : d.mode = .awaitingData ∨ d.phase = .stream → d.rem.toNat + 14 ≤ d.hdr.len.toNat

/-- The invariant of the machine. -/
def Inv (c : Config) (s : State) : Prop := EncInv c s.enc ∧ DecInv c s.dec

/-- The ranges of R41; `DEC.IDX` is at most 256 after a `D.BODY` step. -/
def RangesOfR41 (s : State) : Prop :=
  (s.enc.phase = .fill → 4 ≤ s.enc.idx.toNat ∧ s.enc.idx.toNat ≤ 224) ∧
  (s.enc.phase = .emit → s.enc.idx.toNat ≤ 256) ∧
  s.enc.count.toNat ≤ 298 ∧
  s.enc.todo.toNat ≤ 65521 ∧
  (s.dec.phase = .body → 1 ≤ s.dec.idx.toNat ∧ s.dec.idx.toNat ≤ 255) ∧
  (∀ t, exec .dBody s = .next t → t.dec.idx.toNat ≤ 256) ∧
  (s.dec.phase = .stream → 4 ≤ s.dec.idx.toNat ∧ s.dec.idx.toNat ≤ 224) ∧
  s.dec.rem.toNat ≤ 65521 ∧
  (s.dec.mode = .awaitingData → s.dec.phase ≠ .stream → 1 ≤ s.dec.rem.toNat) ∧
  (s.dec.phase = .idle → s.dec.status ≠ .running) ∧
  (s.dec.phase ≠ .idle → s.dec.status = .running)

/-- `k` steps of the machine, stopping at the first fault or refusal. -/
def run (k : Nat) (s : State) : Host.Outcome State Fault Refusal := Host.Core.run Sys2Proof.core k s

/-- ENC's side of the state: its registers and its channels (R20, R75). -/
structure EncSide where
  enc : Enc
  src : Channel (Option Byte)
  tx : Channel Bool
  wire : List Byte
  encCmd : List PacketHeader
  encRsp : Channel Unit
  encRsps : List EncRes
  encResets : Nat
deriving DecidableEq, Repr

/-- DEC's side of the state: its registers and its channels (R20, R75). -/
structure DecSide where
  dec : Dec
  rx : Channel (Option Byte)
  snk : Channel Bool
  sunk : List Byte
  evt : Channel Unit
  events : List Event
  decCmd : Nat
  decRsp : Channel Unit
  decRsps : List DecStatus
  decResets : Nat
deriving DecidableEq, Repr

def State.encSide (s : State) : EncSide :=
  ⟨s.enc, s.src, s.tx, s.wire, s.encCmd, s.encRsp, s.encRsps, s.encResets⟩

def State.decSide (s : State) : DecSide :=
  ⟨s.dec, s.rx, s.snk, s.sunk, s.evt, s.events, s.decCmd, s.decRsp, s.decRsps, s.decResets⟩

/-- The operations of ENC; all others are DEC's. -/
def isEncOp : Instr → Bool
  | .encode _ => true
  | .decodeStream => false
  | .encReset => true
  | .decReset => false
  | .eBuild => true
  | .eFill => true
  | .eParity => true
  | .eEmit => true
  | .dSync => false
  | .dBody => false
  | .dValidate => false
  | .dDispatchHdr => false
  | .dDispatchData => false
  | .dStream => false
  | .dStreamEnd => false
  | .syncPrefix => false
  | .syncCont => false
  | .frameHdr _ _ => false
  | .pktHdr _ _ => false
  | .frame _ => false
  | .evtPacket _ _ => false

/-- An outcome seen through a view of the state. -/
def view {α : Type} (f : State → α) : Host.Outcome State Fault Refusal → Host.Outcome α Fault Refusal
  | .next s => .next (f s)
  | .fault r => .fault r
  | .refused r => .refused r

/-- Two buffers read the same below an index. -/
def sameBelow (n : Nat) (m m' : Memory) : Prop := ∀ a, a < n → Memory.read m a = Memory.read m' a

/-- Two contents of ENC's registers that differ at most where the register is written before it is read (R40). -/
def Enc.alike (e e' : Enc) : Prop :=
  e.phase = e'.phase ∧ e.seq = e'.seq ∧ e.res = e'.res ∧ e.rspDue = e'.rspDue ∧
  (e.phase ≠ .idle →
    e.todo = e'.todo ∧ e.count = e'.count ∧ e.first = e'.first ∧ (e.first = true → e.hdr = e'.hdr)) ∧
  (e.phase = .fill ∨ e.phase = .emit → e.idx = e'.idx ∧ sameBelow 256 e.fbuf e'.fbuf) ∧
  (e.phase = .parity → sameBelow 224 e.fbuf e'.fbuf)

/-- Two contents of DEC's registers that differ at most where the register is written before it is read (R40). -/
def Dec.alike (d d' : Dec) : Prop :=
  d.phase = d'.phase ∧ d.mode = d'.mode ∧ d.scan = d'.scan ∧ d.status = d'.status ∧ d.rspDue = d'.rspDue ∧
  d.refused = d'.refused ∧
  (d.phase ≠ .idle → d.mode = .awaitingData → d.rem = d'.rem ∧ d.hdr = d'.hdr) ∧
  (d.phase = .body → d.idx = d'.idx ∧ sameBelow d.idx.toNat d.fbuf d'.fbuf) ∧
  (d.phase = .validate → sameBelow 256 d.fbuf d'.fbuf) ∧
  (d.phase = .dispatch → sameBelow 224 d.fbuf d'.fbuf) ∧
  (d.phase = .stream →
    d.idx = d'.idx ∧ d.rem = d'.rem ∧ d.hdr = d'.hdr ∧ sameBelow 224 d.fbuf d'.fbuf)

/-- Two states that differ at most in registers that are written before they are read. -/
def alike (s t : State) : Prop :=
  Enc.alike s.enc t.enc ∧ Dec.alike s.dec t.dec ∧ { s with enc := t.enc, dec := t.dec } = t

end Sys2Proof.Machine
end

