-- ==== Sys2Proof/Certificates/Slice0/Obligations.lean ====
section
/-! DEFINITION. The statements for the provers: what each operation of PRCORE does and leaves alone, the invariants
and isolation of the machine, and the laws of whole commands, frames and sessions. -/

open Sys2Proof Sys2Proof.Machine

/-! ## Words and operations -/

/-- R101 to R103, R111, R115: words written out from their encodings decode to their operations. That a phase code
stands in one byte, that the codes 8 and 9 are the code of DISPATCH followed by the mode bit, and that the word of
`ENC.CMD` (R110) is 13 bytes, are the model's choices (assumption logs 9 and 19). -/
def Obligations.KnownWordsDecode : Prop :=
  decode ⟨.encPhase, [0b00000001#8]⟩ = .ok .eBuild ∧
  decode ⟨.encPhase, [0b00000100#8]⟩ = .ok .eEmit ∧
  decode ⟨.encPhase, [0b00000101#8]⟩ = .error .encPhaseCode ∧
  decode ⟨.decPhase false, [0b00000001#8]⟩ = .ok .dSync ∧
  decode ⟨.decPhase false, [0b00001000#8]⟩ = .ok .dDispatchHdr ∧
  decode ⟨.decPhase false, [0b00001001#8]⟩ = .ok .dDispatchData ∧
  decode ⟨.decPhase true, [0b00000101#8]⟩ = .ok .dStream ∧
  decode ⟨.decPhase false, [0b00000101#8]⟩ = .ok .dStreamEnd ∧
  decode ⟨.wire, [0b10101010#8]⟩ = .ok .syncPrefix ∧
  decode ⟨.wire, [0b01011010#8]⟩ = .ok .syncCont ∧
  decode ⟨.wire, [0x5A#8, 0x01#8, 0x12#8, 0x34#8]⟩ = .ok (.frameHdr 0x01#8 0x1234#16) ∧
  decode ⟨.encCmd, [0x07#8, 0x00#8, 0x11#8, 0xFF#8, 0xFF#8, 0xFF#8, 0xFF#8, 0x00#8, 0x00#8, 0x00#8, 0x01#8,
    0x12#8, 0x34#8]⟩ = .ok (.encode ⟨0x07#8, 17#16, 0xFFFFFFFF#32, 1#32, 0x1234#16⟩)

/-- R101 to R103, R110, R111, R113: every well-formed operation is read back from the word that presents it, at every
value of its operands. -/
def Obligations.DecodeOfEncode : Prop :=
  ∀ i : Instr, i.wellFormed = true → decode (encode i) = .ok i

/-- A word has one meaning: an operation read from a word is well formed, and its own word is that word again, but for
the condition that tells `D.STREAM` from `D.STREAM.END` and is of no account in the other phases. -/
def Obligations.EncodeOfDecode : Prop :=
  ∀ (w : OpWord) (i : Instr), decode w = .ok i →
    i.wellFormed = true ∧ (encode i).bytes = w.bytes ∧
      ((encode i).sel = w.sel ∨ ∃ a b, w.sel = .decPhase a ∧ (encode i).sel = .decPhase b)

/-- A step runs the operation of the word that the fetch finds, in the state the fetch leaves: the turn is past, and a
command that was taken no longer waits. The environment's turns and the waiting commands are the model's own fields
(assumption logs 2 and 13). -/
def Obligations.StepRunsDecodedOperation : Prop :=
  ∀ (s t : State) (w : OpWord) (i : Instr),
    fetch Config.given s = .word w t → decode w = .ok i →
      step s = exec i t ∧ ∃ cmds n, t = { s with turns := s.turns.pop, encCmd := cmds, decCmd := n }

/-- R25, R111, R115: on ENC's turn `ENC.PHASE` selects the step. That turns are drawn, and that a waiting command is
taken on an idle agent's turn once the last command is answered, the first of those that wait, is the model's choice
(assumption logs 2, 12 and 13). -/
def Obligations.EncPhaseSelectsStep : Prop :=
  ∀ s : State, s.turnNow = some .enc →
    (s.enc.phase = .build → step s = exec .eBuild { s with turns := s.turns.pop }) ∧
    (s.enc.phase = .fill → step s = exec .eFill { s with turns := s.turns.pop }) ∧
    (s.enc.phase = .parity → step s = exec .eParity { s with turns := s.turns.pop }) ∧
    (s.enc.phase = .emit → step s = exec .eEmit { s with turns := s.turns.pop }) ∧
    (s.enc.phase = .idle → s.enc.rspDue = false → s.encCmd = [] → step s = .next { s with turns := s.turns.pop }) ∧
    (∀ h hs, s.enc.phase = .idle → s.enc.rspDue = false → s.encCmd = h :: hs →
      step s = exec (.encode h) { s with turns := s.turns.pop, encCmd := hs })

/-- R30, R111, R115: on DEC's turn `DEC.PHASE`, in DISPATCH with `DEC.MODE`, and in STREAM with the condition on
`DEC.IDX` and `DEC.REM`, selects the step. That turns are drawn, and that a waiting command is taken on an idle agent's
turn once the last session is answered, is the model's choice (assumption logs 2, 12 and 13). -/
def Obligations.DecPhaseSelectsStep : Prop :=
  ∀ s : State, s.turnNow = some .dec →
    (s.dec.phase = .sync → step s = exec .dSync { s with turns := s.turns.pop }) ∧
    (s.dec.phase = .body → step s = exec .dBody { s with turns := s.turns.pop }) ∧
    (s.dec.phase = .validate → step s = exec .dValidate { s with turns := s.turns.pop }) ∧
    (s.dec.phase = .dispatch → s.dec.mode = .awaitingHeader →
      step s = exec .dDispatchHdr { s with turns := s.turns.pop }) ∧
    (s.dec.phase = .dispatch → s.dec.mode = .awaitingData →
      step s = exec .dDispatchData { s with turns := s.turns.pop }) ∧
    (s.dec.phase = .stream → s.dec.idx.toNat < 224 ∧ 0 < s.dec.rem.toNat →
      step s = exec .dStream { s with turns := s.turns.pop }) ∧
    (s.dec.phase = .stream → ¬ (s.dec.idx.toNat < 224 ∧ 0 < s.dec.rem.toNat) →
      step s = exec .dStreamEnd { s with turns := s.turns.pop }) ∧
    (s.dec.phase = .idle → s.dec.rspDue = false → s.decCmd = 0 → step s = .next { s with turns := s.turns.pop }) ∧
    (∀ n, s.dec.phase = .idle → s.dec.rspDue = false → s.decCmd = n + 1 →
      step s = exec .decodeStream { s with turns := s.turns.pop, decCmd := n })

/-- The model's choice (assumption logs 14 and 15): a step operation asked for in a phase that does not select it is
refused by name, so is an event word that is not the event DEC's step makes, and an index register that points at no
byte of the buffer is a fault by name. -/
def Obligations.UnselectedStepsStop : Prop :=
  ∀ s : State,
    (s.enc.phase ≠ .build → exec .eBuild s = .refused .notSelected) ∧
    (s.enc.phase ≠ .fill → exec .eFill s = .refused .notSelected) ∧
    (s.enc.phase ≠ .parity → exec .eParity s = .refused .notSelected) ∧
    (s.enc.phase ≠ .emit → exec .eEmit s = .refused .notSelected) ∧
    (s.dec.phase ≠ .sync → exec .dSync s = .refused .notSelected) ∧
    (s.dec.phase ≠ .body → exec .dBody s = .refused .notSelected) ∧
    (s.dec.phase ≠ .validate → exec .dValidate s = .refused .notSelected) ∧
    (¬ (s.dec.phase = .dispatch ∧ s.dec.mode = .awaitingHeader) →
      exec .dDispatchHdr s = .refused .notSelected) ∧
    (¬ (s.dec.phase = .dispatch ∧ s.dec.mode = .awaitingData) →
      exec .dDispatchData s = .refused .notSelected) ∧
    (¬ (s.dec.phase = .stream ∧ s.dec.idx.toNat < 224 ∧ 0 < s.dec.rem.toNat) →
      exec .dStream s = .refused .notSelected) ∧
    (¬ (s.dec.phase = .stream ∧ ¬ (s.dec.idx.toNat < 224 ∧ 0 < s.dec.rem.toNat)) →
      exec .dStreamEnd s = .refused .notSelected) ∧
    (∀ valid h, s.dec.eventNow ≠ some ⟨h, valid⟩ → exec (.evtPacket valid h) s = .refused .notSelected) ∧
    (s.enc.phase = .emit → 256 < s.enc.idx.toNat →
      exec .eEmit s = .fault (.noSuchByte (s.enc.idx.toNat - 1))) ∧
    (s.dec.phase = .body → 255 < s.dec.idx.toNat →
      exec .dBody s = .fault (.noSuchByte s.dec.idx.toNat))

/-! ## Reset and the commands -/

/-- R40, R311: the values that the spec gives for reset; both agents idle. -/
def Obligations.ResetValues : Prop :=
  State.reset.enc.seq = Config.given.seqInit ∧
  State.reset.enc.phase = .idle ∧
  State.reset.enc.res = ⟨.none, 0⟩ ∧
  State.reset.dec.mode = .awaitingHeader ∧
  State.reset.dec.phase = .idle ∧
  State.reset.dec.scan = .hunt ∧
  State.reset.dec.status = .none

/-- R160, R273: `ENCODE` in IDLE with length 0 and with a refused length, which are over at once, and with a legal
length; outside IDLE the command is not accepted and waits. That the response of a command is a transaction of its own,
and that a command waits behind those that wait and until the last response is made, is the model's choice (assumption
logs 12 and 13). -/
def Obligations.EncodeCommand : Prop :=
  ∀ (h : PacketHeader) (s : State),
    (s.enc.phase = .idle → s.enc.rspDue = false → h.len.toNat = 0 →
      exec (.encode h) s = .next { s with enc := { s.enc with hdr := h, res := ⟨.ok, 0⟩, rspDue := true } }) ∧
    (s.enc.phase = .idle → s.enc.rspDue = false → 1 ≤ h.len.toNat → h.len.toNat ≤ 13 →
      exec (.encode h) s = .next { s with enc := { s.enc with hdr := h, res := ⟨.errLen, 0⟩, rspDue := true } }) ∧
    (s.enc.phase = .idle → s.enc.rspDue = false → 14 ≤ h.len.toNat →
      ∃ todo : Half, todo.toNat = h.len.toNat - 14 ∧
        exec (.encode h) s = .next { s with
          enc := { s.enc with
            hdr := h, res := ⟨.none, 0⟩, todo := todo, first := true, count := 0, phase := .build } }) ∧
    (s.enc.phase ≠ .idle ∨ s.enc.rspDue = true →
      exec (.encode h) s = .next { s with encCmd := s.encCmd ++ [h] })

/-- R200: `DECODE_STREAM` starts a session in IDLE, whatever the last session left, and waits otherwise. That it waits
until the response of the last session is made is the model's choice (assumption logs 12 and 13). -/
def Obligations.DecodeStreamCommand : Prop :=
  ∀ s : State,
    (s.dec.phase = .idle → s.dec.rspDue = false →
      exec .decodeStream s = .next { s with
        dec := { s.dec with mode := .awaitingHeader, scan := .hunt, status := .running, phase := .sync } }) ∧
    (s.dec.phase ≠ .idle ∨ s.dec.rspDue = true →
      exec .decodeStream s = .next { s with decCmd := s.decCmd + 1 })

/-- R310: each reset, at any time and from any phase, gives its agent the stated values, whatever it does to the
agent's other registers, and touches nothing else: no response and no event is made or still to be made, the other agent
and everything transferred as before. `ENC.RESET` alone sets `ENC.SEQ` back: every other operation leaves it or advances
it. That the waiting commands and the channels are left alone is the model's choice (assumption log 20). -/
def Obligations.ResetEffects : Prop :=
  ∀ s : State,
    (∃ e : Enc, exec .encReset s = .next { s with enc := e, encResets := s.encResets + 1 } ∧
      e.seq = Config.given.seqInit ∧ e.phase = .idle ∧ e.res = ⟨.none, 0⟩ ∧ e.rspDue = false) ∧
    (∃ d : Dec, exec .decReset s = .next { s with dec := d, decResets := s.decResets + 1 } ∧
      d.mode = .awaitingHeader ∧ d.scan = .hunt ∧ d.phase = .idle ∧ d.status = .none ∧
      d.rspDue = false ∧ d.refused = false) ∧
    (∀ (i : Instr) (t : State), exec i s = .next t →
      i = .encReset ∨ t.enc.seq = s.enc.seq ∨ t.enc.seq = s.enc.seq + 1#16)

/-! ## The steps of ENC -/

/-- R161: `E.BUILD` writes the whole buffer (the frame header with the counter's value before the increment, in a
first frame the secondary header, `0x00` elsewhere), advances the counter modulo 65536, and changes nothing else but
`ENC.IDX`, `ENC.FIRST` and `ENC.PHASE`. -/
def Obligations.BuildStep : Prop :=
  ∀ s : State, s.enc.phase = .build →
    ∃ m : Memory,
      exec .eBuild s = .next { s with
        enc := { s.enc with
          fbuf := m
          seq := s.enc.seq + 1#16
          idx := if s.enc.first = true then 18#9 else 4#9
          first := false
          phase := .fill } } ∧
      Memory.read m 0 = 0x5A#8 ∧
      Memory.read m 1 = Config.given.protocolVersion ∧
      Memory.read m 2 = s.enc.seq.extractLsb' 8 8 ∧
      Memory.read m 3 = s.enc.seq.extractLsb' 0 8 ∧
      (s.enc.first = true →
        Memory.readBytes m 4 14 =
          [Config.given.protocolVersion, s.enc.hdr.pid,
           s.enc.hdr.len.extractLsb' 8 8, s.enc.hdr.len.extractLsb' 0 8,
           s.enc.hdr.lat.extractLsb' 24 8, s.enc.hdr.lat.extractLsb' 16 8,
           s.enc.hdr.lat.extractLsb' 8 8, s.enc.hdr.lat.extractLsb' 0 8,
           s.enc.hdr.lon.extractLsb' 24 8, s.enc.hdr.lon.extractLsb' 16 8,
           s.enc.hdr.lon.extractLsb' 8 8, s.enc.hdr.lon.extractLsb' 0 8,
           s.enc.hdr.alt.extractLsb' 8 8, s.enc.hdr.alt.extractLsb' 0 8]) ∧
      (∀ a, (if s.enc.first = true then 18 else 4) ≤ a → Memory.read m a = 0x00#8)

/-- R162, R271: `E.FILL` pulls one payload byte into `FBUF[ENC.IDX]`, or goes on to PARITY when the region is full or
the packet exhausted, or ends the command on `None`; nothing else changes. The response is the next transaction
(assumption log 12). -/
def Obligations.FillStep : Prop :=
  ∀ s : State, s.enc.phase = .fill →
    (¬ (s.enc.idx.toNat < 224 ∧ 0 < s.enc.todo.toNat) →
      exec .eFill s = .next { s with enc := { s.enc with phase := .parity } }) ∧
    (s.enc.idx.toNat < 224 ∧ 0 < s.enc.todo.toNat →
      (∀ b, s.srcNow = some (some b) →
        ∃ m : Memory,
          exec .eFill s = .next { s with
            src := s.src.pop
            enc := { s.enc with fbuf := m, idx := s.enc.idx + 1#9, todo := s.enc.todo - 1#16 } } ∧
          ∀ a, Memory.read m a = if a = s.enc.idx.toNat then b else Memory.read s.enc.fbuf a) ∧
      (s.srcNow = some none →
        exec .eFill s = .next { s with
          src := s.src.pop
          enc := { s.enc with res := ⟨.errSrc, s.enc.count⟩, phase := .idle, rspDue := true } }))

/-- R163, R251: `E.PARITY` writes the parity of the message `FBUF[1..223]` to `FBUF[224..255]` and no other byte. -/
def Obligations.ParityStep : Prop :=
  ∀ s : State, s.enc.phase = .parity →
    ∃ m : Memory,
      exec .eParity s = .next { s with enc := { s.enc with fbuf := m, idx := 0#9, phase := .emit } } ∧
      (∀ k : Fin 32, Memory.read m (224 + k.val) =
        Config.given.fecEncode (fun i => Memory.read s.enc.fbuf (1 + i.val)) k) ∧
      (∀ a, a < 224 ∨ 256 ≤ a → Memory.read m a = Memory.read s.enc.fbuf a)

/-- R164, R272: `E.EMIT` writes the wire byte of `ENC.IDX` to TX; after the last one the frame is counted and the
command ends or the next frame is built; a refused byte ends the command. No byte of memory changes. The response is
the next transaction (assumption log 12). -/
def Obligations.EmitStep : Prop :=
  ∀ s : State, s.enc.phase = .emit → s.enc.idx.toNat ≤ 256 →
    (s.txNow = some true → s.enc.idx.toNat < 256 →
      exec .eEmit s = .next { s with
        tx := s.tx.pop
        wire := s.wire ++
          [if s.enc.idx.toNat = 0 then 0xAA#8 else Memory.read s.enc.fbuf (s.enc.idx.toNat - 1)]
        enc := { s.enc with idx := s.enc.idx + 1#9 } }) ∧
    (s.txNow = some true → s.enc.idx.toNat = 256 → 0 < s.enc.todo.toNat →
      exec .eEmit s = .next { s with
        tx := s.tx.pop
        wire := s.wire ++ [Memory.read s.enc.fbuf 255]
        enc := { s.enc with count := s.enc.count + 1#16, phase := .build } }) ∧
    (s.txNow = some true → s.enc.idx.toNat = 256 → s.enc.todo.toNat = 0 →
      exec .eEmit s = .next { s with
        tx := s.tx.pop
        wire := s.wire ++ [Memory.read s.enc.fbuf 255]
        enc := { s.enc with
          count := s.enc.count + 1#16, res := ⟨.ok, s.enc.count + 1#16⟩, phase := .idle, rspDue := true } }) ∧
    (s.txNow = some false →
      exec .eEmit s = .next { s with
        tx := s.tx.pop
        enc := { s.enc with res := ⟨.errTx, s.enc.count⟩, phase := .idle, rspDue := true } })

/-! ## The steps of DEC -/

/-- R141: the scanner's table. -/
def Obligations.ScannerTable : Prop :=
  ∀ b : Byte,
    (b = 0xAA#8 → scan .hunt b = .stay .gotAA) ∧
    (b ≠ 0xAA#8 → scan .hunt b = .stay .hunt) ∧
    (b = 0x5A#8 → scan .gotAA b = .matched) ∧
    (b = 0xAA#8 → scan .gotAA b = .stay .hunt) ∧
    (b ≠ 0x5A#8 → scan .gotAA b = .stay .hunt)

/-- R142, R274: `D.SYNC` consumes one byte; on a match it writes `0x5A` to `FBUF[0]` and goes on to BODY, otherwise
only `DEC.SCAN` changes; `None` ends the session without an event. The response is the next transaction (assumption
log 12). -/
def Obligations.SyncStep : Prop :=
  ∀ s : State, s.dec.phase = .sync →
    (∀ b, s.rxNow = some (some b) → s.dec.scan = .gotAA → b = 0x5A#8 →
      ∃ m : Memory,
        exec .dSync s = .next { s with
          rx := s.rx.pop
          dec := { s.dec with fbuf := m, idx := 1#9, scan := .hunt, phase := .body } } ∧
        ∀ a, Memory.read m a = if a = 0 then 0x5A#8 else Memory.read s.dec.fbuf a) ∧
    (∀ b, s.rxNow = some (some b) → ¬ (s.dec.scan = .gotAA ∧ b = 0x5A#8) →
      exec .dSync s = .next { s with
        rx := s.rx.pop
        dec := { s.dec with scan := if s.dec.scan = .hunt ∧ b = 0xAA#8 then .gotAA else .hunt } }) ∧
    (s.rxNow = some none →
      exec .dSync s = .next { s with
        rx := s.rx.pop
        dec := { s.dec with status := .endEosSync, phase := .idle, rspDue := true } })

/-- R201, R275: `D.BODY` stores one byte at `FBUF[DEC.IDX]` and goes on to VALIDATE behind index 255; `None` ends the
session without an event. The response is the next transaction (assumption log 12). -/
def Obligations.BodyStep : Prop :=
  ∀ s : State, s.dec.phase = .body → s.dec.idx.toNat ≤ 255 →
    (∀ b, s.rxNow = some (some b) →
      ∃ m : Memory,
        exec .dBody s = .next { s with
          rx := s.rx.pop
          dec := { s.dec with
            fbuf := m
            idx := s.dec.idx + 1#9
            phase := if s.dec.idx.toNat = 255 then .validate else .body } } ∧
        ∀ a, Memory.read m a = if a = s.dec.idx.toNat then b else Memory.read s.dec.fbuf a) ∧
    (s.rxNow = some none →
      exec .dBody s = .next { s with
        rx := s.rx.pop
        dec := { s.dec with status := .endEosBody, phase := .idle, rspDue := true } })

/-- R202, R276, R277: `D.VALIDATE` asks the codec first. An uncorrectable frame ends the session with
the buffer as received; otherwise `FBUF[1..223]` is the corrected message, and its version decides between the end of
the session and DISPATCH with the sequence number recorded. No event is made. The response is the next transaction
(assumption log 12). -/
def Obligations.ValidateStep : Prop :=
  ∀ s : State, s.dec.phase = .validate →
    (Config.given.fecDecode (fun j => Memory.read s.dec.fbuf (1 + j.val)) = none →
      exec .dValidate s = .next { s with
        dec := { s.dec with status := .endFec, phase := .idle, rspDue := true } }) ∧
    (∀ msg, Config.given.fecDecode (fun j => Memory.read s.dec.fbuf (1 + j.val)) = some msg →
      ∃ m : Memory,
        (∀ i : Fin 223, Memory.read m (1 + i.val) = msg i) ∧
        (∀ a, a = 0 ∨ 224 ≤ a → Memory.read m a = Memory.read s.dec.fbuf a) ∧
        (msg 0 = Config.given.protocolVersion →
          exec .dValidate s = .next { s with
            dec := { s.dec with fbuf := m, seqRx := of16 (msg 1) (msg 2), phase := .dispatch } }) ∧
        (msg 0 ≠ Config.given.protocolVersion →
          exec .dValidate s = .next { s with
            dec := { s.dec with fbuf := m, status := .endVersion, phase := .idle, rspDue := true } }))

/-- R203, R208, R279: `D.DISPATCH.HDR` reads the secondary header, ignoring its version byte, and goes on
to STREAM with the payload count, or aborts the packet of a length below 14 with the header as parsed. No byte of
memory changes. `refused` is the model's own field (assumption log 12). -/
def Obligations.DispatchHdrStep : Prop :=
  ∀ (s : State) (h : PacketHeader), s.dec.phase = .dispatch → s.dec.mode = .awaitingHeader →
    h.pid = Memory.read s.dec.fbuf 5 →
    h.len = of16 (Memory.read s.dec.fbuf 6) (Memory.read s.dec.fbuf 7) →
    h.lat = of32 (Memory.read s.dec.fbuf 8) (Memory.read s.dec.fbuf 9) (Memory.read s.dec.fbuf 10)
      (Memory.read s.dec.fbuf 11) →
    h.lon = of32 (Memory.read s.dec.fbuf 12) (Memory.read s.dec.fbuf 13) (Memory.read s.dec.fbuf 14)
      (Memory.read s.dec.fbuf 15) →
    h.alt = of16 (Memory.read s.dec.fbuf 16) (Memory.read s.dec.fbuf 17) →
    (14 ≤ h.len.toNat →
      ∃ rem : Half, rem.toNat = h.len.toNat - 14 ∧
        exec .dDispatchHdr s = .next { s with
          dec := { s.dec with hdr := h, rem := rem, idx := 18#9, phase := .stream } }) ∧
    (h.len.toNat < 14 → s.evtReady →
      exec .dDispatchHdr s = .next { s with
        dec := { s.dec with hdr := h, mode := .awaitingHeader, scan := .hunt, phase := .sync, refused := false }
        evt := s.evt.pop
        events := s.events ++ [⟨h, false⟩] })

/-- R204: `D.DISPATCH.DATA` takes the whole data region as payload; header and count stay. -/
def Obligations.DispatchDataStep : Prop :=
  ∀ s : State, s.dec.phase = .dispatch → s.dec.mode = .awaitingData →
    exec .dDispatchData s = .next { s with dec := { s.dec with idx := 4#9, phase := .stream } }

/-- R205, R207, R278: `D.STREAM` delivers `FBUF[DEC.IDX]` and counts it, or on a refusal aborts the packet with an
event, the count and the index as they were. No byte of memory changes. That the refusal and the event are two
transactions made one after the other, between which DEC is held in STREAM, is the model's reading of R7 and D29
(assumption log 12). -/
def Obligations.StreamStep : Prop :=
  ∀ s : State, s.dec.phase = .stream → s.dec.idx.toNat < 224 → 0 < s.dec.rem.toNat →
    (s.dec.refused = false → s.snkNow = some true →
      exec .dStream s = .next { s with
        snk := s.snk.pop
        sunk := s.sunk ++ [Memory.read s.dec.fbuf s.dec.idx.toNat]
        dec := { s.dec with idx := s.dec.idx + 1#9, rem := s.dec.rem - 1#16 } }) ∧
    (s.dec.refused = false → s.snkNow = some false →
      exec .dStream s = .next { s with snk := s.snk.pop, dec := { s.dec with refused := true } }) ∧
    (s.dec.refused = true → s.evtReady →
      exec .dStream s = .next { s with
        dec := { s.dec with mode := .awaitingHeader, scan := .hunt, phase := .sync, refused := false }
        evt := s.evt.pop
        events := s.events ++ [⟨s.dec.hdr, false⟩] })

/-- R206: `D.STREAM.END` completes the packet with an event when nothing remains, and otherwise awaits the rest in the
next frame. No byte of memory changes. `refused` is the model's own field (assumption log 12). -/
def Obligations.StreamEndStep : Prop :=
  ∀ s : State, s.dec.phase = .stream → ¬ (s.dec.idx.toNat < 224 ∧ 0 < s.dec.rem.toNat) →
    (s.dec.rem.toNat = 0 → s.evtReady →
      exec .dStreamEnd s = .next { s with
        dec := { s.dec with mode := .awaitingHeader, scan := .hunt, phase := .sync, refused := false }
        evt := s.evt.pop
        events := s.events ++ [⟨s.dec.hdr, true⟩] }) ∧
    (0 < s.dec.rem.toNat →
      exec .dStreamEnd s = .next { s with
        dec := { s.dec with mode := .awaitingData, scan := .hunt, phase := .sync } })

/-! ## Waiting -/

/-- The model's choice over R73 (assumption log 21): while the channel that a step needs is not ready, the step changes
no register and moves nothing, and only the moment of that channel is past. -/
def Obligations.WaitingChangesNothing : Prop :=
  ∀ s : State,
    (s.enc.phase = .fill → s.enc.idx.toNat < 224 → 0 < s.enc.todo.toNat → s.srcNow = none →
      exec .eFill s = .next { s with src := s.src.pop }) ∧
    (s.enc.phase = .emit → s.enc.idx.toNat ≤ 256 → s.txNow = none →
      exec .eEmit s = .next { s with tx := s.tx.pop }) ∧
    (s.dec.phase = .sync → s.rxNow = none → exec .dSync s = .next { s with rx := s.rx.pop }) ∧
    (s.dec.phase = .body → s.dec.idx.toNat ≤ 255 → s.rxNow = none →
      exec .dBody s = .next { s with rx := s.rx.pop }) ∧
    (s.dec.phase = .dispatch → s.dec.mode = .awaitingHeader →
      256 * (Memory.read s.dec.fbuf 6).toNat + (Memory.read s.dec.fbuf 7).toNat < 14 → ¬ s.evtReady →
      exec .dDispatchHdr s = .next { s with evt := s.evt.pop }) ∧
    (s.dec.phase = .stream → s.dec.idx.toNat < 224 → 0 < s.dec.rem.toNat → s.dec.refused = false → s.snkNow = none →
      exec .dStream s = .next { s with snk := s.snk.pop }) ∧
    (s.dec.phase = .stream → s.dec.idx.toNat < 224 → 0 < s.dec.rem.toNat → s.dec.refused = true → ¬ s.evtReady →
      exec .dStream s = .next { s with evt := s.evt.pop }) ∧
    (s.dec.phase = .stream → s.dec.rem.toNat = 0 → ¬ s.evtReady →
      exec .dStreamEnd s = .next { s with evt := s.evt.pop }) ∧
    (∀ valid h, s.dec.eventNow = some ⟨h, valid⟩ → ¬ s.evtReady →
      exec (.evtPacket valid h) s = .next { s with evt := s.evt.pop })

/-! ## Wire patterns and the event word -/

/-- The model's choice (assumption log 10): a wire pattern of R101 to R103 arrives on the wire, and RX will answer its
bytes after those it already holds. Nothing else changes. -/
def Obligations.WirePatternsArrive : Prop :=
  ∀ (s : State) (v : Byte) (n : Half) (h : PacketHeader) (f : Frame),
    exec .syncPrefix s = .next { s with rx := s.rx.supply [some 0xAA#8] } ∧
    exec .syncCont s = .next { s with rx := s.rx.supply [some 0x5A#8] } ∧
    exec (.frameHdr v n) s = .next { s with
      rx := s.rx.supply [some 0x5A#8, some v, some (n.extractLsb' 8 8), some (n.extractLsb' 0 8)] } ∧
    exec (.pktHdr v h) s = .next { s with
      rx := s.rx.supply
        [some v, some h.pid, some (h.len.extractLsb' 8 8), some (h.len.extractLsb' 0 8),
         some (h.lat.extractLsb' 24 8), some (h.lat.extractLsb' 16 8), some (h.lat.extractLsb' 8 8),
         some (h.lat.extractLsb' 0 8), some (h.lon.extractLsb' 24 8), some (h.lon.extractLsb' 16 8),
         some (h.lon.extractLsb' 8 8), some (h.lon.extractLsb' 0 8), some (h.alt.extractLsb' 8 8),
         some (h.alt.extractLsb' 0 8)] } ∧
    exec (.frame f) s = .next { s with
      rx := s.rx.supply
        ([some 0xAA#8, some 0x5A#8, some f.version, some (f.seq.extractLsb' 8 8), some (f.seq.extractLsb' 0 8)] ++
          f.data.map some ++ f.parity.map some) }

/-- R71, R206 to R208, R210: `EVT.packet` is the transaction of a DEC step: with nothing outstanding, with a byte that
SNK has refused, and with a declared length below 14, and there it carries that packet's header and ends the packet. A
word that anyone else puts on EVT does nothing. That the row is an operation of its own, beside the steps that make the
event, and that a refused byte is kept until its event is made, is the model's reading (assumption logs 11 and 12). -/
def Obligations.EventIsATransactionOfDec : Prop :=
  ∀ (s : State) (h : PacketHeader),
    (s.dec.phase = .stream → ¬ (s.dec.idx.toNat < 224 ∧ 0 < s.dec.rem.toNat) → s.dec.rem.toNat = 0 →
      h = s.dec.hdr → s.evtReady →
      exec (.evtPacket true h) s = .next { s with
        dec := { s.dec with mode := .awaitingHeader, scan := .hunt, phase := .sync, refused := false }
        evt := s.evt.pop
        events := s.events ++ [⟨h, true⟩] }) ∧
    (s.dec.phase = .stream → s.dec.idx.toNat < 224 → 0 < s.dec.rem.toNat → s.dec.refused = true →
      h = s.dec.hdr → s.evtReady →
      exec (.evtPacket false h) s = .next { s with
        dec := { s.dec with mode := .awaitingHeader, scan := .hunt, phase := .sync, refused := false }
        evt := s.evt.pop
        events := s.events ++ [⟨h, false⟩] }) ∧
    (s.dec.phase = .dispatch → s.dec.mode = .awaitingHeader → h = readPktHdr s.dec.fbuf → h.len.toNat < 14 →
      s.evtReady →
      exec (.evtPacket false h) s = .next { s with
        dec := { s.dec with hdr := h, mode := .awaitingHeader, scan := .hunt, phase := .sync, refused := false }
        evt := s.evt.pop
        events := s.events ++ [⟨h, false⟩] }) ∧
    (∀ w, s.turnNow = some (.line w) → w.sel = .evt → step s = .next { s with turns := s.turns.pop })

/-! ## Invariants -/

/-- The invariant holds right after reset. The registers without a reset value hold the model's zeros there, and the
buffers list nothing (the model's choices, assumption logs 4 and 5). -/
def Obligations.InvariantAtReset : Prop := Inv Config.given State.reset

/-- Every step keeps the invariant: the ranges of R41, the canonical form of both buffers, the frame header in the
buffer of a frame being sent, the account of the packet string, and `DEC.STATUS` against `DEC.PHASE`. The canonical form
is the model's (assumption log 5); that the ranges hold right after `ENC.RESET` and `DEC.RESET` is the model's choice
(assumption log 6), and what holds while a response or an event is still to be made rests on assumption log 12. -/
def Obligations.StepKeepsInvariant : Prop :=
  ∀ s t : State, Inv Config.given s → step s = .next t → Inv Config.given t

/-- R41: the invariant gives all the ranges, the bound 256 on `DEC.IDX` after a `D.BODY` step among them. -/
def Obligations.InvariantGivesRanges : Prop :=
  ∀ s : State, Inv Config.given s → RangesOfR41 s

/-- R8 (5), R25, R30: where the invariant holds, every step has a next state, whoever's turn it is. That a word from
outside that presents no operation, or stands where no one outside drives, is no stop either is the model's choice
(assumption log 17). -/
def Obligations.MachineNeverStops : Prop :=
  ∀ s : State, Inv Config.given s → ∃ t, step s = .next t

/-! ## Isolation of the agents -/

/-- R20, R35, R75: an operation of ENC leaves DEC's registers and channels as they are, an operation of DEC those of
ENC, and neither touches the order of turns. -/
def Obligations.AgentsShareNothing : Prop :=
  ∀ (i : Instr) (s t : State), exec i s = .next t →
    (isEncOp i = true → t.decSide = s.decSide) ∧
    (isEncOp i = false → t.encSide = s.encSide) ∧
    t.turns = s.turns

/-- R20, R75: what an operation does to its own agent depends on that agent's side of the state alone. -/
def Obligations.AgentsReadOnlyTheirOwn : Prop :=
  ∀ (i : Instr) (s s' : State),
    (isEncOp i = true → s.encSide = s'.encSide →
      view State.encSide (exec i s) = view State.encSide (exec i s')) ∧
    (isEncOp i = false → s.decSide = s'.decSide →
      view State.decSide (exec i s) = view State.decSide (exec i s'))

/-- R255: what `D.BODY` and `D.VALIDATE` do does not depend on the reassembly state, which they leave as it is, and
what `E.PARITY` writes depends on the buffer alone. -/
def Obligations.ValidationIgnoresReassembly : Prop :=
  ∀ (s : State) (mode : Mode) (rem : Half) (hdr : PacketHeader),
    exec .dBody { s with dec := { s.dec with mode := mode, rem := rem, hdr := hdr } } =
      (match exec .dBody s with
        | .next t => .next { t with dec := { t.dec with mode := mode, rem := rem, hdr := hdr } }
        | .fault r => .fault r
        | .refused r => .refused r) ∧
    exec .dValidate { s with dec := { s.dec with mode := mode, rem := rem, hdr := hdr } } =
      (match exec .dValidate s with
        | .next t => .next { t with dec := { t.dec with mode := mode, rem := rem, hdr := hdr } }
        | .fault r => .fault r
        | .refused r => .refused r) ∧
    ∀ s' : State, s.enc.phase = .parity → s'.enc.phase = .parity → s.enc.fbuf = s'.enc.fbuf →
      ∃ m : Memory,
        exec .eParity s = .next { s with enc := { s.enc with fbuf := m, idx := 0#9, phase := .emit } } ∧
        exec .eParity s' = .next { s' with enc := { s'.enc with fbuf := m, idx := 0#9, phase := .emit } }

/-- R40: the registers that reset leaves unspecified are written before they are read: two states that differ at most
in registers not yet written do the same, transaction for transaction, and stay so. -/
def Obligations.UnspecifiedRegistersUnread : Prop :=
  ∀ s s' : State, alike s s' →
    (∃ t t', step s = .next t ∧ step s' = .next t' ∧ alike t t') ∨
    (∃ r, step s = .fault r ∧ step s' = .fault r) ∨
    (∃ r, step s = .refused r ∧ step s' = .refused r)

/-- R64, R168, R310: what was transferred stays transferred, whatever happens next: bytes on the wire, bytes the sink
took, events and responses. -/
def Obligations.TransfersStay : Prop :=
  ∀ s t : State, step s = .next t →
    s.wire <+: t.wire ∧ s.sunk <+: t.sunk ∧ s.events <+: t.events ∧
    s.encRsps <+: t.encRsps ∧ s.decRsps <+: t.decRsps

/-! ## Laws of the encoder -/

/-- R22, R166: `ENC.SEQ` changes only in `E.BUILD`, by one modulo 65536, and in `ENC.RESET`. -/
def Obligations.SequenceCounterLaw : Prop :=
  ∀ (i : Instr) (s t : State), exec i s = .next t →
    (i = .eBuild → t.enc.seq.toNat = (s.enc.seq.toNat + 1) % 65536) ∧
    (i = .encReset → t.enc.seq = Config.given.seqInit) ∧
    (i ≠ .eBuild → i ≠ .encReset → t.enc.seq = s.enc.seq)

/-- R23: the latched header changes only when a command is accepted, and then it is the command's; a reset leaves it
unspecified. No command is accepted while a response is due (assumption log 12). -/
def Obligations.HeaderLatch : Prop :=
  ∀ (i : Instr) (s t : State), exec i s = .next t → t.enc.hdr ≠ s.enc.hdr →
    i = .encReset ∨ (i = .encode t.enc.hdr ∧ s.enc.phase = .idle ∧ s.enc.rspDue = false)

/-- R72, R165: one response answers each command. The end of a command, and nothing else, makes a response due, with
`ENC.RES` written and ENC idle; while it is due it stays due until it is made or ENC is reset; and a response is made on
ENC's turn only, when it is due, and carries `ENC.RES`. That it is a transaction of its own is the model's reading
(assumption log 12). -/
def Obligations.ResponsesAnswerCommands : Prop :=
  (∀ (i : Instr) (s t : State), exec i s = .next t → s.enc.rspDue = false →
    t.encRsps = s.encRsps ∧
    (t.enc.rspDue = true → t.enc.phase = .idle ∧ t.enc.res.status ≠ .none) ∧
    (t.enc.rspDue = true ↔
      i ≠ .encReset ∧ (s.enc.phase ≠ .idle ∧ t.enc.phase = .idle ∨
        s.enc.phase = .idle ∧ ∃ h : PacketHeader, i = .encode h ∧ h.len.toNat < 14))) ∧
  (∀ s t : State, step s = .next t → t.encRsps ≠ s.encRsps →
    s.turnNow = some .enc ∧ s.enc.phase = .idle ∧ s.enc.rspDue = true ∧
    t.encRsps = s.encRsps ++ [s.enc.res] ∧ t.enc = { s.enc with rspDue := false }) ∧
  (∀ s t : State, step s = .next t → s.enc.rspDue = true → t.enc.rspDue = false →
    t.encRsps = s.encRsps ++ [s.enc.res] ∨ t.enc = encAfterReset Config.given s.encResets)

/-- R165, R170: a command that ends with OK after its last frame reports `ceil(length / 220)` frames. -/
def Obligations.ResultCountsFrames : Prop :=
  ∀ s t : State, EncInv Config.given s.enc → exec .eEmit s = .next t →
    t.enc.phase = .idle → t.enc.res.status = .ok →
      220 * (t.enc.res.count.toNat - 1) < s.enc.hdr.len.toNat ∧
      s.enc.hdr.len.toNat ≤ 220 * t.enc.res.count.toNat ∧ 1 ≤ t.enc.res.count.toNat

/-- R172: the control flow of the encoder: an operation leaves `ENC.PHASE` as it is, or makes one of these transitions
on these conditions, or resets ENC. -/
def Obligations.EncoderControlFlow : Prop :=
  ∀ (i : Instr) (s t : State), exec i s = .next t →
    i = .encReset ∨ t.enc.phase = s.enc.phase ∨
    (∃ h : PacketHeader, i = .encode h ∧ 14 ≤ h.len.toNat ∧ s.enc.phase = .idle ∧ t.enc.phase = .build) ∨
    (i = .eBuild ∧ s.enc.phase = .build ∧ t.enc.phase = .fill) ∨
    (i = .eFill ∧ s.enc.phase = .fill ∧ t.enc.phase = .parity ∧
      (224 ≤ s.enc.idx.toNat ∨ s.enc.todo.toNat = 0)) ∨
    (i = .eFill ∧ s.enc.phase = .fill ∧ t.enc.phase = .idle ∧ s.srcNow = some none) ∨
    (i = .eParity ∧ s.enc.phase = .parity ∧ t.enc.phase = .emit) ∨
    (i = .eEmit ∧ s.enc.phase = .emit ∧ t.enc.phase = .build ∧ s.txNow = some true ∧
      s.enc.idx.toNat = 256 ∧ 0 < s.enc.todo.toNat) ∨
    (i = .eEmit ∧ s.enc.phase = .emit ∧ t.enc.phase = .idle ∧ s.txNow = some true ∧
      s.enc.idx.toNat = 256 ∧ s.enc.todo.toNat = 0) ∨
    (i = .eEmit ∧ s.enc.phase = .emit ∧ t.enc.phase = .idle ∧ s.txNow = some false)

/-- R61, R164: with a transport that accepts, 257 steps of ENC put the sync prefix and the 256 bytes of the buffer on
the wire, in order and nothing else, and count the frame. -/
def Obligations.EmitsWholeFrame : Prop :=
  ∀ s : State, s.enc.phase = .emit → s.enc.idx = 0#9 → 0 < s.enc.todo.toNat → s.tx = acceptAll →
    s.turns = ⟨[], .always (some .enc)⟩ →
    Machine.run 257 s = .next { s with
      wire := s.wire ++ 0xAA#8 :: Memory.readBytes s.enc.fbuf 0 256
      enc := { s.enc with idx := 256#9, count := s.enc.count + 1#16, phase := .build } }

/-- R165, R169, R170, R172: a legal command whose payload SRC supplies and whose bytes TX accepts puts exactly the wire
image of `frames(h, p, s)` on the wire, answers OK with the frame count, advances the counter by it, pulls exactly the
payload, leaves DEC's side alone, and needs at most 480 steps a frame and two more. That the first of the waiting
commands is taken and the others wait on, and that the response is a step of its own, is the model's choice (assumption
logs 12 and 13). -/
def Obligations.EncoderSendsFrames : Prop :=
  ∀ (s : State) (h : PacketHeader) (cmds : List PacketHeader) (payload : List Byte)
    (more : List (Option (Option Byte))),
    h.len.toNat = payload.length + 14 → s.enc.phase = .idle → s.enc.rspDue = false → s.encCmd = h :: cmds →
    s.src.queue = payload.map (fun b => some (some b)) ++ more → s.tx = acceptAll → s.encRsp = alwaysReady →
    s.turns = ⟨[], .always (some .enc)⟩ →
    ∃ (k : Nat) (t : State), k ≤ 480 * frameCount h.len.toNat + 2 ∧
      Machine.run k s = .next t ∧
      t.enc.phase = .idle ∧ t.enc.rspDue = false ∧ t.encCmd = cmds ∧
      t.wire = s.wire ++ wireImage (frames Config.given h payload s.enc.seq) ∧
      t.encRsps = s.encRsps ++ [⟨.ok, BitVec.ofNat 16 (frameCount h.len.toNat)⟩] ∧
      t.enc.seq = s.enc.seq + BitVec.ofNat 16 (frameCount h.len.toNat) ∧
      t.src = ⟨more, s.src.tail⟩ ∧ t.decSide = s.decSide

/-! ## Laws of the decoder -/

/-- R145: a run of `0xAA` bytes and a byte after it match exactly when the run is odd and the byte is `0x5A`; otherwise
the scanner is back in HUNT behind them. -/
def Obligations.SyncNeedsOddRun : Prop :=
  ∀ (k n : Nat) (b : Byte) (rest : List Byte), b ≠ 0xAA#8 →
    syncFrom .hunt n (List.replicate k 0xAA#8 ++ b :: rest) =
      if k % 2 = 1 ∧ b = 0x5A#8 then some (n + k + 1, rest) else syncFrom .hunt (n + k + 1) rest

/-- R147: the examples of `sync_find`. -/
def Obligations.SyncFindValues : Prop :=
  syncFind [0xAA#8, 0x5A#8] = some 2 ∧
  syncFind [0x00#8, 0xAA#8, 0x5A#8] = some 3 ∧
  syncFind [0xAA#8, 0xAA#8, 0x5A#8] = none ∧
  syncFind [0xAA#8, 0xAA#8, 0xAA#8, 0x5A#8] = some 4 ∧
  syncFind [0xAA#8, 0x00#8, 0xAA#8, 0x5A#8] = some 4 ∧
  syncFind [0x5A#8, 0xAA#8, 0x5A#8] = some 3 ∧
  syncFind [0xAA#8, 0x5B#8, 0xAA#8, 0x5A#8] = some 4 ∧
  syncFind [0xAA#8] = none ∧
  syncFind [] = none

/-- R211: the control flow of the decoder: an operation leaves `DEC.PHASE` as it is, or makes one of these transitions
on these conditions, or resets DEC. `EVT.packet` as an operation of its own (assumption log 11) leaves DISPATCH or STREAM
as the step does whose event it is; the refusal of a byte and the event are two transactions (assumption log 12). -/
def Obligations.DecoderControlFlow : Prop :=
  ∀ (i : Instr) (s t : State), exec i s = .next t →
    i = .decReset ∨ t.dec.phase = s.dec.phase ∨
    (i = .decodeStream ∧ s.dec.phase = .idle ∧ t.dec.phase = .sync ∧ t.dec.mode = .awaitingHeader) ∨
    (i = .dSync ∧ s.dec.phase = .sync ∧ t.dec.phase = .body ∧ s.dec.scan = .gotAA ∧
      s.rxNow = some (some 0x5A#8)) ∨
    (i = .dSync ∧ s.dec.phase = .sync ∧ t.dec.phase = .idle ∧ s.rxNow = some none) ∨
    (i = .dBody ∧ s.dec.phase = .body ∧ t.dec.phase = .validate ∧ s.dec.idx.toNat = 255 ∧
      ∃ b, s.rxNow = some (some b)) ∨
    (i = .dBody ∧ s.dec.phase = .body ∧ t.dec.phase = .idle ∧ s.rxNow = some none) ∨
    (i = .dValidate ∧ s.dec.phase = .validate ∧ t.dec.phase = .dispatch ∧
      ∃ msg, Config.given.fecDecode (fun j => Memory.read s.dec.fbuf (1 + j.val)) = some msg ∧
        msg 0 = Config.given.protocolVersion) ∨
    (i = .dValidate ∧ s.dec.phase = .validate ∧ t.dec.phase = .idle ∧
      ∀ msg, Config.given.fecDecode (fun j => Memory.read s.dec.fbuf (1 + j.val)) = some msg →
        msg 0 ≠ Config.given.protocolVersion) ∨
    (i = .dDispatchHdr ∧ s.dec.phase = .dispatch ∧ t.dec.phase = .stream ∧ 14 ≤ t.dec.hdr.len.toNat) ∨
    (i = .dDispatchHdr ∧ s.dec.phase = .dispatch ∧ t.dec.phase = .sync ∧ t.dec.hdr.len.toNat < 14) ∨
    (i = .dDispatchData ∧ s.dec.phase = .dispatch ∧ t.dec.phase = .stream) ∨
    (i = .dStream ∧ s.dec.phase = .stream ∧ t.dec.phase = .sync ∧ s.dec.refused = true) ∨
    (i = .dStreamEnd ∧ s.dec.phase = .stream ∧ t.dec.phase = .sync ∧
      ¬ (s.dec.idx.toNat < 224 ∧ 0 < s.dec.rem.toNat)) ∨
    (∃ valid h, i = .evtPacket valid h ∧ s.dec.eventNow = some ⟨h, valid⟩ ∧
      (s.dec.phase = .dispatch ∨ s.dec.phase = .stream) ∧ t.dec.phase = .sync)

/-- R211: `DEC.MODE` changes in four ways only: a session starts, a frame ends with payload outstanding, a packet is
complete, or the sink has refused a byte (a reset gives AwaitingHeader). The last two are `EVT.packet` as well, where the
model lets that row stand for the transaction (assumption log 11; the refusal is kept in `refused`, log 12). -/
def Obligations.ReassemblyModeFlow : Prop :=
  ∀ (i : Instr) (s t : State), exec i s = .next t → t.dec.mode ≠ s.dec.mode →
    (i = .decReset ∧ t.dec.mode = .awaitingHeader) ∨
    (i = .decodeStream ∧ s.dec.phase = .idle ∧ t.dec.mode = .awaitingHeader) ∨
    (i = .dStreamEnd ∧ 0 < s.dec.rem.toNat ∧ t.dec.mode = .awaitingData) ∨
    ((i = .dStreamEnd ∨ i = .evtPacket true s.dec.hdr) ∧ s.dec.rem.toNat = 0 ∧ t.dec.mode = .awaitingHeader) ∨
    ((i = .dStream ∨ i = .evtPacket false s.dec.hdr) ∧ s.dec.refused = true ∧ t.dec.mode = .awaitingHeader)

/-- R209: a session ends in exactly four ways, each with its status and one response to make, without an event, with the
bytes delivered as they were and the reassembly state as it was; after a bad frame nothing more is read from RX. The
response is the next transaction (assumption log 12). -/
def Obligations.SessionEnds : Prop :=
  ∀ (i : Instr) (s t : State), exec i s = .next t → i ≠ .decReset →
    s.dec.phase ≠ .idle → t.dec.phase = .idle →
    ((i = .dSync ∧ t.dec.status = .endEosSync) ∨ (i = .dBody ∧ t.dec.status = .endEosBody) ∨
      (i = .dValidate ∧ t.dec.status = .endFec) ∨ (i = .dValidate ∧ t.dec.status = .endVersion)) ∧
    t.dec.rspDue = true ∧ t.decRsps = s.decRsps ∧ t.events = s.events ∧ t.sunk = s.sunk ∧
    t.dec.mode = s.dec.mode ∧ t.dec.rem = s.dec.rem ∧ t.dec.hdr = s.dec.hdr ∧ (i = .dValidate → t.rx = s.rx)

/-- R71, R206 to R208, R210, R280: an event is made on DEC's turn only, and only where a packet ends: it carries a copy
of `DEC.HDR`, it is valid exactly when nothing is outstanding, and DEC then looks for a first frame. `EVT.packet` as an
operation of its own (assumption log 11) is that same transaction; a refused byte and its event are two transactions
(assumption log 12). -/
def Obligations.EventsClosePackets : Prop :=
  (∀ (i : Instr) (s t : State), exec i s = .next t → t.events ≠ s.events →
    ∃ valid, t.events = s.events ++ [⟨t.dec.hdr, valid⟩] ∧
      t.dec.phase = .sync ∧ t.dec.mode = .awaitingHeader ∧ t.dec.scan = .hunt ∧ t.sunk = s.sunk ∧
      ((valid = true ∧ (i = .dStreamEnd ∨ i = .evtPacket true s.dec.hdr) ∧ s.dec.phase = .stream ∧
          s.dec.rem.toNat = 0 ∧ t.dec.hdr = s.dec.hdr) ∨
        (valid = false ∧ (i = .dStream ∨ i = .evtPacket false s.dec.hdr) ∧ s.dec.phase = .stream ∧
          s.dec.refused = true ∧ 0 < s.dec.rem.toNat ∧ t.dec.hdr = s.dec.hdr) ∨
        (valid = false ∧ (i = .dDispatchHdr ∨ i = .evtPacket false t.dec.hdr) ∧ s.dec.phase = .dispatch ∧
          s.dec.mode = .awaitingHeader ∧ t.dec.hdr = readPktHdr s.dec.fbuf ∧ t.dec.hdr.len.toNat < 14))) ∧
  (∀ s t : State, step s = .next t → t.events ≠ s.events → s.turnNow = some .dec)

/-- R201: with the 255 bytes of a body at hand, 255 steps of DEC put them, in order, in `FBUF[1..255]`, and VALIDATE is
next; byte 0 and every other register but `DEC.IDX` and `DEC.PHASE` are as before. -/
def Obligations.BodyReadsWholeFrame : Prop :=
  ∀ (s : State) (bytes : List Byte) (more : List (Option (Option Byte))),
    s.dec.phase = .body → s.dec.idx = 1#9 → bytes.length = 255 →
    s.rx.queue = bytes.map (fun b => some (some b)) ++ more → s.turns = ⟨[], .always (some .dec)⟩ →
    ∃ m : Memory,
      Machine.run 255 s = .next { s with
        rx := ⟨more, s.rx.tail⟩
        dec := { s.dec with fbuf := m, idx := 256#9, phase := .validate } } ∧
      Memory.readBytes m 1 255 = bytes ∧ Memory.read m 0 = Memory.read s.dec.fbuf 0

/-- R61, R142, R201: a frame that arrives while DEC hunts with nothing before it on the wire is found and read whole in
257 steps, `0x5A` and the 255 bytes behind the sync pair. That a frame arrives as one operation is the model's choice
(assumption log 10). -/
def Obligations.ArrivingFrameIsRead : Prop :=
  ∀ (s : State) (f : Frame), f.wellFormed = true →
    s.dec.phase = .sync → s.dec.scan = .hunt → s.rx.queue = [] → s.turns = ⟨[], .always (some .dec)⟩ →
    ∃ (u : State) (m : Memory), exec (.frame f) s = .next u ∧
      Machine.run 257 u = .next { s with
        dec := { s.dec with fbuf := m, idx := 256#9, phase := .validate } } ∧
      Memory.readBytes m 0 256 =
        0x5A#8 :: f.version :: (f.seq.extractLsb' 8 8) :: (f.seq.extractLsb' 0 8) :: (f.data ++ f.parity)

/-- R214: a session over a finite RX content followed by `None` does what the function `decode` says: the bytes the
sink takes, the events, and the end status. The response is a step of its own (assumption log 12). -/
def Obligations.DecoderImplementsDecode : Prop :=
  ∀ (s : State) (n : Nat) (bytes : List Byte) (sink : List Bool),
    s.dec.phase = .idle → s.dec.rspDue = false → s.dec.refused = false → s.decCmd = n + 1 →
    s.rx = bytesThenNone bytes →
    s.snk = ⟨sink.map some, .always (some true)⟩ → s.evt = alwaysReady → s.decRsp = alwaysReady →
    s.turns = ⟨[], .always (some .dec)⟩ →
    ∃ (k : Nat) (t : State), Machine.run k s = .next t ∧
      t.dec.phase = .idle ∧ t.dec.rspDue = false ∧ t.decCmd = n ∧
      t.dec.status = (decodeSession Config.given bytes sink).2 ∧
      t.sunk = s.sunk ++ (decodeSession Config.given bytes sink).1.sunk ∧
      t.events = s.events ++ (decodeSession Config.given bytes sink).1.events ∧
      t.decRsps = s.decRsps ++ [(decodeSession Config.given bytes sink).2] ∧
      t.encSide = s.encSide

/-! ## Codec, fields and whole packets -/

/-- R215: for every configuration whose codec returns clean codewords, decoding the wire image of a packet delivers
exactly its payload, makes exactly one event with its header and `valid = true`, and ends with END_EOS_SYNC; a packet
of length 0 has no bytes on the wire and makes no event. -/
def Obligations.RoundTrip : Prop :=
  ∀ c : Config, c.CleanCodeword →
    ∀ (h : PacketHeader) (payload : List Byte) (seq : Half),
      (h.len.toNat = payload.length + 14 →
        decodeSession c (wireImage (frames c h payload seq)) [] =
          (⟨payload, [⟨h, true⟩], none⟩, .endEosSync)) ∧
      (h.len.toNat = 0 →
        decodeSession c (wireImage (frames c h [] seq)) [] = (⟨[], [], none⟩, .endEosSync))

/-- R256: for every configuration whose codec corrects fewer than `FEC_T` errors, a frame corrupted in fewer than
`FEC_T` bytes of its message leaves DEC after validation as the frame as sent does: every register equal, and the
buffer byte for byte. -/
def Obligations.CorruptionBelowCapacityIsInvisible : Prop :=
  ∀ c : Config, c.Corrects →
    ∀ (s t : State) (sent received : Memory) (msg : Message),
      codewordIn sent = codewordOf msg (c.fecEncode msg) →
      codewordErrors (codewordIn sent) (codewordIn received) < c.fecT →
      (∀ a, a = 0 ∨ 224 ≤ a → Memory.read received a = Memory.read sent a) →
      t = validate c { s with dec := { s.dec with fbuf := sent } } →
      ∃ m : Memory,
        validate c { s with dec := { s.dec with fbuf := received } } =
          { t with dec := { t.dec with fbuf := m } } ∧
        ∀ a, Memory.read m a = Memory.read t.dec.fbuf a

/-- R62, R107: a 16-bit or 32-bit field is stored most significant byte first at any offset, every other byte stays,
and it is read back unchanged. -/
def Obligations.BigEndianFields : Prop :=
  ∀ (m : Memory) (a : Nat) (v : Half) (q : Quad),
    Memory.read (Memory.write16 m a v) a = v.extractLsb' 8 8 ∧
    Memory.read (Memory.write16 m a v) (a + 1) = v.extractLsb' 0 8 ∧
    (∀ x, x < a ∨ a + 2 ≤ x → Memory.read (Memory.write16 m a v) x = Memory.read m x) ∧
    Memory.read16 (Memory.write16 m a v) a = v ∧
    (Memory.read16 m a).toNat = 256 * (Memory.read m a).toNat + (Memory.read m (a + 1)).toNat ∧
    (∀ k, k < 4 → Memory.read (Memory.write32 m a q) (a + k) = q.extractLsb' (8 * (3 - k)) 8) ∧
    (∀ x, x < a ∨ a + 4 ≤ x → Memory.read (Memory.write32 m a q) x = Memory.read m x) ∧
    Memory.read32 (Memory.write32 m a q) a = q

/-- Buffers in canonical form that read the same are the same data. The form, in which an unlisted byte reads `0x00`, is
the model's choice (assumption log 5). -/
def Obligations.CanonicalBuffersAreEqual : Prop :=
  ∀ m m' : Memory, Memory.wf m = true → Memory.wf m' = true →
    (∀ a, a < 256 → Memory.read m a = Memory.read m' a) → m = m'

/-- R100, R101, R108, R169: every frame of a packet is 257 wire bytes, headed `0xAA 0x5A` and the version, numbered
upward from the counter's value, and there are `ceil(length / 220)` of them. -/
def Obligations.FrameGeometry : Prop :=
  ∀ (c : Config) (h : PacketHeader) (payload : List Byte) (seq : Half),
    (frames c h payload seq).length = frameCount h.len.toNat ∧
    (wireImage (frames c h payload seq)).length = 257 * frameCount h.len.toNat ∧
    ∀ (k : Nat) (f : Frame), (frames c h payload seq)[k]? = some f →
      f.wellFormed = true ∧ (frameBytes f).length = 257 ∧
      (frameBytes f).take 5 =
        [0xAA#8, 0x5A#8, c.protocolVersion, (seq + BitVec.ofNat 16 k).extractLsb' 8 8,
          (seq + BitVec.ofNat 16 k).extractLsb' 0 8]

/-- R170: the number of frames is the least that carries the length, and its values at the corners. -/
def Obligations.FrameCountLaw : Prop :=
  (∀ len : Nat, len ≤ 220 * frameCount len ∧ (0 < len → 220 * (frameCount len - 1) < len)) ∧
  frameCount 0 = 0 ∧ frameCount 14 = 1 ∧ frameCount 220 = 1 ∧ frameCount 221 = 2 ∧ frameCount 440 = 2 ∧
  frameCount 441 = 3 ∧ frameCount 514 = 3 ∧ frameCount 65535 = 298

/-- R111, R112, R270: the codes of phases, scanner, mode, statuses and causes. -/
def Obligations.ControlCodes : Prop :=
  [EncPhase.idle, .build, .fill, .parity, .emit].map EncPhase.code = [0, 1, 2, 3, 4] ∧
  [DecPhase.idle, .sync, .body, .validate, .dispatch, .stream].map DecPhase.code = [0, 1, 2, 3, 4, 5] ∧
  [Scan.hunt, .gotAA].map Scan.code = [0, 1] ∧
  [Mode.awaitingHeader, .awaitingData].map Mode.code = [0, 1] ∧
  [EncStatus.none, .ok, .errSrc, .errTx, .errLen].map EncStatus.code = [0, 1, 2, 3, 4] ∧
  [DecStatus.none, .running, .endEosSync, .endEosBody, .endFec, .endVersion].map DecStatus.code =
    [0, 1, 2, 3, 4, 5] ∧
  [Cause.encSrcFail, .encTxFail, .encLenRefused, .decEosSync, .decEosBody, .decFecUncorrectable, .decBadVersion,
    .decSinkFail, .decBadLength].map Cause.code = [1, 2, 3, 4, 5, 6, 7, 8, 9]

/-! ## Responses, and words that present no operation -/

/-- R27, R34, R72, R74: on an idle agent's turn the response that is due is made when its channel is ready, with the
content of `ENC.RES` or `DEC.STATUS`, and until then the agent waits. That a response is a transaction of its own, made
before the next command is taken, is the model's reading of R7 and R165 (assumption log 12); how a wait is taken is
assumption log 21. -/
def Obligations.DueResponsesAreMade : Prop :=
  ∀ s : State,
    (s.turnNow = some .enc → s.enc.phase = .idle → s.enc.rspDue = true → s.encRspReady →
      step s = .next { s with
        turns := s.turns.pop
        enc := { s.enc with rspDue := false }
        encRsp := s.encRsp.pop
        encRsps := s.encRsps ++ [s.enc.res] }) ∧
    (s.turnNow = some .enc → s.enc.phase = .idle → s.enc.rspDue = true → ¬ s.encRspReady →
      step s = .next { s with turns := s.turns.pop, encRsp := s.encRsp.pop }) ∧
    (s.turnNow = some .dec → s.dec.phase = .idle → s.dec.rspDue = true → s.decRspReady →
      step s = .next { s with
        turns := s.turns.pop
        dec := { s.dec with rspDue := false }
        decRsp := s.decRsp.pop
        decRsps := s.decRsps ++ [s.dec.status] }) ∧
    (s.turnNow = some .dec → s.dec.phase = .idle → s.dec.rspDue = true → ¬ s.decRspReady →
      step s = .next { s with turns := s.turns.pop, decRsp := s.decRsp.pop })

/-- R61, R109, R142: bytes on the wire that are none of the patterns arrive at RX like any others. R20, R110, R285: a
word that is no command, and a word on the control registers, which no one outside drives, does nothing; this second
part is the model's choice (assumption log 17). -/
def Obligations.OtherWordsSelectNothing : Prop :=
  ∀ (s : State) (w : OpWord), s.turnNow = some (.line w) →
    (∀ e, decode w = .error e → w.sel = .wire →
      step s = .next { s with turns := s.turns.pop, rx := s.rx.supply (w.bytes.map some) }) ∧
    (∀ e, decode w = .error e → w.sel ≠ .wire → step s = .next { s with turns := s.turns.pop }) ∧
    (w.sel = .encPhase ∨ (∃ more, w.sel = .decPhase more) → step s = .next { s with turns := s.turns.pop })
end

