-- ==== Sys2Proof/Laws/Channel.lean ====
section
/-! SUPPORT. The laws of a channel: what it answers and what remains of it. -/

namespace Sys2Proof.Machine

variable {α : Type} (draw : Nat → Option α)

@[simp] theorem Channel.peek_cons (a : Option α) (q : List (Option α)) (t : Tail α) :
    Channel.peek draw ⟨a :: q, t⟩ = a := rfl

@[simp] theorem Channel.peek_always (a : Option α) : Channel.peek draw ⟨[], .always a⟩ = a := rfl

@[simp] theorem Channel.peek_free (n : Nat) : Channel.peek draw ⟨[], .free n⟩ = draw n := rfl

@[simp] theorem Channel.pop_cons (a : Option α) (q : List (Option α)) (t : Tail α) :
    Channel.pop ⟨a :: q, t⟩ = ⟨q, t⟩ := rfl

@[simp] theorem Channel.pop_always (a : Option α) :
    Channel.pop (⟨[], .always a⟩ : Channel α) = ⟨[], .always a⟩ := rfl

@[simp] theorem Channel.pop_free (n : Nat) :
    Channel.pop (⟨[], .free n⟩ : Channel α) = ⟨[], .free (n + 1)⟩ := rfl

@[simp] theorem Channel.peek_next (ch : Channel α) (a : α) :
    Channel.peek draw (ch.next a) = some a := rfl

@[simp] theorem Channel.pop_next (ch : Channel α) (a : α) : Channel.pop (ch.next a) = ch := rfl

/-- What is supplied comes after what a channel already holds. -/
theorem Channel.peek_supply_of_queue (ch : Channel α) (answers : List α) (h : ch.queue ≠ []) :
    Channel.peek draw (ch.supply answers) = Channel.peek draw ch := by
  obtain ⟨q, t⟩ := ch
  cases q with
  | nil => exact absurd rfl h
  | cons a q => rfl

end Sys2Proof.Machine
end

