-- ==== Sys2Proof/Laws/Codec.lean ====
section
/-! SUPPORT. One codec that has the properties P1 and P2 of R253 with `FEC_T = 2`, so that statements that assume them
are not empty. Its parity is the sums of the rows and of the columns of the message laid out fifteen bytes to a row;
the spec names no codec, and no statement is about this one. -/

namespace Sys2Proof.Laws.Codec

/-- Sums of the rows at 0..14, of the columns at 15..29, and two zero bytes. -/
def sums (m : Message) : Parity := fun k =>
  if k.val < 15 then ∑ i with i.val / 15 = k.val, m i
  else if k.val < 30 then ∑ i with i.val % 15 = k.val - 15, m i
  else 0

/-- The parity of the message of zeros. -/
theorem sums_zero : sums (fun _ => 0#8) = fun _ => 0#8 := by
  funext k
  unfold sums
  split
  · exact Finset.sum_const_zero
  · split
    · exact Finset.sum_const_zero
    · rfl

/-- A sum over a class in which only one byte changed has changed. -/
theorem sum_ne (p : Fin 223 → Prop) [DecidablePred p] {m m' : Message} {i : Fin 223} (hi : p i) (hd : m i ≠ m' i)
    (ho : ∀ j, p j → j ≠ i → m j = m' j) : (∑ j with p j, m j) ≠ ∑ j with p j, m' j := by
  have h (x : Message) : (∑ j with p j, x j) = x i + ∑ j ∈ (Finset.univ.filter p).erase i, x j :=
    (Finset.add_sum_erase _ x (by simp [hi])).symm
  rw [h m, h m', Finset.sum_congr rfl fun j hj => ho j (by simp_all) (by simp_all)]
  exact fun hs => hd (add_right_cancel hs)

theorem row_ne {m m' : Message} {i : Fin 223} (hd : m i ≠ m' i)
    (ho : ∀ j : Fin 223, j.val / 15 = i.val / 15 → j ≠ i → m j = m' j) :
    sums m ⟨i.val / 15, by omega⟩ ≠ sums m' ⟨i.val / 15, by omega⟩ := by
  have : i.val / 15 < 15 := by omega
  simpa [sums, this] using sum_ne (fun j => j.val / 15 = i.val / 15) rfl hd ho

theorem column_ne {m m' : Message} {i : Fin 223} (hd : m i ≠ m' i)
    (ho : ∀ j : Fin 223, j.val % 15 = i.val % 15 → j ≠ i → m j = m' j) :
    sums m ⟨15 + i.val % 15, by omega⟩ ≠ sums m' ⟨15 + i.val % 15, by omega⟩ := by
  have : 15 + i.val % 15 < 30 := by omega
  simpa [sums, this] using sum_ne (fun j => j.val % 15 = i.val % 15) rfl hd ho

/-- The codeword of a message. -/
def word (m : Message) : Codeword := codewordOf m (sums m)

theorem word_message (m : Message) (i : Fin 223) : word m ⟨i.val, by omega⟩ = m i := by
  simp [word, codewordOf]

theorem word_parity (m : Message) (k : Fin 32) : word m ⟨223 + k.val, by omega⟩ = sums m k := by
  simp [word, codewordOf]

/-- Three positions in which two words differ make their distance at least three. -/
theorem three_le {a b : Codeword} {x y z : Fin 255} (hx : a x ≠ b x) (hy : a y ≠ b y) (hz : a z ≠ b z)
    (hxy : x ≠ y) (hxz : x ≠ z) (hyz : y ≠ z) : 3 ≤ codewordErrors a b := by
  have h3 : ({x, y, z} : Finset (Fin 255)).card = 3 := by
    rw [Finset.card_insert_of_notMem (by simp [hxy, hxz]), Finset.card_pair hyz]
  refine h3 ▸ Finset.card_le_card fun j hj => ?_
  simp only [Finset.mem_insert, Finset.mem_singleton] at hj
  rcases hj with rfl | rfl | rfl <;> simpa

/-- The codewords of different messages differ in at least three positions. -/
theorem distance {m m' : Message} (h : m ≠ m') : 3 ≤ codewordErrors (word m) (word m') := by
  obtain ⟨i, hi⟩ := Function.ne_iff.mp h
  have wi : word m ⟨i.val, by omega⟩ ≠ word m' ⟨i.val, by omega⟩ := by simpa [word_message] using hi
  by_cases h1 : ∃ j, j ≠ i ∧ m j ≠ m' j
  · obtain ⟨j, hji, hj⟩ := h1
    have wj : word m ⟨j.val, by omega⟩ ≠ word m' ⟨j.val, by omega⟩ := by simpa [word_message] using hj
    have hv : j.val ≠ i.val := fun e => hji (Fin.ext e)
    by_cases h2 : ∃ k, k ≠ i ∧ k ≠ j ∧ m k ≠ m' k
    · obtain ⟨k, hki, hkj, hk⟩ := h2
      have wk : word m ⟨k.val, by omega⟩ ≠ word m' ⟨k.val, by omega⟩ := by simpa [word_message] using hk
      have hvi : k.val ≠ i.val := fun e => hki (Fin.ext e)
      have hvj : k.val ≠ j.val := fun e => hkj (Fin.ext e)
      exact three_le wi wj wk (by simp; omega) (by simp; omega) (by simp; omega)
    · have ho : ∀ k : Fin 223, k ≠ i → k ≠ j → m k = m' k := fun k hki hkj => by
        by_contra hk
        exact h2 ⟨k, hki, hkj, hk⟩
      by_cases hr : j.val / 15 = i.val / 15
      · have wc : word m ⟨223 + (15 + i.val % 15), by omega⟩ ≠ word m' ⟨223 + (15 + i.val % 15), by omega⟩ := by
          have := column_ne hi fun k hk hki => ho k hki fun e => by subst e; omega
          simpa [word_parity m ⟨15 + i.val % 15, by omega⟩, word_parity m' ⟨15 + i.val % 15, by omega⟩] using this
        exact three_le wi wj wc (by simp; omega) (by simp; omega) (by simp; omega)
      · have wr : word m ⟨223 + i.val / 15, by omega⟩ ≠ word m' ⟨223 + i.val / 15, by omega⟩ := by
          have := row_ne hi fun k hk hki => ho k hki fun e => by subst e; omega
          simpa [word_parity m ⟨i.val / 15, by omega⟩, word_parity m' ⟨i.val / 15, by omega⟩] using this
        exact three_le wi wj wr (by simp; omega) (by simp; omega) (by simp; omega)
  · have ho : ∀ k : Fin 223, k ≠ i → m k = m' k := fun k hki => by
      by_contra hk
      exact h1 ⟨k, hki, hk⟩
    have wc : word m ⟨223 + (15 + i.val % 15), by omega⟩ ≠ word m' ⟨223 + (15 + i.val % 15), by omega⟩ := by
      have := column_ne hi fun k _ hki => ho k hki
      simpa [word_parity m ⟨15 + i.val % 15, by omega⟩, word_parity m' ⟨15 + i.val % 15, by omega⟩] using this
    have wr : word m ⟨223 + i.val / 15, by omega⟩ ≠ word m' ⟨223 + i.val / 15, by omega⟩ := by
      have := row_ne hi fun k _ hki => ho k hki
      simpa [word_parity m ⟨i.val / 15, by omega⟩, word_parity m' ⟨i.val / 15, by omega⟩] using this
    exact three_le wi wr wc (by simp; omega) (by simp; omega) (by simp; omega)

/-- A word at distance below 2 from a codeword is decoded to its message; no other word is correctable. -/
noncomputable def correct (w : Codeword) : Option Message :=
  open Classical in if h : ∃ m, codewordErrors (word m) w < 2 then some h.choose else none

/-- The distances of two words from a third add up to at least their own. -/
theorem triangle (a b w : Codeword) : codewordErrors a b ≤ codewordErrors a w + codewordErrors b w := by
  refine le_trans (Finset.card_le_card fun j hj => ?_) (Finset.card_union_le _ _)
  simp only [Finset.mem_filter, Finset.mem_univ, true_and, Finset.mem_union] at hj ⊢
  by_contra hn
  simp only [not_or, not_not] at hn
  exact hj (hn.1.trans hn.2.symm)

theorem correct_of_near {m : Message} {w : Codeword} (h : codewordErrors (word m) w < 2) :
    correct w = some m := by
  have hex : ∃ m, codewordErrors (word m) w < 2 := ⟨m, h⟩
  rw [correct, dif_pos hex]
  by_contra hn
  have hd := distance (fun e => hn (congrArg some e) : hex.choose ≠ m)
  have := triangle (word hex.choose) (word m) w
  have := hex.choose_spec
  omega

theorem errors_self (w : Codeword) : codewordErrors w w = 0 := by
  simp [codewordErrors]

/-- A configuration with this codec. -/
noncomputable def config (version : Byte) : Config :=
  { (default : Config) with
    protocolVersion := version
    fecEncode := sums
    fecDecode := correct
    fecT := 2 }

theorem config_fecEncode (version : Byte) : (config version).fecEncode = sums := by
  unfold config; dsimp only

theorem config_fecDecode (version : Byte) : (config version).fecDecode = correct := by
  unfold config; dsimp only

theorem config_fecT (version : Byte) : (config version).fecT = 2 := by
  unfold config; dsimp only

theorem corrects (version : Byte) : (config version).Corrects := by
  unfold Config.Corrects
  rw [config_fecEncode, config_fecDecode, config_fecT]
  exact fun m w h => correct_of_near (m := m) (w := w) h

theorem clean (version : Byte) : (config version).CleanCodeword := by
  unfold Config.CleanCodeword
  rw [config_fecEncode, config_fecDecode]
  refine fun m => correct_of_near (m := m) ?_
  show codewordErrors (word m) (word m) < 2
  rw [errors_self]
  omega

end Sys2Proof.Laws.Codec
end

