-- ==== Sys2Proof/Laws/Decode.lean ====
section
/-! SUPPORT. The laws of field assembly (R62, R107): a field put together from its bytes, most significant first, is
the field again, and so for a whole packet header. -/

namespace Sys2Proof

/-- Two numbers side by side: the high one times the low one's range, plus the low one. -/
theorem toNat_beside {n m : Nat} (x : BitVec n) (y : BitVec m) :
    (x ++ y).toNat = x.toNat * 2 ^ m + y.toNat := by
  rw [BitVec.toNat_append, ← Nat.shiftLeft_add_eq_or_of_lt y.isLt, Nat.shiftLeft_eq]

/-- R107: a 16-bit field as a number. -/
theorem of16_toNat (a b : Byte) : (of16 a b).toNat = 256 * a.toNat + b.toNat := by
  have h := toNat_beside a b
  simp only [of16]
  omega

/-- R107: a 32-bit field as a number. -/
theorem of32_toNat (a b c d : Byte) :
    (of32 a b c d).toNat = 16777216 * a.toNat + 65536 * b.toNat + 256 * c.toNat + d.toNat := by
  have h1 := toNat_beside a b
  have h2 := toNat_beside (a ++ b) c
  have h3 := toNat_beside (a ++ b ++ c) d
  simp only [of32]
  omega

/-- R62: a byte of a field as a number. -/
theorem byteAt_toNat {n : Nat} (v : BitVec n) (k : Nat) :
    (v.extractLsb' k 8).toNat = v.toNat / 2 ^ k % 256 := by
  simp [BitVec.extractLsb'_toNat, Nat.shiftRight_eq_div_pow]

@[simp] theorem of16_be16 (v : Half) : of16 (v.extractLsb' 8 8) (v.extractLsb' 0 8) = v := by
  apply BitVec.eq_of_toNat_eq
  rw [of16_toNat, byteAt_toNat, byteAt_toNat]
  have := v.isLt
  omega

@[simp] theorem of32_be32 (v : Quad) :
    of32 (v.extractLsb' 24 8) (v.extractLsb' 16 8) (v.extractLsb' 8 8) (v.extractLsb' 0 8) = v := by
  apply BitVec.eq_of_toNat_eq
  rw [of32_toNat, byteAt_toNat, byteAt_toNat, byteAt_toNat, byteAt_toNat]
  have := v.isLt
  omega

theorem be16_of16 (a b : Byte) : be16 (of16 a b) = [a, b] := by
  have ha := a.isLt
  have hb := b.isLt
  simp only [be16, List.cons.injEq, and_true]
  constructor <;> apply BitVec.eq_of_toNat_eq <;> rw [byteAt_toNat, of16_toNat] <;> omega

theorem be32_of32 (a b c d : Byte) : be32 (of32 a b c d) = [a, b, c, d] := by
  have ha := a.isLt
  have hb := b.isLt
  have hc := c.isLt
  have hd := d.isLt
  simp only [be32, List.cons.injEq, and_true]
  refine ⟨?_, ?_, ?_, ?_⟩ <;> apply BitVec.eq_of_toNat_eq <;> rw [byteAt_toNat, of32_toNat] <;> omega

/-- A packet header is read back from its 13 bytes. -/
@[simp] theorem headerOf_headerBytes (h : PacketHeader) : headerOf (headerBytes h) = some h := by
  simp [headerBytes, be16, be32, headerOf]

/-- The bytes a packet header was read from are its bytes. -/
theorem headerBytes_of_headerOf {bs : List Byte} {h : PacketHeader} (hb : headerOf bs = some h) :
    headerBytes h = bs := by
  unfold headerOf at hb
  split at hb
  · simp only [Option.some.injEq] at hb
    subst hb
    simp [headerBytes, be16_of16, be32_of32]
  · exact absurd hb (by simp)

@[simp] theorem headerBytes_length (h : PacketHeader) : (headerBytes h).length = 13 := rfl

end Sys2Proof
end

