-- ==== Sys2Proof/Laws/Memory.lean ====
section
/-! SUPPORT. The laws of a frame buffer: what a byte reads as after each memory operation, and that each keeps the
canonical form. -/

namespace Sys2Proof.Machine

/-! Reading after writing -/

@[simp] theorem Memory.read_cleared (a : Nat) : Memory.read Memory.cleared a = 0x00#8 := rfl

theorem Memory.read_put (m : Memory) (a x : Nat) (b : Byte) :
    Memory.read (Memory.put m a b) x = if a = x then b else Memory.read m x := by
  induction m with
  | nil => simp [Memory.put, Memory.read]
  | cons cell m ih =>
    obtain ⟨y, d⟩ := cell
    simp only [Memory.put]
    split
    · simp [Memory.read]
    · split
      · next h => subst h; by_cases hx : y = x <;> simp [Memory.read, hx]
      · next h =>
        simp only [Memory.read, ih]
        by_cases hy : y = x
        · subst hy; simp [Ne.symm h]
        · simp [hy]

theorem Memory.read_drop (m : Memory) (a x : Nat) :
    Memory.read (Memory.drop m a) x = if a = x then Memory.blank else Memory.read m x := by
  induction m with
  | nil => simp [Memory.drop, Memory.read]
  | cons cell m ih =>
    obtain ⟨y, d⟩ := cell
    unfold Memory.drop at ih ⊢
    by_cases hy : y = a
    · subst hy
      rw [List.filter_cons_of_neg (by simp), ih]
      by_cases hx : y = x
      · simp [hx]
      · simp [Memory.read, hx]
    · by_cases hx : y = x
      · subst hx; simp [Memory.read, hy, Ne.symm hy]
      · simp [Memory.read, hy, hx, ih]

/-- A byte written is read back, and every other byte reads as before. -/
theorem Memory.read_write (m : Memory) (a x : Nat) (b : Byte) :
    Memory.read (Memory.write m a b) x = if a = x then b else Memory.read m x := by
  unfold Memory.write
  split
  · next h => rw [Memory.read_drop, h]
  · exact Memory.read_put m a x b

@[simp] theorem Memory.read_write_same (m : Memory) (a : Nat) (b : Byte) :
    Memory.read (Memory.write m a b) a = b := by
  simp [Memory.read_write]

theorem Memory.read_write_other (m : Memory) (a x : Nat) (b : Byte) (h : a ≠ x) :
    Memory.read (Memory.write m a b) x = Memory.read m x := by
  simp [Memory.read_write, h]

/-- Consecutive bytes written are read back, and every other byte reads as before. -/
theorem Memory.read_writeBytes (m : Memory) (a x : Nat) (bs : List Byte) :
    Memory.read (Memory.writeBytes m a bs) x =
      if a ≤ x then bs.getD (x - a) (Memory.read m x) else Memory.read m x := by
  induction bs generalizing m a with
  | nil => simp [Memory.writeBytes]
  | cons b bs ih =>
    rw [Memory.writeBytes, ih, Memory.read_write]
    by_cases hx : a = x
    · subst hx; simp
    · by_cases hle : a ≤ x
      · obtain ⟨k, rfl⟩ : ∃ k, x = a + 1 + k := ⟨x - (a + 1), by omega⟩
        simp [hle, show a ≠ a + 1 + k by omega, show a + 1 + k - a = k + 1 by omega]
      · simp [hx, hle, show ¬ a + 1 ≤ x by omega]

theorem Memory.read_writeBytes_outside (m : Memory) (a x : Nat) (bs : List Byte)
    (h : x < a ∨ a + bs.length ≤ x) :
    Memory.read (Memory.writeBytes m a bs) x = Memory.read m x := by
  rw [Memory.read_writeBytes]
  split
  · rw [List.getD_eq_default]; omega
  · rfl

theorem Memory.read_writeBytes_inside (m : Memory) (a k : Nat) (bs : List Byte) (h : k < bs.length) :
    Memory.read (Memory.writeBytes m a bs) (a + k) = bs[k] := by
  simp [Memory.read_writeBytes, h]

@[simp] theorem be16_length (v : Half) : (be16 v).length = 2 := rfl

@[simp] theorem be32_length (v : Quad) : (be32 v).length = 4 := rfl

/-! The canonical form -/

theorem Memory.rising_of_le {lo lo' : Nat} {m : Memory} (h : lo' ≤ lo) (hm : Memory.rising lo m = true) :
    Memory.rising lo' m = true := by
  cases m with
  | nil => rfl
  | cons cell m =>
    obtain ⟨x, b⟩ := cell
    simp only [Memory.rising, Bool.and_eq_true, decide_eq_true_eq] at hm ⊢
    exact ⟨by omega, hm.2⟩

theorem Memory.rising_put {lo a : Nat} {m : Memory} (b : Byte) (ha : lo ≤ a)
    (hm : Memory.rising lo m = true) : Memory.rising lo (Memory.put m a b) = true := by
  induction m generalizing lo with
  | nil => simp [Memory.put, Memory.rising, ha]
  | cons cell m ih =>
    obtain ⟨x, d⟩ := cell
    simp only [Memory.rising, Bool.and_eq_true, decide_eq_true_eq] at hm
    simp only [Memory.put]
    split
    · simp only [Memory.rising, Bool.and_eq_true, decide_eq_true_eq]
      exact ⟨ha, by omega, hm.2⟩
    · split
      · next h =>
        subst h
        simp only [Memory.rising, Bool.and_eq_true, decide_eq_true_eq]
        exact hm
      · simp only [Memory.rising, Bool.and_eq_true, decide_eq_true_eq]
        exact ⟨hm.1, ih (by omega) hm.2⟩

theorem Memory.rising_drop {lo : Nat} {m : Memory} (a : Nat) (hm : Memory.rising lo m = true) :
    Memory.rising lo (Memory.drop m a) = true := by
  induction m generalizing lo with
  | nil => rfl
  | cons cell m ih =>
    obtain ⟨x, d⟩ := cell
    simp only [Memory.rising, Bool.and_eq_true, decide_eq_true_eq] at hm
    unfold Memory.drop at ih ⊢
    rw [List.filter_cons]
    split
    · simp only [Memory.rising, Bool.and_eq_true, decide_eq_true_eq]
      exact ⟨hm.1, ih hm.2⟩
    · exact Memory.rising_of_le (by omega) (ih hm.2)

theorem Memory.mem_put {m : Memory} {a : Nat} {b : Byte} {cell : Host.Cell}
    (h : cell ∈ Memory.put m a b) : cell = (a, b) ∨ cell ∈ m := by
  induction m with
  | nil => simpa [Memory.put] using h
  | cons y m ih =>
    obtain ⟨x, d⟩ := y
    simp only [Memory.put] at h
    split at h
    · simpa using h
    · split at h
      · rcases List.mem_cons.mp h with h | h
        · exact .inl h
        · exact .inr (List.mem_cons_of_mem _ h)
      · rcases List.mem_cons.mp h with h | h
        · exact .inr (by simp [h])
        · rcases ih h with h | h
          · exact .inl h
          · exact .inr (List.mem_cons_of_mem _ h)

@[simp] theorem Memory.wf_cleared : Memory.wf Memory.cleared = true := rfl

theorem Memory.wf_drop {m : Memory} (a : Nat) (hm : Memory.wf m = true) :
    Memory.wf (Memory.drop m a) = true := by
  simp only [Memory.wf, Bool.and_eq_true, List.all_eq_true] at hm ⊢
  exact ⟨Memory.rising_drop a hm.1, fun cell hc => hm.2 cell (List.mem_filter.mp hc).1⟩

theorem Memory.wf_put {m : Memory} {a : Nat} {b : Byte} (ha : a < 256) (hb : b ≠ Memory.blank)
    (hm : Memory.wf m = true) : Memory.wf (Memory.put m a b) = true := by
  simp only [Memory.wf, Bool.and_eq_true, List.all_eq_true] at hm ⊢
  refine ⟨Memory.rising_put b (Nat.zero_le a) hm.1, fun cell hc => ?_⟩
  rcases Memory.mem_put hc with rfl | hc
  · simpa using ⟨ha, hb⟩
  · exact hm.2 cell hc

/-- A write to a byte of the buffer keeps the canonical form. -/
theorem Memory.wf_write {m : Memory} {a : Nat} (b : Byte) (ha : a < 256) (hm : Memory.wf m = true) :
    Memory.wf (Memory.write m a b) = true := by
  unfold Memory.write
  split
  · exact Memory.wf_drop a hm
  · next h => exact Memory.wf_put ha h hm

/-- Writes to consecutive bytes of the buffer keep the canonical form. -/
theorem Memory.wf_writeBytes {m : Memory} {a : Nat} {bs : List Byte} (ha : a + bs.length ≤ 256)
    (hm : Memory.wf m = true) : Memory.wf (Memory.writeBytes m a bs) = true := by
  induction bs generalizing m a with
  | nil => exact hm
  | cons b bs ih =>
    simp only [List.length_cons] at ha
    exact ih (by omega) (Memory.wf_write b (by omega) hm)

theorem Memory.wf_write16 {m : Memory} {a : Nat} (v : Half) (ha : a + 2 ≤ 256) (hm : Memory.wf m = true) :
    Memory.wf (Memory.write16 m a v) = true :=
  Memory.wf_writeBytes ha hm

theorem Memory.wf_write32 {m : Memory} {a : Nat} (v : Quad) (ha : a + 4 ≤ 256) (hm : Memory.wf m = true) :
    Memory.wf (Memory.write32 m a v) = true :=
  Memory.wf_writeBytes ha hm

theorem Memory.wf_ofBytes (f : Nat → Byte) : Memory.wf (Memory.ofBytes f) = true :=
  Memory.wf_writeBytes (by simp) Memory.wf_cleared

theorem wf_writeFrameHdr {m : Memory} (v : Byte) (n : Half) (hm : Memory.wf m = true) :
    Memory.wf (writeFrameHdr m v n) = true :=
  Memory.wf_write16 n (by omega) (Memory.wf_write v (by omega) (Memory.wf_write _ (by omega) hm))

theorem wf_writePktHdr {m : Memory} (v : Byte) (h : PacketHeader) (hm : Memory.wf m = true) :
    Memory.wf (writePktHdr m v h) = true :=
  Memory.wf_write16 _ (by omega) <| Memory.wf_write32 _ (by omega) <| Memory.wf_write32 _ (by omega) <|
    Memory.wf_write16 _ (by omega) <| Memory.wf_write _ (by omega) <| Memory.wf_write _ (by omega) hm

theorem wf_writeParity {m : Memory} (q : Parity) (hm : Memory.wf m = true) :
    Memory.wf (writeParity m q) = true :=
  Memory.wf_writeBytes (by rw [List.length_ofFn]) hm

theorem wf_writeMessage {m : Memory} (msg : Message) (hm : Memory.wf m = true) :
    Memory.wf (writeMessage m msg) = true :=
  Memory.wf_writeBytes (by rw [List.length_ofFn]; omega) hm

/-- The buffers of the machine after reset are in canonical form. -/
theorem wf_reset : Memory.wf State.reset.enc.fbuf = true ∧ Memory.wf State.reset.dec.fbuf = true :=
  ⟨rfl, rfl⟩

/-! The parts the codec sees -/

theorem read_writeParity (m : Memory) (q : Parity) (x : Nat) :
    Memory.read (writeParity m q) x =
      if h : 224 ≤ x ∧ x < 256 then q ⟨x - 224, by omega⟩ else Memory.read m x := by
  unfold writeParity
  split
  · next h =>
    obtain ⟨k, rfl⟩ : ∃ k, x = 224 + k := ⟨x - 224, by omega⟩
    rw [Memory.read_writeBytes_inside _ _ _ _ (by rw [List.length_ofFn]; omega), List.getElem_ofFn]
    exact congrArg q (Fin.ext (show k = 224 + k - 224 by omega))
  · next h => exact Memory.read_writeBytes_outside _ _ _ _ (by rw [List.length_ofFn]; omega)

theorem read_writeMessage (m : Memory) (msg : Message) (x : Nat) :
    Memory.read (writeMessage m msg) x =
      if h : 1 ≤ x ∧ x < 224 then msg ⟨x - 1, by omega⟩ else Memory.read m x := by
  unfold writeMessage
  split
  · next h =>
    obtain ⟨k, rfl⟩ : ∃ k, x = 1 + k := ⟨x - 1, by omega⟩
    rw [Memory.read_writeBytes_inside _ _ _ _ (by rw [List.length_ofFn]; omega), List.getElem_ofFn]
    exact congrArg msg (Fin.ext (show k = 1 + k - 1 by omega))
  · next h => exact Memory.read_writeBytes_outside _ _ _ _ (by rw [List.length_ofFn]; omega)

end Sys2Proof.Machine
end

