-- ==== Sys2Proof/Laws/State.lean ====
section
/-! SUPPORT. One lemma per field per shared update of the state, so that no proof unfolds a record update. -/

namespace Sys2Proof.Machine

/-! The end of a command (R27, R72) -/

@[simp] theorem endCommand_enc_seq (st : EncStatus) (n : Half) (s : State) :
    (endCommand st n s).enc.seq = s.enc.seq := rfl

@[simp] theorem endCommand_enc_hdr (st : EncStatus) (n : Half) (s : State) :
    (endCommand st n s).enc.hdr = s.enc.hdr := rfl

@[simp] theorem endCommand_enc_todo (st : EncStatus) (n : Half) (s : State) :
    (endCommand st n s).enc.todo = s.enc.todo := rfl

@[simp] theorem endCommand_enc_first (st : EncStatus) (n : Half) (s : State) :
    (endCommand st n s).enc.first = s.enc.first := rfl

@[simp] theorem endCommand_enc_count (st : EncStatus) (n : Half) (s : State) :
    (endCommand st n s).enc.count = s.enc.count := rfl

@[simp] theorem endCommand_enc_phase (st : EncStatus) (n : Half) (s : State) :
    (endCommand st n s).enc.phase = .idle := rfl

@[simp] theorem endCommand_enc_idx (st : EncStatus) (n : Half) (s : State) :
    (endCommand st n s).enc.idx = s.enc.idx := rfl

@[simp] theorem endCommand_enc_fbuf (st : EncStatus) (n : Half) (s : State) :
    (endCommand st n s).enc.fbuf = s.enc.fbuf := rfl

@[simp] theorem endCommand_enc_res (st : EncStatus) (n : Half) (s : State) :
    (endCommand st n s).enc.res = ⟨st, n⟩ := rfl

@[simp] theorem endCommand_enc_rspDue (st : EncStatus) (n : Half) (s : State) :
    (endCommand st n s).enc.rspDue = true := rfl

@[simp] theorem endCommand_dec (st : EncStatus) (n : Half) (s : State) :
    (endCommand st n s).dec = s.dec := rfl

@[simp] theorem endCommand_src (st : EncStatus) (n : Half) (s : State) :
    (endCommand st n s).src = s.src := rfl

@[simp] theorem endCommand_tx (st : EncStatus) (n : Half) (s : State) :
    (endCommand st n s).tx = s.tx := rfl

@[simp] theorem endCommand_wire (st : EncStatus) (n : Half) (s : State) :
    (endCommand st n s).wire = s.wire := rfl

@[simp] theorem endCommand_rx (st : EncStatus) (n : Half) (s : State) :
    (endCommand st n s).rx = s.rx := rfl

@[simp] theorem endCommand_snk (st : EncStatus) (n : Half) (s : State) :
    (endCommand st n s).snk = s.snk := rfl

@[simp] theorem endCommand_sunk (st : EncStatus) (n : Half) (s : State) :
    (endCommand st n s).sunk = s.sunk := rfl

@[simp] theorem endCommand_evt (st : EncStatus) (n : Half) (s : State) :
    (endCommand st n s).evt = s.evt := rfl

@[simp] theorem endCommand_events (st : EncStatus) (n : Half) (s : State) :
    (endCommand st n s).events = s.events := rfl

@[simp] theorem endCommand_encCmd (st : EncStatus) (n : Half) (s : State) :
    (endCommand st n s).encCmd = s.encCmd := rfl

@[simp] theorem endCommand_encRsp (st : EncStatus) (n : Half) (s : State) :
    (endCommand st n s).encRsp = s.encRsp := rfl

@[simp] theorem endCommand_encRsps (st : EncStatus) (n : Half) (s : State) :
    (endCommand st n s).encRsps = s.encRsps := rfl

@[simp] theorem endCommand_decCmd (st : EncStatus) (n : Half) (s : State) :
    (endCommand st n s).decCmd = s.decCmd := rfl

@[simp] theorem endCommand_decRsp (st : EncStatus) (n : Half) (s : State) :
    (endCommand st n s).decRsp = s.decRsp := rfl

@[simp] theorem endCommand_decRsps (st : EncStatus) (n : Half) (s : State) :
    (endCommand st n s).decRsps = s.decRsps := rfl

@[simp] theorem endCommand_turns (st : EncStatus) (n : Half) (s : State) :
    (endCommand st n s).turns = s.turns := rfl

@[simp] theorem endCommand_encResets (st : EncStatus) (n : Half) (s : State) :
    (endCommand st n s).encResets = s.encResets := rfl

@[simp] theorem endCommand_decResets (st : EncStatus) (n : Half) (s : State) :
    (endCommand st n s).decResets = s.decResets := rfl

/-! The end of a session (R209) -/

@[simp] theorem endSession_enc (st : DecStatus) (s : State) :
    (endSession st s).enc = s.enc := rfl

@[simp] theorem endSession_dec_mode (st : DecStatus) (s : State) :
    (endSession st s).dec.mode = s.dec.mode := rfl

@[simp] theorem endSession_dec_rem (st : DecStatus) (s : State) :
    (endSession st s).dec.rem = s.dec.rem := rfl

@[simp] theorem endSession_dec_hdr (st : DecStatus) (s : State) :
    (endSession st s).dec.hdr = s.dec.hdr := rfl

@[simp] theorem endSession_dec_phase (st : DecStatus) (s : State) :
    (endSession st s).dec.phase = .idle := rfl

@[simp] theorem endSession_dec_idx (st : DecStatus) (s : State) :
    (endSession st s).dec.idx = s.dec.idx := rfl

@[simp] theorem endSession_dec_scan (st : DecStatus) (s : State) :
    (endSession st s).dec.scan = s.dec.scan := rfl

@[simp] theorem endSession_dec_fbuf (st : DecStatus) (s : State) :
    (endSession st s).dec.fbuf = s.dec.fbuf := rfl

@[simp] theorem endSession_dec_seqRx (st : DecStatus) (s : State) :
    (endSession st s).dec.seqRx = s.dec.seqRx := rfl

@[simp] theorem endSession_dec_status (st : DecStatus) (s : State) :
    (endSession st s).dec.status = st := rfl

@[simp] theorem endSession_dec_rspDue (st : DecStatus) (s : State) :
    (endSession st s).dec.rspDue = true := rfl

@[simp] theorem endSession_dec_refused (st : DecStatus) (s : State) :
    (endSession st s).dec.refused = s.dec.refused := rfl

@[simp] theorem endSession_src (st : DecStatus) (s : State) :
    (endSession st s).src = s.src := rfl

@[simp] theorem endSession_tx (st : DecStatus) (s : State) :
    (endSession st s).tx = s.tx := rfl

@[simp] theorem endSession_wire (st : DecStatus) (s : State) :
    (endSession st s).wire = s.wire := rfl

@[simp] theorem endSession_rx (st : DecStatus) (s : State) :
    (endSession st s).rx = s.rx := rfl

@[simp] theorem endSession_snk (st : DecStatus) (s : State) :
    (endSession st s).snk = s.snk := rfl

@[simp] theorem endSession_sunk (st : DecStatus) (s : State) :
    (endSession st s).sunk = s.sunk := rfl

@[simp] theorem endSession_evt (st : DecStatus) (s : State) :
    (endSession st s).evt = s.evt := rfl

@[simp] theorem endSession_events (st : DecStatus) (s : State) :
    (endSession st s).events = s.events := rfl

@[simp] theorem endSession_encCmd (st : DecStatus) (s : State) :
    (endSession st s).encCmd = s.encCmd := rfl

@[simp] theorem endSession_encRsp (st : DecStatus) (s : State) :
    (endSession st s).encRsp = s.encRsp := rfl

@[simp] theorem endSession_encRsps (st : DecStatus) (s : State) :
    (endSession st s).encRsps = s.encRsps := rfl

@[simp] theorem endSession_decCmd (st : DecStatus) (s : State) :
    (endSession st s).decCmd = s.decCmd := rfl

@[simp] theorem endSession_decRsp (st : DecStatus) (s : State) :
    (endSession st s).decRsp = s.decRsp := rfl

@[simp] theorem endSession_decRsps (st : DecStatus) (s : State) :
    (endSession st s).decRsps = s.decRsps := rfl

@[simp] theorem endSession_turns (st : DecStatus) (s : State) :
    (endSession st s).turns = s.turns := rfl

@[simp] theorem endSession_encResets (st : DecStatus) (s : State) :
    (endSession st s).encResets = s.encResets := rfl

@[simp] theorem endSession_decResets (st : DecStatus) (s : State) :
    (endSession st s).decResets = s.decResets := rfl

/-! An event (R71) -/

@[simp] theorem sendEvent_enc (h : PacketHeader) (v : Bool) (s : State) :
    (sendEvent h v s).enc = s.enc := rfl

@[simp] theorem sendEvent_dec (h : PacketHeader) (v : Bool) (s : State) :
    (sendEvent h v s).dec = s.dec := rfl

@[simp] theorem sendEvent_src (h : PacketHeader) (v : Bool) (s : State) :
    (sendEvent h v s).src = s.src := rfl

@[simp] theorem sendEvent_tx (h : PacketHeader) (v : Bool) (s : State) :
    (sendEvent h v s).tx = s.tx := rfl

@[simp] theorem sendEvent_wire (h : PacketHeader) (v : Bool) (s : State) :
    (sendEvent h v s).wire = s.wire := rfl

@[simp] theorem sendEvent_rx (h : PacketHeader) (v : Bool) (s : State) :
    (sendEvent h v s).rx = s.rx := rfl

@[simp] theorem sendEvent_snk (h : PacketHeader) (v : Bool) (s : State) :
    (sendEvent h v s).snk = s.snk := rfl

@[simp] theorem sendEvent_sunk (h : PacketHeader) (v : Bool) (s : State) :
    (sendEvent h v s).sunk = s.sunk := rfl

@[simp] theorem sendEvent_evt (h : PacketHeader) (v : Bool) (s : State) :
    (sendEvent h v s).evt = s.evt := rfl

@[simp] theorem sendEvent_events (h : PacketHeader) (v : Bool) (s : State) :
    (sendEvent h v s).events = s.events ++ [⟨h, v⟩] := rfl

@[simp] theorem sendEvent_encCmd (h : PacketHeader) (v : Bool) (s : State) :
    (sendEvent h v s).encCmd = s.encCmd := rfl

@[simp] theorem sendEvent_encRsp (h : PacketHeader) (v : Bool) (s : State) :
    (sendEvent h v s).encRsp = s.encRsp := rfl

@[simp] theorem sendEvent_encRsps (h : PacketHeader) (v : Bool) (s : State) :
    (sendEvent h v s).encRsps = s.encRsps := rfl

@[simp] theorem sendEvent_decCmd (h : PacketHeader) (v : Bool) (s : State) :
    (sendEvent h v s).decCmd = s.decCmd := rfl

@[simp] theorem sendEvent_decRsp (h : PacketHeader) (v : Bool) (s : State) :
    (sendEvent h v s).decRsp = s.decRsp := rfl

@[simp] theorem sendEvent_decRsps (h : PacketHeader) (v : Bool) (s : State) :
    (sendEvent h v s).decRsps = s.decRsps := rfl

@[simp] theorem sendEvent_turns (h : PacketHeader) (v : Bool) (s : State) :
    (sendEvent h v s).turns = s.turns := rfl

@[simp] theorem sendEvent_encResets (h : PacketHeader) (v : Bool) (s : State) :
    (sendEvent h v s).encResets = s.encResets := rfl

@[simp] theorem sendEvent_decResets (h : PacketHeader) (v : Bool) (s : State) :
    (sendEvent h v s).decResets = s.decResets := rfl

/-! The end of a packet (R206 to R208) -/

@[simp] theorem closePacket_enc (v : Bool) (s : State) :
    (closePacket v s).enc = s.enc := rfl

@[simp] theorem closePacket_dec_mode (v : Bool) (s : State) :
    (closePacket v s).dec.mode = .awaitingHeader := rfl

@[simp] theorem closePacket_dec_rem (v : Bool) (s : State) :
    (closePacket v s).dec.rem = s.dec.rem := rfl

@[simp] theorem closePacket_dec_hdr (v : Bool) (s : State) :
    (closePacket v s).dec.hdr = s.dec.hdr := rfl

@[simp] theorem closePacket_dec_phase (v : Bool) (s : State) :
    (closePacket v s).dec.phase = .sync := rfl

@[simp] theorem closePacket_dec_idx (v : Bool) (s : State) :
    (closePacket v s).dec.idx = s.dec.idx := rfl

@[simp] theorem closePacket_dec_scan (v : Bool) (s : State) :
    (closePacket v s).dec.scan = .hunt := rfl

@[simp] theorem closePacket_dec_fbuf (v : Bool) (s : State) :
    (closePacket v s).dec.fbuf = s.dec.fbuf := rfl

@[simp] theorem closePacket_dec_seqRx (v : Bool) (s : State) :
    (closePacket v s).dec.seqRx = s.dec.seqRx := rfl

@[simp] theorem closePacket_dec_status (v : Bool) (s : State) :
    (closePacket v s).dec.status = s.dec.status := rfl

@[simp] theorem closePacket_dec_rspDue (v : Bool) (s : State) :
    (closePacket v s).dec.rspDue = s.dec.rspDue := rfl

@[simp] theorem closePacket_dec_refused (v : Bool) (s : State) :
    (closePacket v s).dec.refused = false := rfl

@[simp] theorem closePacket_src (v : Bool) (s : State) :
    (closePacket v s).src = s.src := rfl

@[simp] theorem closePacket_tx (v : Bool) (s : State) :
    (closePacket v s).tx = s.tx := rfl

@[simp] theorem closePacket_wire (v : Bool) (s : State) :
    (closePacket v s).wire = s.wire := rfl

@[simp] theorem closePacket_rx (v : Bool) (s : State) :
    (closePacket v s).rx = s.rx := rfl

@[simp] theorem closePacket_snk (v : Bool) (s : State) :
    (closePacket v s).snk = s.snk := rfl

@[simp] theorem closePacket_sunk (v : Bool) (s : State) :
    (closePacket v s).sunk = s.sunk := rfl

@[simp] theorem closePacket_evt (v : Bool) (s : State) :
    (closePacket v s).evt = s.evt.pop := rfl

@[simp] theorem closePacket_events (v : Bool) (s : State) :
    (closePacket v s).events = s.events ++ [⟨s.dec.hdr, v⟩] := rfl

@[simp] theorem closePacket_encCmd (v : Bool) (s : State) :
    (closePacket v s).encCmd = s.encCmd := rfl

@[simp] theorem closePacket_encRsp (v : Bool) (s : State) :
    (closePacket v s).encRsp = s.encRsp := rfl

@[simp] theorem closePacket_encRsps (v : Bool) (s : State) :
    (closePacket v s).encRsps = s.encRsps := rfl

@[simp] theorem closePacket_decCmd (v : Bool) (s : State) :
    (closePacket v s).decCmd = s.decCmd := rfl

@[simp] theorem closePacket_decRsp (v : Bool) (s : State) :
    (closePacket v s).decRsp = s.decRsp := rfl

@[simp] theorem closePacket_decRsps (v : Bool) (s : State) :
    (closePacket v s).decRsps = s.decRsps := rfl

@[simp] theorem closePacket_turns (v : Bool) (s : State) :
    (closePacket v s).turns = s.turns := rfl

@[simp] theorem closePacket_encResets (v : Bool) (s : State) :
    (closePacket v s).encResets = s.encResets := rfl

@[simp] theorem closePacket_decResets (v : Bool) (s : State) :
    (closePacket v s).decResets = s.decResets := rfl

/-! A reset of ENC (R310) -/

@[simp] theorem resetEnc_enc (c : Config) (s : State) :
    (resetEnc c s).enc = encAfterReset c s.encResets := rfl

@[simp] theorem resetEnc_dec (c : Config) (s : State) :
    (resetEnc c s).dec = s.dec := rfl

@[simp] theorem resetEnc_src (c : Config) (s : State) :
    (resetEnc c s).src = s.src := rfl

@[simp] theorem resetEnc_tx (c : Config) (s : State) :
    (resetEnc c s).tx = s.tx := rfl

@[simp] theorem resetEnc_wire (c : Config) (s : State) :
    (resetEnc c s).wire = s.wire := rfl

@[simp] theorem resetEnc_rx (c : Config) (s : State) :
    (resetEnc c s).rx = s.rx := rfl

@[simp] theorem resetEnc_snk (c : Config) (s : State) :
    (resetEnc c s).snk = s.snk := rfl

@[simp] theorem resetEnc_sunk (c : Config) (s : State) :
    (resetEnc c s).sunk = s.sunk := rfl

@[simp] theorem resetEnc_evt (c : Config) (s : State) :
    (resetEnc c s).evt = s.evt := rfl

@[simp] theorem resetEnc_events (c : Config) (s : State) :
    (resetEnc c s).events = s.events := rfl

@[simp] theorem resetEnc_encCmd (c : Config) (s : State) :
    (resetEnc c s).encCmd = s.encCmd := rfl

@[simp] theorem resetEnc_encRsp (c : Config) (s : State) :
    (resetEnc c s).encRsp = s.encRsp := rfl

@[simp] theorem resetEnc_encRsps (c : Config) (s : State) :
    (resetEnc c s).encRsps = s.encRsps := rfl

@[simp] theorem resetEnc_decCmd (c : Config) (s : State) :
    (resetEnc c s).decCmd = s.decCmd := rfl

@[simp] theorem resetEnc_decRsp (c : Config) (s : State) :
    (resetEnc c s).decRsp = s.decRsp := rfl

@[simp] theorem resetEnc_decRsps (c : Config) (s : State) :
    (resetEnc c s).decRsps = s.decRsps := rfl

@[simp] theorem resetEnc_turns (c : Config) (s : State) :
    (resetEnc c s).turns = s.turns := rfl

@[simp] theorem resetEnc_encResets (c : Config) (s : State) :
    (resetEnc c s).encResets = s.encResets + 1 := rfl

@[simp] theorem resetEnc_decResets (c : Config) (s : State) :
    (resetEnc c s).decResets = s.decResets := rfl

/-! A reset of DEC (R310) -/

@[simp] theorem resetDec_enc (c : Config) (s : State) :
    (resetDec c s).enc = s.enc := rfl

@[simp] theorem resetDec_dec (c : Config) (s : State) :
    (resetDec c s).dec = decAfterReset c s.decResets := rfl

@[simp] theorem resetDec_src (c : Config) (s : State) :
    (resetDec c s).src = s.src := rfl

@[simp] theorem resetDec_tx (c : Config) (s : State) :
    (resetDec c s).tx = s.tx := rfl

@[simp] theorem resetDec_wire (c : Config) (s : State) :
    (resetDec c s).wire = s.wire := rfl

@[simp] theorem resetDec_rx (c : Config) (s : State) :
    (resetDec c s).rx = s.rx := rfl

@[simp] theorem resetDec_snk (c : Config) (s : State) :
    (resetDec c s).snk = s.snk := rfl

@[simp] theorem resetDec_sunk (c : Config) (s : State) :
    (resetDec c s).sunk = s.sunk := rfl

@[simp] theorem resetDec_evt (c : Config) (s : State) :
    (resetDec c s).evt = s.evt := rfl

@[simp] theorem resetDec_events (c : Config) (s : State) :
    (resetDec c s).events = s.events := rfl

@[simp] theorem resetDec_encCmd (c : Config) (s : State) :
    (resetDec c s).encCmd = s.encCmd := rfl

@[simp] theorem resetDec_encRsp (c : Config) (s : State) :
    (resetDec c s).encRsp = s.encRsp := rfl

@[simp] theorem resetDec_encRsps (c : Config) (s : State) :
    (resetDec c s).encRsps = s.encRsps := rfl

@[simp] theorem resetDec_decCmd (c : Config) (s : State) :
    (resetDec c s).decCmd = s.decCmd := rfl

@[simp] theorem resetDec_decRsp (c : Config) (s : State) :
    (resetDec c s).decRsp = s.decRsp := rfl

@[simp] theorem resetDec_decRsps (c : Config) (s : State) :
    (resetDec c s).decRsps = s.decRsps := rfl

@[simp] theorem resetDec_turns (c : Config) (s : State) :
    (resetDec c s).turns = s.turns := rfl

@[simp] theorem resetDec_encResets (c : Config) (s : State) :
    (resetDec c s).encResets = s.encResets := rfl

@[simp] theorem resetDec_decResets (c : Config) (s : State) :
    (resetDec c s).decResets = s.decResets + 1 := rfl

/-! Bytes that arrive on the wire (R61, R67) -/

@[simp] theorem arrive_enc (bs : List Byte) (s : State) :
    (arrive bs s).enc = s.enc := rfl

@[simp] theorem arrive_dec (bs : List Byte) (s : State) :
    (arrive bs s).dec = s.dec := rfl

@[simp] theorem arrive_src (bs : List Byte) (s : State) :
    (arrive bs s).src = s.src := rfl

@[simp] theorem arrive_tx (bs : List Byte) (s : State) :
    (arrive bs s).tx = s.tx := rfl

@[simp] theorem arrive_wire (bs : List Byte) (s : State) :
    (arrive bs s).wire = s.wire := rfl

@[simp] theorem arrive_rx (bs : List Byte) (s : State) :
    (arrive bs s).rx = s.rx.supply (bs.map some) := rfl

@[simp] theorem arrive_snk (bs : List Byte) (s : State) :
    (arrive bs s).snk = s.snk := rfl

@[simp] theorem arrive_sunk (bs : List Byte) (s : State) :
    (arrive bs s).sunk = s.sunk := rfl

@[simp] theorem arrive_evt (bs : List Byte) (s : State) :
    (arrive bs s).evt = s.evt := rfl

@[simp] theorem arrive_events (bs : List Byte) (s : State) :
    (arrive bs s).events = s.events := rfl

@[simp] theorem arrive_encCmd (bs : List Byte) (s : State) :
    (arrive bs s).encCmd = s.encCmd := rfl

@[simp] theorem arrive_encRsp (bs : List Byte) (s : State) :
    (arrive bs s).encRsp = s.encRsp := rfl

@[simp] theorem arrive_encRsps (bs : List Byte) (s : State) :
    (arrive bs s).encRsps = s.encRsps := rfl

@[simp] theorem arrive_decCmd (bs : List Byte) (s : State) :
    (arrive bs s).decCmd = s.decCmd := rfl

@[simp] theorem arrive_decRsp (bs : List Byte) (s : State) :
    (arrive bs s).decRsp = s.decRsp := rfl

@[simp] theorem arrive_decRsps (bs : List Byte) (s : State) :
    (arrive bs s).decRsps = s.decRsps := rfl

@[simp] theorem arrive_turns (bs : List Byte) (s : State) :
    (arrive bs s).turns = s.turns := rfl

@[simp] theorem arrive_encResets (bs : List Byte) (s : State) :
    (arrive bs s).encResets = s.encResets := rfl

@[simp] theorem arrive_decResets (bs : List Byte) (s : State) :
    (arrive bs s).decResets = s.decResets := rfl

/-! The registers after a reset (R310) -/

@[simp] theorem encAfterReset_seq (c : Config) (n : Nat) : (encAfterReset c n).seq = c.seqInit := rfl

@[simp] theorem encAfterReset_phase (c : Config) (n : Nat) : (encAfterReset c n).phase = .idle := rfl

@[simp] theorem encAfterReset_res (c : Config) (n : Nat) : (encAfterReset c n).res = ⟨.none, 0⟩ := rfl

@[simp] theorem encAfterReset_rspDue (c : Config) (n : Nat) : (encAfterReset c n).rspDue = false := rfl

@[simp] theorem encAfterReset_hdr (c : Config) (n : Nat) : (encAfterReset c n).hdr = (c.encUnset n).hdr := rfl

@[simp] theorem encAfterReset_fbuf (c : Config) (n : Nat) :
    (encAfterReset c n).fbuf = Memory.ofBytes (c.encUnsetByte n) := by
  simp only [encAfterReset]

theorem encAfterReset_todo (c : Config) (n : Nat) : (encAfterReset c n).todo.toNat ≤ 65521 := by
  have := (c.encUnset n).todo.isLt
  simp only [encAfterReset, BitVec.toNat_ofNat]
  omega

theorem encAfterReset_count (c : Config) (n : Nat) : (encAfterReset c n).count.toNat ≤ 298 := by
  have := (c.encUnset n).count.isLt
  simp only [encAfterReset, BitVec.toNat_ofNat]
  omega

theorem decAfterReset_rem (c : Config) (n : Nat) : (decAfterReset c n).rem.toNat ≤ 65521 := by
  have := (c.decUnset n).rem.isLt
  simp only [decAfterReset, BitVec.toNat_ofNat]
  omega

@[simp] theorem decAfterReset_fbuf (c : Config) (n : Nat) :
    (decAfterReset c n).fbuf = Memory.ofBytes (c.decUnsetByte n) := by
  simp only [decAfterReset]

@[simp] theorem decAfterReset_mode (c : Config) (n : Nat) : (decAfterReset c n).mode = .awaitingHeader := rfl

@[simp] theorem decAfterReset_scan (c : Config) (n : Nat) : (decAfterReset c n).scan = .hunt := rfl

@[simp] theorem decAfterReset_phase (c : Config) (n : Nat) : (decAfterReset c n).phase = .idle := rfl

@[simp] theorem decAfterReset_status (c : Config) (n : Nat) : (decAfterReset c n).status = .none := rfl

@[simp] theorem decAfterReset_rspDue (c : Config) (n : Nat) : (decAfterReset c n).rspDue = false := rfl

@[simp] theorem decAfterReset_refused (c : Config) (n : Nat) : (decAfterReset c n).refused = false := rfl

end Sys2Proof.Machine
end

