-- ==== Sys2Proof/Laws/Ops.lean ====
section
/-! SUPPORT. For each shared operation, one lemma that says once everything it can do; proofs about a step cite these
instead of unfolding the operation. -/

namespace Sys2Proof.Machine

/-! Transactions that may have to wait -/

theorem onEvt_cases (c : Config) (s : State) (act : State → State) :
    (s.evt.peek c.evtDraw = none ∧ onEvt c s act = { s with evt := s.evt.pop }) ∨
    (s.evt.peek c.evtDraw = some () ∧ onEvt c s act = act s) := by
  unfold onEvt
  cases h : s.evt.peek c.evtDraw <;> simp

theorem onEvt_ready {c : Config} {s : State} (act : State → State)
    (h : s.evt.peek c.evtDraw = some ()) : onEvt c s act = act s := by
  simp [onEvt, h]

/-! The responses -/

/-- Everything ENC can do while a response is due (R72, R73). -/
theorem respondEnc_cases (c : Config) (s : State) :
    (s.encRsp.peek c.encRspDraw = none ∧ respondEnc c s = { s with encRsp := s.encRsp.pop }) ∨
    (s.encRsp.peek c.encRspDraw = some () ∧
      respondEnc c s =
        { s with
          enc := { s.enc with rspDue := false }
          encRsp := s.encRsp.pop
          encRsps := s.encRsps ++ [s.enc.res] }) := by
  unfold respondEnc
  cases h : s.encRsp.peek c.encRspDraw <;> simp

/-- Everything DEC can do while a response is due (R72, R73). -/
theorem respondDec_cases (c : Config) (s : State) :
    (s.decRsp.peek c.decRspDraw = none ∧ respondDec c s = { s with decRsp := s.decRsp.pop }) ∨
    (s.decRsp.peek c.decRspDraw = some () ∧
      respondDec c s =
        { s with
          dec := { s.dec with rspDue := false }
          decRsp := s.decRsp.pop
          decRsps := s.decRsps ++ [s.dec.status] }) := by
  unfold respondDec
  cases h : s.decRsp.peek c.decRspDraw <;> simp

/-! A step happens only in the phase that selects it -/

theorem whenSelected_eq_next {p : Prop} [Decidable p] {s t : State} :
    whenSelected p s = .next t ↔ p ∧ s = t := by
  unfold whenSelected
  split <;> simp_all

@[simp] theorem whenSelected_pos {p : Prop} [Decidable p] {s : State} (h : p) :
    whenSelected p s = .next s := by
  simp [whenSelected, h]

@[simp] theorem whenSelected_neg {p : Prop} [Decidable p] {s : State} (h : ¬ p) :
    whenSelected p s = .refused .notSelected := by
  simp [whenSelected, h]

/-! The commands -/

/-- Everything `ENCODE` can do to an ENC that takes commands or does not (R160, R72). -/
theorem offerEncode_cases (h : PacketHeader) (s : State) :
    (¬ (s.enc.phase = .idle ∧ s.enc.rspDue = false) ∧ offerEncode h s = { s with encCmd := s.encCmd ++ [h] }) ∨
    ((s.enc.phase = .idle ∧ s.enc.rspDue = false) ∧ h.len.toNat = 0 ∧
      offerEncode h s = endCommand .ok 0 { s with enc := { s.enc with hdr := h } }) ∨
    ((s.enc.phase = .idle ∧ s.enc.rspDue = false) ∧ 0 < h.len.toNat ∧ h.len.toNat < 14 ∧
      offerEncode h s = endCommand .errLen 0 { s with enc := { s.enc with hdr := h } }) ∨
    ((s.enc.phase = .idle ∧ s.enc.rspDue = false) ∧ 14 ≤ h.len.toNat ∧
      offerEncode h s =
        { s with
          enc := { s.enc with
            hdr := h, res := ⟨.none, 0⟩, todo := payloadCount h.len, first := true, count := 0,
            phase := .build } }) := by
  unfold offerEncode
  split
  · next hp =>
    unfold acceptEncode
    by_cases h0 : h.len.toNat = 0
    · exact .inr (.inl ⟨hp, h0, if_pos h0⟩)
    · rw [if_neg h0]
      by_cases h14 : h.len.toNat < 14
      · exact .inr (.inr (.inl ⟨hp, by omega, h14, if_pos h14⟩))
      · exact .inr (.inr (.inr ⟨hp, by omega, if_neg h14⟩))
  · next hp => exact .inl ⟨hp, rfl⟩

/-- Everything `DECODE_STREAM` can do (R200, R72). -/
theorem offerDecode_cases (s : State) :
    (¬ (s.dec.phase = .idle ∧ s.dec.rspDue = false) ∧ offerDecode s = { s with decCmd := s.decCmd + 1 }) ∨
    ((s.dec.phase = .idle ∧ s.dec.rspDue = false) ∧
      offerDecode s =
        { s with dec := { s.dec with mode := .awaitingHeader, scan := .hunt, status := .running, phase := .sync } }) := by
  unfold offerDecode
  split
  · next h => exact .inr ⟨h, rfl⟩
  · next h => exact .inl ⟨h, rfl⟩

/-! The steps of ENC -/

/-- Everything `E.FILL` can do (R162, R271). -/
theorem fillByte_cases (c : Config) (s : State) :
    (s.enc.pulls ∧ s.src.peek c.srcDraw = none ∧ fillByte c s = { s with src := s.src.pop }) ∨
    (s.enc.pulls ∧ s.src.peek c.srcDraw = some none ∧
      fillByte c s = endCommand .errSrc s.enc.count { s with src := s.src.pop }) ∨
    (s.enc.pulls ∧ ∃ b, s.src.peek c.srcDraw = some (some b) ∧
      fillByte c s =
        { s with
          src := s.src.pop
          enc := { s.enc with
            fbuf := Memory.write s.enc.fbuf s.enc.idx.toNat b
            idx := s.enc.idx + 1#9
            todo := s.enc.todo - 1#16 } }) ∨
    (¬ s.enc.pulls ∧ fillByte c s = { s with enc := { s.enc with phase := .parity } }) := by
  unfold fillByte
  by_cases hp : s.enc.pulls
  · rw [if_pos hp]
    rcases hs : s.src.peek c.srcDraw with _ | _ | b
    · exact .inl ⟨hp, rfl, rfl⟩
    · exact .inr (.inl ⟨hp, rfl, rfl⟩)
    · exact .inr (.inr (.inl ⟨hp, b, rfl, rfl⟩))
  · exact .inr (.inr (.inr ⟨hp, if_neg hp⟩))

/-- Everything `E.EMIT` can do (R164, R272). -/
theorem emitByte_cases (c : Config) (s : State) :
    (s.tx.peek c.txDraw = none ∧ emitByte c s = { s with tx := s.tx.pop }) ∨
    (s.tx.peek c.txDraw = some false ∧
      emitByte c s = endCommand .errTx s.enc.count { s with tx := s.tx.pop }) ∨
    (s.tx.peek c.txDraw = some true ∧ s.enc.idx.toNat < 256 ∧
      emitByte c s =
        { s with
          tx := s.tx.pop
          wire := s.wire ++ [wireByte s.enc.fbuf s.enc.idx.toNat]
          enc := { s.enc with idx := s.enc.idx + 1#9 } }) ∨
    (s.tx.peek c.txDraw = some true ∧ 256 ≤ s.enc.idx.toNat ∧ s.enc.todo.toNat = 0 ∧
      emitByte c s =
        endCommand .ok (s.enc.count + 1#16)
          { s with
            tx := s.tx.pop
            wire := s.wire ++ [wireByte s.enc.fbuf s.enc.idx.toNat]
            enc := { s.enc with count := s.enc.count + 1#16 } }) ∨
    (s.tx.peek c.txDraw = some true ∧ 256 ≤ s.enc.idx.toNat ∧ 0 < s.enc.todo.toNat ∧
      emitByte c s =
        { s with
          tx := s.tx.pop
          wire := s.wire ++ [wireByte s.enc.fbuf s.enc.idx.toNat]
          enc := { s.enc with count := s.enc.count + 1#16, phase := .build } }) := by
  unfold emitByte
  rcases s.tx.peek c.txDraw with _ | _ | _
  · exact .inl ⟨rfl, rfl⟩
  · exact .inr (.inl ⟨rfl, rfl⟩)
  · by_cases hi : s.enc.idx.toNat < 256
    · exact .inr (.inr (.inl ⟨rfl, hi, if_pos hi⟩))
    · by_cases h0 : s.enc.todo.toNat = 0
      · exact .inr (.inr (.inr (.inl ⟨rfl, by omega, h0, by simp only [if_neg hi, if_pos h0]⟩)))
      · exact .inr (.inr (.inr (.inr ⟨rfl, by omega, by omega, by simp only [if_neg hi, if_neg h0]⟩)))

/-! The steps of DEC -/

/-- Everything `D.SYNC` can do (R142, R274). -/
theorem scanByte_cases (c : Config) (s : State) :
    (s.rx.peek c.rxDraw = none ∧ scanByte c s = { s with rx := s.rx.pop }) ∨
    (s.rx.peek c.rxDraw = some none ∧ scanByte c s = endSession .endEosSync { s with rx := s.rx.pop }) ∨
    (∃ b, s.rx.peek c.rxDraw = some (some b) ∧ scan s.dec.scan b = .matched ∧
      scanByte c s =
        { s with
          rx := s.rx.pop
          dec := { s.dec with
            fbuf := Memory.write s.dec.fbuf 0 syncContByte
            idx := 1#9
            scan := .hunt
            phase := .body } }) ∨
    (∃ b t, s.rx.peek c.rxDraw = some (some b) ∧ scan s.dec.scan b = .stay t ∧
      scanByte c s = { s with rx := s.rx.pop, dec := { s.dec with scan := t } }) := by
  unfold scanByte
  rcases s.rx.peek c.rxDraw with _ | _ | b
  · exact .inl ⟨rfl, rfl⟩
  · exact .inr (.inl ⟨rfl, rfl⟩)
  · rcases hs : scan s.dec.scan b with t | _
    · exact .inr (.inr (.inr ⟨b, t, rfl, hs, by simp only [hs]⟩))
    · exact .inr (.inr (.inl ⟨b, rfl, hs, by simp only [hs]⟩))

/-- Everything `D.BODY` can do (R201, R275). -/
theorem readBody_cases (c : Config) (s : State) :
    (s.rx.peek c.rxDraw = none ∧ readBody c s = { s with rx := s.rx.pop }) ∨
    (s.rx.peek c.rxDraw = some none ∧ readBody c s = endSession .endEosBody { s with rx := s.rx.pop }) ∨
    (∃ b, s.rx.peek c.rxDraw = some (some b) ∧
      readBody c s =
        { s with
          rx := s.rx.pop
          dec := { s.dec with
            fbuf := Memory.write s.dec.fbuf s.dec.idx.toNat b
            idx := s.dec.idx + 1#9
            phase := if s.dec.idx.toNat + 1 = 256 then .validate else .body } }) := by
  unfold readBody
  rcases s.rx.peek c.rxDraw with _ | _ | b
  · exact .inl ⟨rfl, rfl⟩
  · exact .inr (.inl ⟨rfl, rfl⟩)
  · exact .inr (.inr ⟨b, rfl, rfl⟩)

/-- Everything `D.VALIDATE` can do (R202, R276, R277). -/
theorem validate_cases (c : Config) (s : State) :
    (c.fecDecode (codewordIn s.dec.fbuf) = none ∧ validate c s = endSession .endFec s) ∨
    (∃ m, c.fecDecode (codewordIn s.dec.fbuf) = some m ∧ m 0 ≠ c.protocolVersion ∧
      validate c s =
        endSession .endVersion { s with dec := { s.dec with fbuf := writeMessage s.dec.fbuf m } }) ∨
    (∃ m, c.fecDecode (codewordIn s.dec.fbuf) = some m ∧ m 0 = c.protocolVersion ∧
      validate c s =
        { s with
          dec := { s.dec with
            fbuf := writeMessage s.dec.fbuf m
            seqRx := of16 (m 1) (m 2)
            phase := .dispatch } }) := by
  unfold validate
  rcases c.fecDecode (codewordIn s.dec.fbuf) with _ | m
  · exact .inl ⟨rfl, rfl⟩
  · by_cases hv : m 0 = c.protocolVersion
    · exact .inr (.inr ⟨m, rfl, hv, if_pos hv⟩)
    · exact .inr (.inl ⟨m, rfl, hv, if_neg hv⟩)

/-- Everything `D.DISPATCH.HDR` can do (R203, R208, R279). -/
theorem dispatchHdr_cases (c : Config) (s : State) :
    ((readPktHdr s.dec.fbuf).len.toNat < 14 ∧ s.evt.peek c.evtDraw = none ∧
      dispatchHdr c s = { s with evt := s.evt.pop }) ∨
    ((readPktHdr s.dec.fbuf).len.toNat < 14 ∧ s.evt.peek c.evtDraw = some () ∧
      dispatchHdr c s = closePacket false { s with dec := { s.dec with hdr := readPktHdr s.dec.fbuf } }) ∨
    (14 ≤ (readPktHdr s.dec.fbuf).len.toNat ∧
      dispatchHdr c s =
        { s with
          dec := { s.dec with
            hdr := readPktHdr s.dec.fbuf
            rem := payloadCount (readPktHdr s.dec.fbuf).len
            idx := 18#9
            phase := .stream } }) := by
  unfold dispatchHdr
  by_cases hl : (readPktHdr s.dec.fbuf).len.toNat < 14
  · simp only [if_pos hl]
    rcases onEvt_cases c s (fun s =>
        raise .decBadLength { s with dec := { s.dec with hdr := readPktHdr s.dec.fbuf } }) with ⟨h, e⟩ | ⟨h, e⟩
    · exact .inl ⟨hl, h, by rw [← e]; rfl⟩
    · exact .inr (.inl ⟨hl, h, (onEvt_ready _ h)⟩)
  · exact .inr (.inr ⟨by omega, by simp only [if_neg hl]⟩)

/-- Everything `D.STREAM` can do (R205, R207, R278). -/
theorem streamByte_cases (c : Config) (s : State) :
    (s.dec.refused = true ∧ s.evt.peek c.evtDraw = none ∧ streamByte c s = { s with evt := s.evt.pop }) ∨
    (s.dec.refused = true ∧ s.evt.peek c.evtDraw = some () ∧ streamByte c s = closePacket false s) ∨
    (s.dec.refused = false ∧ s.snk.peek c.snkDraw = none ∧ streamByte c s = { s with snk := s.snk.pop }) ∨
    (s.dec.refused = false ∧ s.snk.peek c.snkDraw = some false ∧
      streamByte c s = { s with snk := s.snk.pop, dec := { s.dec with refused := true } }) ∨
    (s.dec.refused = false ∧ s.snk.peek c.snkDraw = some true ∧
      streamByte c s =
        { s with
          snk := s.snk.pop
          sunk := s.sunk ++ [Memory.read s.dec.fbuf s.dec.idx.toNat]
          dec := { s.dec with idx := s.dec.idx + 1#9, rem := s.dec.rem - 1#16 } }) := by
  unfold streamByte
  rcases hr : s.dec.refused
  · rcases s.snk.peek c.snkDraw with _ | _ | _
    · exact .inr (.inr (.inl ⟨rfl, rfl, rfl⟩))
    · exact .inr (.inr (.inr (.inl ⟨rfl, rfl, rfl⟩)))
    · exact .inr (.inr (.inr (.inr ⟨rfl, rfl, rfl⟩)))
  · rcases onEvt_cases c s (raise .decSinkFail) with ⟨h, e⟩ | ⟨h, e⟩
    · exact .inl ⟨rfl, h, e⟩
    · exact .inr (.inl ⟨rfl, h, e⟩)

/-- Everything `D.STREAM.END` can do (R206). -/
theorem streamEnd_cases (c : Config) (s : State) :
    (s.dec.rem.toNat = 0 ∧ s.evt.peek c.evtDraw = none ∧ streamEnd c s = { s with evt := s.evt.pop }) ∨
    (s.dec.rem.toNat = 0 ∧ s.evt.peek c.evtDraw = some () ∧ streamEnd c s = closePacket true s) ∨
    (0 < s.dec.rem.toNat ∧
      streamEnd c s = { s with dec := { s.dec with mode := .awaitingData, scan := .hunt, phase := .sync } }) := by
  unfold streamEnd
  by_cases h0 : s.dec.rem.toNat = 0
  · simp only [if_pos h0]
    rcases onEvt_cases c s (closePacket true) with ⟨h, e⟩ | ⟨h, e⟩
    · exact .inl ⟨h0, h, e⟩
    · exact .inr (.inl ⟨h0, h, e⟩)
  · exact .inr (.inr ⟨by omega, by simp only [if_neg h0]⟩)

/-- Everything `EVT.packet` can do (R71). -/
theorem makeEvent_cases (c : Config) (valid : Bool) (h : PacketHeader) (s : State) :
    (s.evt.peek c.evtDraw = none ∧ makeEvent c valid h s = { s with evt := s.evt.pop }) ∨
    (s.evt.peek c.evtDraw = some () ∧
      makeEvent c valid h s = closePacket valid { s with dec := { s.dec with hdr := h } }) :=
  onEvt_cases c s _

/-- The three places where a step of DEC makes an event (R206 to R208). -/
theorem eventNow_cases {d : Dec} {e : Event} (h : d.eventNow = some e) :
    (d.phase = .dispatch ∧ d.mode = .awaitingHeader ∧ (readPktHdr d.fbuf).len.toNat < 14 ∧
      e = ⟨readPktHdr d.fbuf, false⟩) ∨
    (d.phase = .stream ∧ d.more ∧ d.refused = true ∧ e = ⟨d.hdr, false⟩) ∨
    (d.phase = .stream ∧ ¬ d.more ∧ d.rem.toNat = 0 ∧ e = ⟨d.hdr, true⟩) := by
  unfold Dec.eventNow at h
  split at h
  · next hp =>
    split at h
    · next hc => exact .inl ⟨hp, hc.1, hc.2, (Option.some.inj h).symm⟩
    · cases h
  · next hp =>
    split at h
    · next hm =>
      split at h
      · next hr => exact .inr (.inl ⟨hp, hm, hr, (Option.some.inj h).symm⟩)
      · cases h
    · next hm =>
      split at h
      · next hr => exact .inr (.inr ⟨hp, hm, hr, (Option.some.inj h).symm⟩)
      · cases h
  · cases h

/-! When a meaning answers a next state -/

theorem execEBuild_next {s t : State} (h : execEBuild s = .next t) :
    s.enc.phase = .build ∧ buildFrame Config.given s = t := whenSelected_eq_next.mp h

theorem execEFill_next {s t : State} (h : execEFill s = .next t) :
    s.enc.phase = .fill ∧ fillByte Config.given s = t := whenSelected_eq_next.mp h

theorem execEParity_next {s t : State} (h : execEParity s = .next t) :
    s.enc.phase = .parity ∧ addParity Config.given s = t := whenSelected_eq_next.mp h

theorem execEEmit_next {s t : State} (h : execEEmit s = .next t) :
    s.enc.phase = .emit ∧ s.enc.idx.toNat ≤ 256 ∧ emitByte Config.given s = t := by
  unfold execEEmit at h
  split at h
  · cases h
  · next hn =>
    obtain ⟨hp, rfl⟩ := whenSelected_eq_next.mp h
    exact ⟨hp, Nat.not_lt.mp fun hi => hn ⟨hp, hi⟩, rfl⟩

theorem execDSync_next {s t : State} (h : execDSync s = .next t) :
    s.dec.phase = .sync ∧ scanByte Config.given s = t := whenSelected_eq_next.mp h

theorem execDBody_next {s t : State} (h : execDBody s = .next t) :
    s.dec.phase = .body ∧ s.dec.idx.toNat ≤ 255 ∧ readBody Config.given s = t := by
  unfold execDBody at h
  split at h
  · cases h
  · next hn =>
    obtain ⟨hp, rfl⟩ := whenSelected_eq_next.mp h
    exact ⟨hp, Nat.not_lt.mp fun hi => hn ⟨hp, hi⟩, rfl⟩

theorem execDValidate_next {s t : State} (h : execDValidate s = .next t) :
    s.dec.phase = .validate ∧ validate Config.given s = t := whenSelected_eq_next.mp h

theorem execDDispatchHdr_next {s t : State} (h : execDDispatchHdr s = .next t) :
    (s.dec.phase = .dispatch ∧ s.dec.mode = .awaitingHeader) ∧ dispatchHdr Config.given s = t :=
  whenSelected_eq_next.mp h

theorem execDDispatchData_next {s t : State} (h : execDDispatchData s = .next t) :
    (s.dec.phase = .dispatch ∧ s.dec.mode = .awaitingData) ∧ dispatchData s = t :=
  whenSelected_eq_next.mp h

theorem execDStream_next {s t : State} (h : execDStream s = .next t) :
    (s.dec.phase = .stream ∧ s.dec.more) ∧ streamByte Config.given s = t := whenSelected_eq_next.mp h

theorem execEvtPacket_next {valid : Bool} {hd : PacketHeader} {s t : State} (h : execEvtPacket valid hd s = .next t) :
    s.dec.eventNow = some ⟨hd, valid⟩ ∧ makeEvent Config.given valid hd s = t := whenSelected_eq_next.mp h

theorem execDStreamEnd_next {s t : State} (h : execDStreamEnd s = .next t) :
    (s.dec.phase = .stream ∧ ¬ s.dec.more) ∧ streamEnd Config.given s = t := whenSelected_eq_next.mp h

/-! The step -/

/-- Everything a step can do: no operation, the operation of the word it found, or nothing for a word that presents
none. -/
theorem step_cases (s : State) :
    (∃ t, fetch Config.given s = .noOp t ∧ step s = .next t) ∨
    (∃ w t i, fetch Config.given s = .word w t ∧ decode w = .ok i ∧ step s = exec i t) ∨
    (∃ w t e, fetch Config.given s = .word w t ∧ decode w = .error e ∧ step s = .next (noOperation w t)) := by
  unfold step
  rcases hf : fetch Config.given s with t | ⟨w, t⟩
  · exact .inl ⟨t, rfl, rfl⟩
  · rcases hd : decode w with e | i
    · exact .inr (.inr ⟨w, t, e, rfl, hd, by simp only [hd]⟩)
    · exact .inr (.inl ⟨w, t, i, rfl, hd, by simp only [hd]⟩)

/-- Everything a step without an operation can do: nothing but that the turn is past, or on an idle agent's turn the
response that is due. -/
theorem fetch_noOp {s t : State} (h : fetch Config.given s = .noOp t) :
    t = { s with turns := s.turns.pop } ∨
    (s.turns.peek Config.given.turnDraw = some .enc ∧ s.enc.phase = .idle ∧ s.enc.rspDue = true ∧
      t = respondEnc Config.given { s with turns := s.turns.pop }) ∨
    (s.turns.peek Config.given.turnDraw = some .dec ∧ s.dec.phase = .idle ∧ s.dec.rspDue = true ∧
      t = respondDec Config.given { s with turns := s.turns.pop }) := by
  dsimp only [fetch] at h
  revert h
  rcases s.turns.peek Config.given.turnDraw with _ | _ | _ | w <;> intro h
  · exact .inl (Fetched.noOp.inj h).symm
  · simp only [fetchEnc] at h
    split at h
    · next hp =>
      split at h
      · next hd => exact .inr (.inl ⟨rfl, hp, hd, (Fetched.noOp.inj h).symm⟩)
      · split at h
        · exact .inl (Fetched.noOp.inj h).symm
        · cases h
    · cases h
  · simp only [fetchDec] at h
    split at h
    · next hp =>
      split at h
      · next hd => exact .inr (.inr ⟨rfl, hp, hd, (Fetched.noOp.inj h).symm⟩)
      · split at h
        · exact .inl (Fetched.noOp.inj h).symm
        · cases h
    · cases h
  · simp only [fetchLine] at h
    split at h
    · exact .inl (Fetched.noOp.inj h).symm
    · exact .inl (Fetched.noOp.inj h).symm
    · exact .inl (Fetched.noOp.inj h).symm
    · cases h

/-- The state in which a fetched operation happens differs from `s` only in the turns and in the waiting commands. -/
theorem fetch_word {s t : State} {w : OpWord} (h : fetch Config.given s = .word w t) :
    ∃ cmds n, t = { s with turns := s.turns.pop, encCmd := cmds, decCmd := n } := by
  dsimp only [fetch] at h
  revert h
  rcases s.turns.peek Config.given.turnDraw with _ | _ | _ | w <;> intro h
  · cases h
  · simp only [fetchEnc] at h
    repeat' split at h
    all_goals cases h
    all_goals exact ⟨_, _, rfl⟩
  · simp only [fetchDec] at h
    repeat' split at h
    all_goals cases h
    all_goals exact ⟨_, _, rfl⟩
  · simp only [fetchLine] at h
    split at h
    all_goals cases h
    exact ⟨_, _, rfl⟩

end Sys2Proof.Machine
end

