-- ==== Sys2Proof/Laws/PerInstr.lean ====
section
/-! SUPPORT. A fact of every operation as syntax, one lemma per constructor: how many bytes its word has (R100 to
R103, R110, R111, R113). -/

namespace Sys2Proof.Laws.EncodedSize

/-- The bytes of the word that presents an operation. -/
def size : Instr → Nat
  | .encode _ => 13
  | .decodeStream => 0
  | .encReset => 0
  | .decReset => 0
  | .eBuild => 1
  | .eFill => 1
  | .eParity => 1
  | .eEmit => 1
  | .dSync => 1
  | .dBody => 1
  | .dValidate => 1
  | .dDispatchHdr => 1
  | .dDispatchData => 1
  | .dStream => 1
  | .dStreamEnd => 1
  | .syncPrefix => 1
  | .syncCont => 1
  | .frameHdr _ _ => 4
  | .pktHdr _ _ => 14
  | .frame _ => 257
  | .evtPacket _ _ => 14

def Statement (i : Instr) : Prop := i.wellFormed = true → (Sys2Proof.encode i).bytes.length = size i

theorem encode (h : PacketHeader) : Statement (.encode h) := fun _ => rfl
theorem decodeStream : Statement .decodeStream := fun _ => rfl
theorem encReset : Statement .encReset := fun _ => rfl
theorem decReset : Statement .decReset := fun _ => rfl
theorem eBuild : Statement .eBuild := fun _ => rfl
theorem eFill : Statement .eFill := fun _ => rfl
theorem eParity : Statement .eParity := fun _ => rfl
theorem eEmit : Statement .eEmit := fun _ => rfl
theorem dSync : Statement .dSync := fun _ => rfl
theorem dBody : Statement .dBody := fun _ => rfl
theorem dValidate : Statement .dValidate := fun _ => rfl
theorem dDispatchHdr : Statement .dDispatchHdr := fun _ => rfl
theorem dDispatchData : Statement .dDispatchData := fun _ => rfl
theorem dStream : Statement .dStream := fun _ => rfl
theorem dStreamEnd : Statement .dStreamEnd := fun _ => rfl
theorem syncPrefix : Statement .syncPrefix := fun _ => rfl
theorem syncCont : Statement .syncCont := fun _ => rfl
theorem frameHdr (v : Byte) (n : Half) : Statement (.frameHdr v n) := fun _ => rfl
theorem pktHdr (v : Byte) (h : PacketHeader) : Statement (.pktHdr v h) := fun _ => rfl

theorem frame (f : Frame) : Statement (.frame f) := by
  intro h
  simp only [Instr.wellFormed, Frame.wellFormed, Bool.and_eq_true, beq_iff_eq] at h
  simp [Sys2Proof.encode, frameBytes, frameHdrBytes, be16, h, size]

theorem evtPacket (d : Bool) (h : PacketHeader) : Statement (.evtPacket d h) := fun _ => rfl

end Sys2Proof.Laws.EncodedSize
end

