-- ==== Sys2Proof/Laws/Run.lean ====
section
/-! SUPPORT. Runs of several steps: a run in two parts, and the step of an agent that alone acts. -/

namespace Sys2Proof.Machine

theorem run_zero (s : State) : run 0 s = .next s := rfl

/-- One step and the rest of a run, of any machine. -/
theorem anyRun_succ (M : Host.Core) {k : Nat} {s t : M.State} (h : M.step s = .next t) :
    M.run (k + 1) s = M.run k t := by
  rw [Host.Core.run, h]

/-- A run in two parts, of any machine. -/
theorem anyRun_add (M : Host.Core) {j k : Nat} {s t : M.State} (h : M.run j s = .next t) :
    M.run (j + k) s = M.run k t := by
  induction j generalizing s with
  | zero =>
    cases h
    rw [Nat.zero_add]
  | succ j ih =>
    rcases hs : M.step s with u | r | r
    · rw [Host.Core.run, hs] at h
      rw [show j + 1 + k = j + k + 1 by omega, Host.Core.run, hs]
      exact ih h
    · rw [Host.Core.run, hs] at h; cases h
    · rw [Host.Core.run, hs] at h; cases h

theorem run_succ {k : Nat} {s t : State} (h : step s = .next t) :
    run (k + 1) s = run k t :=
  anyRun_succ Sys2Proof.core h

/-- A run in two parts. -/
theorem run_add {j k : Nat} {s t : State} (h : run j s = .next t) :
    run (j + k) s = run k t :=
  anyRun_add Sys2Proof.core h

/-! ENC alone acts -/

theorem fetch_encOnly {s : State} (h : s.turns = ⟨[], .always (some .enc)⟩) :
    fetch Config.given s = fetchEnc Config.given s := by
  have hs : { s with turns := s.turns.pop } = s := by rw [h, Channel.pop_always, ← h]
  unfold fetch
  rw [h, Channel.peek_always]
  rw [← h]
  exact congrArg (fetchEnc Config.given) hs

theorem step_eBuild {s : State} (h : s.turns = ⟨[], .always (some .enc)⟩) (hp : s.enc.phase = .build) :
    step s = exec .eBuild s := by
  simp [step, fetch_encOnly h, fetchEnc, hp, Enc.selector, EncPhase.code, decode, decodeEncPhase]

theorem step_eFill {s : State} (h : s.turns = ⟨[], .always (some .enc)⟩) (hp : s.enc.phase = .fill) :
    step s = exec .eFill s := by
  simp [step, fetch_encOnly h, fetchEnc, hp, Enc.selector, EncPhase.code, decode, decodeEncPhase]

theorem step_eParity {s : State} (h : s.turns = ⟨[], .always (some .enc)⟩) (hp : s.enc.phase = .parity) :
    step s = exec .eParity s := by
  simp [step, fetch_encOnly h, fetchEnc, hp, Enc.selector, EncPhase.code, decode, decodeEncPhase]

theorem step_eEmit {s : State} (h : s.turns = ⟨[], .always (some .enc)⟩) (hp : s.enc.phase = .emit) :
    step s = exec .eEmit s := by
  simp [step, fetch_encOnly h, fetchEnc, hp, Enc.selector, EncPhase.code, decode, decodeEncPhase]

/-! DEC alone acts -/

theorem fetch_decOnly {s : State} (h : s.turns = ⟨[], .always (some .dec)⟩) :
    fetch Config.given s = fetchDec Config.given s := by
  have hs : { s with turns := s.turns.pop } = s := by rw [h, Channel.pop_always, ← h]
  unfold fetch
  rw [h, Channel.peek_always]
  rw [← h]
  exact congrArg (fetchDec Config.given) hs

theorem step_dSync {s : State} (h : s.turns = ⟨[], .always (some .dec)⟩) (hp : s.dec.phase = .sync) :
    step s = exec .dSync s := by
  simp [step, fetch_decOnly h, fetchDec, hp, Dec.selector, DecPhase.code, decode, decodeDecPhase]

theorem step_dBody {s : State} (h : s.turns = ⟨[], .always (some .dec)⟩) (hp : s.dec.phase = .body) :
    step s = exec .dBody s := by
  simp [step, fetch_decOnly h, fetchDec, hp, Dec.selector, DecPhase.code, decode, decodeDecPhase]

theorem step_dValidate {s : State} (h : s.turns = ⟨[], .always (some .dec)⟩) (hp : s.dec.phase = .validate) :
    step s = exec .dValidate s := by
  simp [step, fetch_decOnly h, fetchDec, hp, Dec.selector, DecPhase.code, decode, decodeDecPhase]

theorem step_dDispatchHdr {s : State} (h : s.turns = ⟨[], .always (some .dec)⟩) (hp : s.dec.phase = .dispatch)
    (hm : s.dec.mode = .awaitingHeader) : step s = exec .dDispatchHdr s := by
  simp [step, fetch_decOnly h, fetchDec, hp, hm, Dec.selector, DecPhase.code, Mode.code, decode, decodeDecPhase]

theorem step_dDispatchData {s : State} (h : s.turns = ⟨[], .always (some .dec)⟩) (hp : s.dec.phase = .dispatch)
    (hm : s.dec.mode = .awaitingData) : step s = exec .dDispatchData s := by
  simp [step, fetch_decOnly h, fetchDec, hp, hm, Dec.selector, DecPhase.code, Mode.code, decode, decodeDecPhase]

theorem step_dStream {s : State} (h : s.turns = ⟨[], .always (some .dec)⟩) (hp : s.dec.phase = .stream)
    (hm : s.dec.more) : step s = exec .dStream s := by
  simp [step, fetch_decOnly h, fetchDec, hp, hm, Dec.selector, DecPhase.code, decode, decodeDecPhase]

theorem step_dStreamEnd {s : State} (h : s.turns = ⟨[], .always (some .dec)⟩) (hp : s.dec.phase = .stream)
    (hm : ¬ s.dec.more) : step s = exec .dStreamEnd s := by
  simp [step, fetch_decOnly h, fetchDec, hp, hm, Dec.selector, DecPhase.code, decode, decodeDecPhase]

end Sys2Proof.Machine
end

