-- ==== Sys2Proof/Tests/Slice0.lean ====
section
/-! SUPPORT. The model's own tests: refused ill-formed operations, words written out from their encodings, one step
each on small states with the results that the spec's examples and vectors state, and, for every statement with
hypotheses, a concrete state and operands that meet them. -/

namespace Sys2Proof.Tests

open Sys2Proof Sys2Proof.Machine

/-! ## Small states -/

/-- The header of program P1 of 95_test_vectors.md. -/
def smallHdr : PacketHeader := ⟨0x07#8, 17#16, 0xFFFFFFFF#32, 0x00000001#32, 0x1234#16⟩

/-- Both agents idle, nothing transferred, no channel ever ready, no turn. -/
def rest : State where
  enc := ⟨0x01FF#16, smallHdr, 0#16, false, 0#16, .idle, 0#9, [], ⟨.none, 0#16⟩, false⟩
  dec := ⟨.awaitingHeader, 0#16, smallHdr, .idle, 0#9, .hunt, [], 0#16, .none, false, false⟩
  src := ⟨[], .always none⟩
  tx := ⟨[], .always none⟩
  wire := []
  rx := ⟨[], .always none⟩
  snk := ⟨[], .always none⟩
  sunk := []
  evt := ⟨[], .always none⟩
  events := []
  encCmd := []
  encRsp := ⟨[], .always none⟩
  encRsps := []
  decCmd := 0
  decRsp := ⟨[], .always none⟩
  decRsps := []
  turns := ⟨[], .always none⟩
  encResets := 0
  decResets := 0

/-- ENC in a phase with an index and bytes to pull. -/
def encAt (p : EncPhase) (idx : Index) (todo : Half) : State :=
  { rest with enc := { rest.enc with phase := p, idx := idx, todo := todo } }

/-- DEC in a phase with an index and bytes to deliver. -/
def decAt (p : DecPhase) (mode : Mode) (idx : Index) (rem : Half) : State :=
  { rest with dec := { rest.dec with phase := p, mode := mode, idx := idx, rem := rem, status := .running } }

/-- The next turn. -/
def onTurn (t : Turn) (s : State) : State := { s with turns := ⟨[], .always (some t)⟩ }

/-- The codec `FEC_XOR32` of 95_test_vectors.md section 0: byte `j` is the exclusive or of the message bytes whose
index is `j` modulo 32. -/
def xor32 (m : Message) : Parity := fun j =>
  (List.range 7).foldl (fun a t => if h : j.val + 32 * t < 223 then a ^^^ m ⟨j.val + 32 * t, h⟩ else a) 0#8

/-- The configuration of the vectors. -/
def vectors : Config :=
  { (default : Config) with
    protocolVersion := 0x01#8
    seqInit := 0x01FF#16
    fecEncode := xor32
    fecDecode := fun w =>
      let m : Message := fun i => w ⟨i.val, by omega⟩
      if ∀ k : Fin 32, xor32 m k = w ⟨223 + k.val, by omega⟩ then some m else none }

/-- The state after an outcome, where there is one. -/
def after (s : State) : Host.Outcome State Fault Refusal → State
  | .next t => t
  | .fault _ => s
  | .refused _ => s

/-- The frame buffer of a first frame: its 18 bytes of headers and three of payload (R161's example and R162's). -/
def headBuffer : Memory :=
  Memory.writeBytes [] 0
    [0x5A#8, 0x01#8, 0x01#8, 0xFF#8, 0x01#8, 0x07#8, 0x00#8, 0x11#8, 0xFF#8, 0xFF#8, 0xFF#8, 0xFF#8, 0x00#8, 0x00#8,
      0x00#8, 0x01#8, 0x12#8, 0x34#8, 0x41#8, 0x42#8, 0x43#8]

/-! ## Ill-formed operations are refused -/

/-- A frame with one byte too few in its data region (R100). -/
theorem test_wellformed_refuses_short_region :
    (Instr.frame ⟨1#8, 0#16, List.replicate 219 0#8, List.replicate 32 0#8⟩).wellFormed = false := by decide +kernel

/-- A frame with one byte too many in its data region. -/
theorem test_wellformed_refuses_long_region :
    (Instr.frame ⟨1#8, 0#16, List.replicate 221 0#8, List.replicate 32 0#8⟩).wellFormed = false := by decide +kernel

/-- A frame with a parity trailer of 31 bytes (R106). -/
theorem test_wellformed_refuses_short_parity :
    (Instr.frame ⟨1#8, 0#16, List.replicate 220 0#8, List.replicate 31 0#8⟩).wellFormed = false := by decide +kernel

/-- The one frame length is accepted. -/
theorem test_wellformed_accepts_frame :
    (Instr.frame ⟨1#8, 0#16, List.replicate 220 0#8, List.replicate 32 0#8⟩).wellFormed = true := by decide +kernel

/-! ## Words written out from their encodings -/

/-- R110: `{pid, length, lat, lon, alt}`, high to low. -/
theorem test_decode_encode :
    decode ⟨.encCmd, [0b00000111#8, 0b00000000#8, 0b00010001#8, 0xFF#8, 0xFF#8, 0xFF#8, 0xFF#8, 0x00#8, 0x00#8, 0x00#8,
      0x01#8, 0x12#8, 0x34#8]⟩ = .ok (.encode smallHdr) := by decide

theorem test_decode_decodeStream : decode ⟨.decCmd, []⟩ = .ok .decodeStream := by decide
theorem test_decode_encReset : decode ⟨.encReset, []⟩ = .ok .encReset := by decide
theorem test_decode_decReset : decode ⟨.decReset, []⟩ = .ok .decReset := by decide
theorem test_decode_eBuild : decode ⟨.encPhase, [0b001#8]⟩ = .ok .eBuild := by decide
theorem test_decode_eFill : decode ⟨.encPhase, [0b010#8]⟩ = .ok .eFill := by decide
theorem test_decode_eParity : decode ⟨.encPhase, [0b011#8]⟩ = .ok .eParity := by decide
theorem test_decode_eEmit : decode ⟨.encPhase, [0b100#8]⟩ = .ok .eEmit := by decide
theorem test_decode_dSync : decode ⟨.decPhase false, [0b001#8]⟩ = .ok .dSync := by decide
theorem test_decode_dBody : decode ⟨.decPhase false, [0b010#8]⟩ = .ok .dBody := by decide
theorem test_decode_dValidate : decode ⟨.decPhase false, [0b011#8]⟩ = .ok .dValidate := by decide
theorem test_decode_dDispatchHdr : decode ⟨.decPhase false, [0b1000#8]⟩ = .ok .dDispatchHdr := by decide
theorem test_decode_dDispatchData : decode ⟨.decPhase false, [0b1001#8]⟩ = .ok .dDispatchData := by decide
theorem test_decode_dStream : decode ⟨.decPhase true, [0b101#8]⟩ = .ok .dStream := by decide
theorem test_decode_dStreamEnd : decode ⟨.decPhase false, [0b101#8]⟩ = .ok .dStreamEnd := by decide
theorem test_decode_syncPrefix : decode ⟨.wire, [0b10101010#8]⟩ = .ok .syncPrefix := by decide
theorem test_decode_syncCont : decode ⟨.wire, [0b01011010#8]⟩ = .ok .syncCont := by decide

/-- R102, with the header of the frame of vector E5. -/
theorem test_decode_frameHdr :
    decode ⟨.wire, [0b01011010#8, 0x01#8, 0x00#8, 0x10#8]⟩ = .ok (.frameHdr 0x01#8 0x0010#16) := by decide

/-- R103, with the secondary header of program P1. -/
theorem test_decode_pktHdr :
    decode ⟨.wire, [0x01#8, 0x07#8, 0x00#8, 0x11#8, 0xFF#8, 0xFF#8, 0xFF#8, 0xFF#8, 0x00#8, 0x00#8, 0x00#8, 0x01#8, 0x12#8,
      0x34#8]⟩ = .ok (.pktHdr 0x01#8 smallHdr) := by decide

/-- R101: prefix, continuation, version, sequence number, 220 and 32 bytes. -/
theorem test_decode_frame :
    decode ⟨.wire, 0xAA#8 :: 0x5A#8 :: 0x01#8 :: 0x12#8 :: 0x34#8 ::
      (List.replicate 220 0x77#8 ++ List.replicate 32 0x99#8)⟩ =
      .ok (.frame ⟨0x01#8, 0x1234#16, List.replicate 220 0x77#8, List.replicate 32 0x99#8⟩) := by decide +kernel

/-- R113: `{valid, pid, length, lat, lon, alt}`, high to low, `valid` alone in the first byte. -/
theorem test_decode_evtPacket :
    decode ⟨.evt, [0b00000001#8, 0x07#8, 0x00#8, 0x11#8, 0xFF#8, 0xFF#8, 0xFF#8, 0xFF#8, 0x00#8, 0x00#8, 0x00#8, 0x01#8,
      0x12#8, 0x34#8]⟩ = .ok (.evtPacket true smallHdr) := by decide

/-- R111, I13: the codes that select no step, and words of another length or pattern, are refused by name. -/
theorem test_decode_refuses :
    decode ⟨.encPhase, [0b000#8]⟩ = .error .encPhaseCode ∧
    decode ⟨.encPhase, [0b101#8]⟩ = .error .encPhaseCode ∧
    decode ⟨.encPhase, [0b111#8]⟩ = .error .encPhaseCode ∧
    decode ⟨.decPhase true, [0b000#8]⟩ = .error .decPhaseCode ∧
    decode ⟨.decPhase true, [0b100#8]⟩ = .error .decPhaseCode ∧
    decode ⟨.decPhase true, [0b110#8]⟩ = .error .decPhaseCode ∧
    decode ⟨.wire, [0x5B#8]⟩ = .error .wirePattern ∧
    decode ⟨.wire, [0x5B#8, 0x01#8, 0x00#8, 0x10#8]⟩ = .error .wirePattern ∧
    decode ⟨.wire, []⟩ = .error .wirePattern ∧
    decode ⟨.encCmd, []⟩ = .error .wrongLength ∧
    decode ⟨.decCmd, [0x00#8]⟩ = .error .wrongLength ∧
    decode ⟨.evt, 0x02#8 :: List.replicate 13 0#8⟩ = .error .eventWord := by decide

/-- A wire frame whose second byte is not the continuation is refused. -/
theorem test_decode_refuses_frame :
    decode ⟨.wire, 0xAA#8 :: 0xAA#8 :: List.replicate 255 0#8⟩ = .error .wirePattern := by decide

/-- The rows of spec/opcode_table.json whose bits are fixed, in the table's own numbering. -/
theorem test_tableWords :
    decodeTableWord 8 0b001 = some .eBuild ∧
    decodeTableWord 8 0b010 = some .eFill ∧
    decodeTableWord 8 0b011 = some .eParity ∧
    decodeTableWord 8 0b100 = some .eEmit ∧
    decodeTableWord 8 0b1000 = some .dDispatchHdr ∧
    decodeTableWord 8 0b1001 = some .dDispatchData ∧
    decodeTableWord 8 0b101 = some .dStream ∧
    decodeTableWord 8 0b10101010 = some .syncPrefix ∧
    decodeTableWord 8 0b01011010 = some .syncCont ∧
    decodeTableWord 32 0x5A011234 = some (.frameHdr 0x01#8 0x1234#16) ∧
    decodeTableWord 0 0 = some .decodeStream := by decide

/-! ## A presented operation is the one the next step runs -/

theorem test_present_eBuild :
    step (State.reset.withFetchWord 8 0b001) =
      exec .eBuild { State.reset with enc := { State.reset.enc with phase := .build } } := rfl

theorem test_present_dStream :
    step (rest.withFetchWord 8 0b101) =
      exec .dStream
        { rest with dec := { rest.dec with phase := .stream, idx := rest.dec.idx, rem := 1#16 } } := rfl

theorem test_present_frameHdr :
    step (State.reset.withFetchWord 32 0x5A011234) = exec (.frameHdr 0x01#8 0x1234#16) State.reset := rfl

/-- An event word is put where it can happen: in DEC's registers, so that the next step makes that event. -/
theorem test_present_evtPacket :
    step (rest.withFetchWord 105 (2 ^ 104)) =
      exec (.evtPacket true zeroHeader)
        { rest with dec := { rest.dec with phase := .stream, hdr := zeroHeader, rem := 0#16 } } := rfl

/-! ## One step each -/

/-- S1: a zero-length packet is over at once, its response follows, and the counter stays. -/
theorem test_encode_zero_length :
    let t := after rest (exec (.encode { smallHdr with len := 0#16 }) (onTurn .enc { rest with encRsp := alwaysReady }))
    t.enc.phase = .idle ∧ t.enc.seq = 0x01FF#16 ∧ (after rest (step t)).encRsps = [⟨.ok, 0#16⟩] := by decide

/-- E2b: length 13 is refused; E3: length 14 is a packet without payload. -/
theorem test_encode_corners :
    (after rest (exec (.encode { smallHdr with len := 13#16 }) rest)).enc.res = ⟨.errLen, 0#16⟩ ∧
    (after rest (exec (.encode { smallHdr with len := 14#16 }) rest)).enc.phase = .build ∧
    (after rest (exec (.encode { smallHdr with len := 14#16 }) rest)).enc.todo = 0#16 := by decide

/-- R200's example. -/
theorem test_decodeStream :
    (after rest (exec .decodeStream rest)).dec.phase = .sync ∧
    (after rest (exec .decodeStream rest)).dec.status = .running := by decide

/-- I11: a session in progress keeps the second command waiting. -/
theorem test_decodeStream_busy :
    (after rest (exec .decodeStream (decAt .body .awaitingData 7#9 3#16))).dec.mode = .awaitingData ∧
    (after rest (exec .decodeStream (decAt .body .awaitingData 7#9 3#16))).decCmd = 1 := by decide

/-- R310: a reset in mid-frame makes no response. -/
theorem test_encReset :
    (after rest (exec .encReset (encAt .emit 7#9 3#16))).enc.phase = .idle ∧
    (after rest (exec .encReset (encAt .emit 7#9 3#16))).encRsps = [] := by decide

/-- R310: the mode goes back to AwaitingHeader. -/
theorem test_decReset :
    (after rest (exec .decReset (decAt .stream .awaitingData 7#9 3#16))).dec.mode = .awaitingHeader ∧
    (after rest (exec .decReset (decAt .stream .awaitingData 7#9 3#16))).events = [] := by decide

/-- R161's example: the 18 header bytes, the counter and the index. -/
theorem test_eBuild :
    let t := buildFrame vectors { encAt .build 0#9 3#16 with enc := { (encAt .build 0#9 3#16).enc with first := true } }
    Memory.readBytes t.enc.fbuf 0 19 =
      [0x5A#8, 0x01#8, 0x01#8, 0xFF#8, 0x01#8, 0x07#8, 0x00#8, 0x11#8, 0xFF#8, 0xFF#8, 0xFF#8, 0xFF#8, 0x00#8, 0x00#8,
        0x00#8, 0x01#8, 0x12#8, 0x34#8, 0x00#8] ∧
    t.enc.seq = 0x0200#16 ∧ t.enc.idx = 18#9 := by decide

/-- The counter wraps, and a continuation frame's payload starts at 4. -/
theorem test_eBuild_wraps :
    let t := buildFrame vectors { rest with enc := { rest.enc with phase := .build, seq := 0xFFFF#16 } }
    t.enc.seq = 0x0000#16 ∧ t.enc.idx = 4#9 ∧ Memory.readBytes t.enc.fbuf 0 5 = [0x5A#8, 0x01#8, 0xFF#8, 0xFF#8, 0x00#8] := by
  decide

/-- R162's example. -/
theorem test_eFill :
    let t := after rest (exec .eFill { encAt .fill 18#9 3#16 with src := bytesThenNone [0x41#8, 0x42#8] })
    Memory.read t.enc.fbuf 18 = 0x41#8 ∧ t.enc.idx = 19#9 ∧ t.enc.todo = 2#16 ∧ t.src = bytesThenNone [0x42#8] := by
  decide

/-- The source fails: nothing of the frame is on the wire (R271). -/
theorem test_eFill_fails :
    let t := after rest (exec .eFill { encAt .fill 18#9 3#16 with src := bytesThenNone [] })
    t.enc.res = ⟨.errSrc, 0#16⟩ ∧ t.enc.phase = .idle ∧ t.enc.rspDue = true ∧ t.wire = [] := by decide

/-- Program P1: the parity of the small frame repeats its first bytes. -/
theorem test_eParity :
    let t := addParity vectors { rest with enc := { rest.enc with phase := .parity, fbuf := headBuffer } }
    Memory.readBytes t.enc.fbuf 224 6 = [0x01#8, 0x01#8, 0xFF#8, 0x01#8, 0x07#8, 0x00#8] ∧ t.enc.idx = 0#9 := by
  decide +kernel

/-- The wire starts with the prefix, which is not in the buffer (R61). -/
theorem test_eEmit :
    (after rest (exec .eEmit { encAt .emit 0#9 3#16 with tx := acceptAll })).wire = [0xAA#8] ∧
    (after rest (exec .eEmit { encAt .emit 0#9 3#16 with tx := acceptAll })).enc.idx = 1#9 := by decide

/-- The last byte of the last frame ends the command, whether or not the response can be made yet. -/
theorem test_eEmit_last :
    let t := after rest (exec .eEmit { encAt .emit 256#9 0#16 with tx := acceptAll })
    t.enc.res = ⟨.ok, 1#16⟩ ∧ t.enc.phase = .idle ∧ t.enc.rspDue = true ∧ t.wire = [0x00#8] := by decide

/-- R142's example. -/
theorem test_dSync :
    let s := decAt .sync .awaitingHeader 0#9 0#16
    let t := after rest (exec .dSync { s with rx := bytesThenNone [0x5A#8], dec := { s.dec with scan := .gotAA } })
    Memory.read t.dec.fbuf 0 = 0x5A#8 ∧ t.dec.idx = 1#9 ∧ t.dec.phase = .body := by decide

/-- A second `0xAA` sends the scanner back to HUNT (R141). -/
theorem test_dSync_second_prefix :
    let s := decAt .sync .awaitingHeader 0#9 0#16
    let t := after rest (exec .dSync { s with rx := bytesThenNone [0xAA#8], dec := { s.dec with scan := .gotAA } })
    t.dec.scan = .hunt ∧ t.dec.phase = .sync := by decide

/-- R201's example: the 255th byte completes the body. -/
theorem test_dBody :
    let t := after rest (exec .dBody { decAt .body .awaitingHeader 255#9 0#16 with rx := bytesThenNone [0x00#8] })
    t.dec.phase = .validate ∧ t.dec.idx = 256#9 := by decide

/-- D5b: the stream ends one byte too early. -/
theorem test_dBody_end :
    let t := after rest (exec .dBody { decAt .body .awaitingHeader 255#9 0#16 with rx := bytesThenNone [] })
    t.dec.status = .endEosBody ∧ t.dec.phase = .idle ∧ t.dec.rspDue = true ∧ t.events = [] := by decide

/-- R74: the response comes before the next session, and carries the status. -/
theorem test_dec_response_first :
    let s := onTurn .dec { rest with
      dec := { rest.dec with status := .endFec, rspDue := true }, decRsp := alwaysReady, decCmd := 1 }
    (after rest (step s)).decRsps = [.endFec] ∧ (after rest (step s)).dec.phase = .idle ∧
    (after rest (step (after rest (step s)))).dec.phase = .sync := by decide

/-- R202's example: the sequence number is recorded from the corrected message. -/
theorem test_dValidate :
    let c := { vectors with fecDecode := fun _ => some fun i => if i = 0 then 0x01#8 else if i = 1 then 0x12#8 else 0x34#8 }
    let t := validate c (decAt .validate .awaitingHeader 256#9 0#16)
    t.dec.seqRx = 0x1234#16 ∧ t.dec.phase = .dispatch ∧ Memory.read t.dec.fbuf 223 = 0x34#8 ∧
      Memory.read t.dec.fbuf 224 = 0x00#8 := by
  decide +kernel

/-- D4, D14: an uncorrectable frame of a foreign version is reported as END_FEC. -/
theorem test_dValidate_uncorrectable :
    let t := validate vectors
      { decAt .validate .awaitingHeader 256#9 0#16 with
        dec := { (decAt .validate .awaitingHeader 256#9 0#16).dec with fbuf := [(1, 0x02#8)] } }
    t.dec.status = .endFec ∧ Memory.read t.dec.fbuf 1 = 0x02#8 := by decide +kernel

/-- R203's example. -/
theorem test_dDispatchHdr :
    let s := decAt .dispatch .awaitingHeader 0#9 0#16
    let t := after rest (exec .dDispatchHdr { s with dec := { s.dec with fbuf := headBuffer } })
    t.dec.hdr = smallHdr ∧ t.dec.rem = 3#16 ∧ t.dec.idx = 18#9 ∧ t.dec.phase = .stream := by decide

/-- D7: a declared length below 14 aborts the packet. -/
theorem test_dDispatchHdr_bad_length :
    let s := decAt .dispatch .awaitingHeader 0#9 0#16
    let t := after rest (exec .dDispatchHdr { s with evt := alwaysReady, dec := { s.dec with fbuf := [(5, 3#8), (7, 5#8)] } })
    t.events = [⟨⟨3#8, 5#16, 0#32, 0#32, 0#16⟩, false⟩] ∧ t.dec.phase = .sync ∧ t.sunk = [] := by decide

/-- R204's example. -/
theorem test_dDispatchData :
    let t := after rest (exec .dDispatchData (decAt .dispatch .awaitingData 0#9 294#16))
    t.dec.idx = 4#9 ∧ t.dec.phase = .stream ∧ t.dec.rem = 294#16 := by decide

/-- R205's example. -/
theorem test_dStream :
    let s := decAt .stream .awaitingHeader 18#9 3#16
    let t := after rest (exec .dStream { s with snk := acceptAll, dec := { s.dec with fbuf := [(18, 0x41#8)] } })
    t.sunk = [0x41#8] ∧ t.dec.idx = 19#9 ∧ t.dec.rem = 2#16 := by decide

/-- R207, D29: a refused byte is not counted, DEC is held until the event is made, and the packet is aborted. -/
theorem test_dStream_refused :
    let s := after rest (exec .dStream { decAt .stream .awaitingData 18#9 3#16 with snk := failAt 0 })
    let t := after rest (exec .dStream { s with evt := alwaysReady })
    s.dec.phase = .stream ∧ s.events = [] ∧ (after rest (exec .dStream s)).dec = s.dec ∧
    t.events = [⟨smallHdr, false⟩] ∧ t.dec.mode = .awaitingHeader ∧ t.dec.rem = 3#16 ∧ t.sunk = [] := by decide

/-- R206's example. -/
theorem test_dStreamEnd :
    let t := after rest (exec .dStreamEnd { decAt .stream .awaitingHeader 21#9 0#16 with evt := alwaysReady })
    t.events = [⟨smallHdr, true⟩] ∧ t.dec.phase = .sync ∧ t.dec.mode = .awaitingHeader := by decide

/-- A full region with bytes outstanding awaits the next frame, without an event. -/
theorem test_dStreamEnd_more :
    let t := after rest (exec .dStreamEnd (decAt .stream .awaitingHeader 224#9 294#16))
    t.events = [] ∧ t.dec.phase = .sync ∧ t.dec.mode = .awaitingData := by decide

theorem test_syncPrefix : (after rest (exec .syncPrefix rest)).rx.queue = [some (some 0xAA#8)] := by decide
theorem test_syncCont : (after rest (exec .syncCont rest)).rx.queue = [some (some 0x5A#8)] := by decide

theorem test_frameHdr :
    (after rest (exec (.frameHdr 0x01#8 0x1234#16) rest)).rx.queue =
      [some (some 0x5A#8), some (some 0x01#8), some (some 0x12#8), some (some 0x34#8)] := by decide

theorem test_pktHdr :
    ((after rest (exec (.pktHdr 0x01#8 smallHdr) rest)).rx.queue.drop 6).take 4 =
      [some (some 0xFF#8), some (some 0xFF#8), some (some 0x00#8), some (some 0x00#8)] := by decide

theorem test_frame :
    (after rest (exec (.frame ⟨1#8, 0x1234#16, List.replicate 220 0#8, List.replicate 32 9#8⟩) rest)).rx.queue.length = 257 := by
  decide +kernel

/-- The event of a packet with nothing outstanding is the one that D.STREAM.END makes. -/
theorem test_evtPacket :
    let s := { decAt .stream .awaitingHeader 21#9 0#16 with evt := alwaysReady }
    exec (.evtPacket true smallHdr) s = exec .dStreamEnd s ∧
    (after rest (exec (.evtPacket true smallHdr) s)).events = [⟨smallHdr, true⟩] := ⟨rfl, by decide⟩

/-- R71, R109: an event word from outside does nothing, and bytes that are no pattern reach RX. -/
theorem test_outside :
    (after rest (step (onTurn (.line (encode (.evtPacket true smallHdr))) rest))).events = [] ∧
    (after rest (step (onTurn (.line ⟨.wire, [0x5B#8, 0x00#8]⟩) rest))).rx.queue =
      [some (some 0x5B#8), some (some 0x00#8)] := by decide

/-- MemWrite of -2147483648 at 8, and MemRead of 02 02 at 6 (95_test_vectors.md section 5). -/
theorem test_byte_order :
    Memory.readBytes (Memory.write32 [] 8 0x80000000#32) 8 4 = [0x80#8, 0x00#8, 0x00#8, 0x00#8] ∧
    Memory.read16 (Memory.writeBytes [] 6 [0x02#8, 0x02#8]) 6 = 514#16 := by decide

/-- The longest match rule of R145 by example: the first pair is missed, the second found. -/
theorem test_sync_find : syncFind [0xAA#8, 0xAA#8, 0x5A#8, 0xAA#8, 0x5A#8] = some 5 := by decide

/-! ## Every statement with hypotheses is about something -/

theorem witness_DecodeOfEncode :
    (Instr.frame ⟨0x01#8, 0x01FF#16, List.replicate 220 0x41#8, List.replicate 32 0#8⟩).wellFormed = true ∧
    (Instr.evtPacket true smallHdr).wellFormed = true := by decide +kernel

/-- A word in a phase other than STREAM, with the condition set; and one whose condition counts. -/
theorem witness_EncodeOfDecode :
    decode ⟨.decPhase true, [0b001#8]⟩ = .ok .dSync ∧ decode ⟨.decPhase true, [0b101#8]⟩ = .ok .dStream := by decide

theorem witness_StepRunsDecodedOperation :
    fetch Config.given (onTurn .enc (encAt .fill 18#9 3#16)) =
      .word ⟨.encPhase, [0b010#8]⟩ (onTurn .enc (encAt .fill 18#9 3#16)) ∧
    decode ⟨.encPhase, [0b010#8]⟩ = .ok .eFill := ⟨rfl, by decide⟩

theorem witness_EncPhaseSelectsStep :
    (onTurn .enc rest).turnNow = some .enc ∧
    (onTurn .enc (encAt .build 0#9 3#16)).enc.phase = .build ∧
    (onTurn .enc (encAt .fill 18#9 3#16)).enc.phase = .fill ∧
    (onTurn .enc (encAt .parity 224#9 3#16)).enc.phase = .parity ∧
    (onTurn .enc (encAt .emit 0#9 3#16)).enc.phase = .emit ∧
    (onTurn .enc rest).enc.phase = .idle ∧ (onTurn .enc rest).enc.rspDue = false ∧ (onTurn .enc rest).encCmd = [] ∧
    (onTurn .enc { rest with encCmd := [smallHdr] }).encCmd = smallHdr :: [] := by decide

theorem witness_DecPhaseSelectsStep :
    (onTurn .dec rest).turnNow = some .dec ∧
    (onTurn .dec (decAt .sync .awaitingHeader 0#9 0#16)).dec.phase = .sync ∧
    (onTurn .dec (decAt .body .awaitingHeader 1#9 0#16)).dec.phase = .body ∧
    (onTurn .dec (decAt .validate .awaitingHeader 256#9 0#16)).dec.phase = .validate ∧
    (onTurn .dec (decAt .dispatch .awaitingHeader 256#9 0#16)).dec.mode = .awaitingHeader ∧
    (onTurn .dec (decAt .dispatch .awaitingData 256#9 1#16)).dec.mode = .awaitingData ∧
    (decAt .stream .awaitingData 223#9 1#16).dec.idx.toNat < 224 ∧ 0 < (decAt .stream .awaitingData 223#9 1#16).dec.rem.toNat ∧
    ¬ ((decAt .stream .awaitingData 224#9 1#16).dec.idx.toNat < 224 ∧
      0 < (decAt .stream .awaitingData 224#9 1#16).dec.rem.toNat) ∧
    (onTurn .dec rest).dec.phase = .idle ∧ (onTurn .dec rest).dec.rspDue = false ∧ (onTurn .dec rest).decCmd = 0 ∧
    (onTurn .dec { rest with decCmd := 1 }).decCmd = 0 + 1 := by decide

theorem witness_UnselectedStepsStop :
    rest.enc.phase ≠ .build ∧ rest.enc.phase ≠ .fill ∧ rest.enc.phase ≠ .parity ∧ rest.enc.phase ≠ .emit ∧
    rest.dec.phase ≠ .sync ∧ rest.dec.phase ≠ .body ∧ rest.dec.phase ≠ .validate ∧
    ¬ ((decAt .dispatch .awaitingData 0#9 1#16).dec.phase = .dispatch ∧
      (decAt .dispatch .awaitingData 0#9 1#16).dec.mode = .awaitingHeader) ∧
    ¬ ((decAt .dispatch .awaitingHeader 0#9 1#16).dec.phase = .dispatch ∧
      (decAt .dispatch .awaitingHeader 0#9 1#16).dec.mode = .awaitingData) ∧
    ¬ ((decAt .stream .awaitingData 224#9 1#16).dec.phase = .stream ∧
      (decAt .stream .awaitingData 224#9 1#16).dec.idx.toNat < 224 ∧
      0 < (decAt .stream .awaitingData 224#9 1#16).dec.rem.toNat) ∧
    ¬ ((decAt .stream .awaitingData 223#9 1#16).dec.phase = .stream ∧
      ¬ ((decAt .stream .awaitingData 223#9 1#16).dec.idx.toNat < 224 ∧
        0 < (decAt .stream .awaitingData 223#9 1#16).dec.rem.toNat)) ∧
    rest.dec.eventNow ≠ some ⟨smallHdr, true⟩ ∧
    (encAt .emit 257#9 0#16).enc.phase = .emit ∧ 256 < (encAt .emit 257#9 0#16).enc.idx.toNat ∧
    (decAt .body .awaitingHeader 256#9 0#16).dec.phase = .body ∧
    255 < (decAt .body .awaitingHeader 256#9 0#16).dec.idx.toNat := by decide

/-- The lengths where the clauses of R160 meet: 0, 1, 13, 14 and 65535. -/
theorem witness_EncodeCommand :
    rest.enc.phase = .idle ∧ rest.enc.rspDue = false ∧
    (0#16).toNat = 0 ∧ 1 ≤ (1#16).toNat ∧ (13#16).toNat ≤ 13 ∧ 14 ≤ (14#16).toNat ∧ 14 ≤ (65535#16).toNat ∧
    (encAt .emit 0#9 0#16).enc.phase ≠ .idle ∧ { rest.enc with rspDue := true }.rspDue = true := by decide

theorem witness_DecodeStreamCommand :
    rest.dec.phase = .idle ∧ rest.dec.rspDue = false ∧ (decAt .sync .awaitingHeader 0#9 0#16).dec.phase ≠ .idle ∧
    { rest.dec with rspDue := true }.rspDue = true := by decide

theorem witness_BuildStep :
    (encAt .build 0#9 3#16).enc.phase = .build ∧ (encAt .build 0#9 3#16).enc.first = false ∧
    { encAt .build 0#9 3#16 with enc := { (encAt .build 0#9 3#16).enc with first := true } }.enc.first = true := by decide

theorem witness_FillStep :
    (encAt .fill 224#9 3#16).enc.phase = .fill ∧
    ¬ ((encAt .fill 224#9 3#16).enc.idx.toNat < 224 ∧ 0 < (encAt .fill 224#9 3#16).enc.todo.toNat) ∧
    ¬ ((encAt .fill 4#9 0#16).enc.idx.toNat < 224 ∧ 0 < (encAt .fill 4#9 0#16).enc.todo.toNat) ∧
    (encAt .fill 223#9 1#16).enc.idx.toNat < 224 ∧ 0 < (encAt .fill 223#9 1#16).enc.todo.toNat ∧
    { encAt .fill 223#9 1#16 with src := bytesThenNone [0x41#8] }.srcNow = some (some 0x41#8) ∧
    { encAt .fill 223#9 1#16 with src := bytesThenNone [] }.srcNow = some none := by decide

theorem witness_ParityStep : (encAt .parity 224#9 0#16).enc.phase = .parity := by decide

theorem witness_EmitStep :
    (encAt .emit 256#9 0#16).enc.phase = .emit ∧ (encAt .emit 256#9 0#16).enc.idx.toNat ≤ 256 ∧
    { encAt .emit 255#9 0#16 with tx := acceptAll }.txNow = some true ∧ (encAt .emit 255#9 0#16).enc.idx.toNat < 256 ∧
    (encAt .emit 256#9 1#16).enc.idx.toNat = 256 ∧ 0 < (encAt .emit 256#9 1#16).enc.todo.toNat ∧
    (encAt .emit 256#9 0#16).enc.todo.toNat = 0 ∧
    { encAt .emit 0#9 0#16 with tx := failAt 0 }.txNow = some false := by decide

theorem witness_SyncStep :
    let s := decAt .sync .awaitingData 0#9 1#16
    s.dec.phase = .sync ∧ { s with rx := bytesThenNone [0x5A#8] }.rxNow = some (some 0x5A#8) ∧
    { s with dec := { s.dec with scan := .gotAA } }.dec.scan = .gotAA ∧
    ¬ (s.dec.scan = .gotAA ∧ 0x5A#8 = 0x5A#8) ∧ { s with rx := bytesThenNone [] }.rxNow = some none := by decide

theorem witness_BodyStep :
    let s := decAt .body .awaitingData 255#9 1#16
    s.dec.phase = .body ∧ s.dec.idx.toNat ≤ 255 ∧ { s with rx := bytesThenNone [0x5A#8] }.rxNow = some (some 0x5A#8) ∧
    { s with rx := bytesThenNone [] }.rxNow = some none := by decide

/-- The codec is a parameter, so one of its two answers holds for every buffer, and the version may be either. -/
theorem witness_ValidateStep :
    let s := decAt .validate .awaitingData 256#9 1#16
    s.dec.phase = .validate ∧
    (Config.given.fecDecode (fun j => Memory.read s.dec.fbuf (1 + j.val)) = none ∨
      ∃ msg, Config.given.fecDecode (fun j => Memory.read s.dec.fbuf (1 + j.val)) = some msg ∧
        (msg 0 = Config.given.protocolVersion ∨ msg 0 ≠ Config.given.protocolVersion)) := by
  refine ⟨by decide, ?_⟩
  rcases h : Config.given.fecDecode _ with _ | msg
  · exact .inl rfl
  · exact .inr ⟨msg, rfl, eq_or_ne _ _⟩

theorem witness_DispatchHdrStep :
    let s := { decAt .dispatch .awaitingHeader 0#9 0#16 with
      dec := { (decAt .dispatch .awaitingHeader 0#9 0#16).dec with fbuf := headBuffer } }
    s.dec.phase = .dispatch ∧ s.dec.mode = .awaitingHeader ∧
    smallHdr.pid = Memory.read s.dec.fbuf 5 ∧
    smallHdr.len = of16 (Memory.read s.dec.fbuf 6) (Memory.read s.dec.fbuf 7) ∧
    smallHdr.lat = of32 (Memory.read s.dec.fbuf 8) (Memory.read s.dec.fbuf 9) (Memory.read s.dec.fbuf 10)
      (Memory.read s.dec.fbuf 11) ∧
    smallHdr.lon = of32 (Memory.read s.dec.fbuf 12) (Memory.read s.dec.fbuf 13) (Memory.read s.dec.fbuf 14)
      (Memory.read s.dec.fbuf 15) ∧
    smallHdr.alt = of16 (Memory.read s.dec.fbuf 16) (Memory.read s.dec.fbuf 17) ∧
    14 ≤ smallHdr.len.toNat ∧ { s with evt := alwaysReady }.evtReady := by decide

/-- The refused lengths: a buffer of zeros declares length 0, one with 13 at index 7 declares 13. -/
theorem witness_DispatchHdrStep_bad_length :
    (decAt .dispatch .awaitingHeader 0#9 0#16).dec.fbuf = [] ∧
    (readPktHdr []).len.toNat < 14 ∧ (readPktHdr [(7, 13#8)]).len.toNat = 13 ∧ (readPktHdr [(7, 14#8)]).len.toNat = 14 := by
  decide

theorem witness_DispatchDataStep :
    (decAt .dispatch .awaitingData 0#9 1#16).dec.phase = .dispatch ∧
    (decAt .dispatch .awaitingData 0#9 1#16).dec.mode = .awaitingData := by decide

theorem witness_StreamStep :
    let s := decAt .stream .awaitingData 223#9 1#16
    s.dec.phase = .stream ∧ s.dec.idx.toNat < 224 ∧ 0 < s.dec.rem.toNat ∧
    s.dec.refused = false ∧ { s with snk := acceptAll }.snkNow = some true ∧
    { s with snk := failAt 0 }.snkNow = some false ∧ { s.dec with refused := true }.refused = true ∧
    { s with evt := alwaysReady }.evtReady := by decide

theorem witness_StreamEndStep :
    let full := decAt .stream .awaitingData 224#9 1#16
    let done := decAt .stream .awaitingData 4#9 0#16
    full.dec.phase = .stream ∧ ¬ (full.dec.idx.toNat < 224 ∧ 0 < full.dec.rem.toNat) ∧ 0 < full.dec.rem.toNat ∧
    done.dec.phase = .stream ∧ ¬ (done.dec.idx.toNat < 224 ∧ 0 < done.dec.rem.toNat) ∧ done.dec.rem.toNat = 0 ∧
    { done with evt := alwaysReady }.evtReady := by decide

/-- No channel of these states is ready. -/
theorem witness_WaitingChangesNothing :
    (encAt .fill 223#9 1#16).enc.phase = .fill ∧ (encAt .fill 223#9 1#16).enc.idx.toNat < 224 ∧
    0 < (encAt .fill 223#9 1#16).enc.todo.toNat ∧ (encAt .fill 223#9 1#16).srcNow = none ∧
    (encAt .emit 256#9 0#16).enc.phase = .emit ∧ (encAt .emit 256#9 0#16).enc.idx.toNat ≤ 256 ∧
    (encAt .emit 256#9 0#16).txNow = none ∧
    (decAt .sync .awaitingData 0#9 1#16).dec.phase = .sync ∧ (decAt .sync .awaitingData 0#9 1#16).rxNow = none ∧
    (decAt .body .awaitingData 255#9 1#16).dec.phase = .body ∧
    (decAt .body .awaitingData 255#9 1#16).dec.idx.toNat ≤ 255 ∧ (decAt .body .awaitingData 255#9 1#16).rxNow = none ∧
    (decAt .dispatch .awaitingHeader 256#9 0#16).dec.phase = .dispatch ∧
    256 * (Memory.read (decAt .dispatch .awaitingHeader 256#9 0#16).dec.fbuf 6).toNat +
      (Memory.read (decAt .dispatch .awaitingHeader 256#9 0#16).dec.fbuf 7).toNat < 14 ∧
    ¬ (decAt .dispatch .awaitingHeader 256#9 0#16).evtReady ∧
    (decAt .stream .awaitingData 223#9 1#16).dec.phase = .stream ∧
    (decAt .stream .awaitingData 223#9 1#16).dec.idx.toNat < 224 ∧
    0 < (decAt .stream .awaitingData 223#9 1#16).dec.rem.toNat ∧
    (decAt .stream .awaitingData 223#9 1#16).dec.refused = false ∧
    (decAt .stream .awaitingData 223#9 1#16).snkNow = none ∧ ¬ (decAt .stream .awaitingData 223#9 1#16).evtReady ∧
    { (decAt .stream .awaitingData 223#9 1#16).dec with refused := true }.refused = true ∧
    (decAt .stream .awaitingData 4#9 0#16).dec.rem.toNat = 0 ∧
    (decAt .stream .awaitingData 4#9 0#16).dec.eventNow = some ⟨smallHdr, true⟩ := by decide

/-- One state for each place where an event is made, and an event word from outside. -/
theorem witness_EventIsATransactionOfDec :
    let done := { decAt .stream .awaitingData 4#9 0#16 with evt := alwaysReady }
    let held := decAt .stream .awaitingData 223#9 1#16
    let short := decAt .dispatch .awaitingHeader 256#9 0#16
    done.dec.phase = .stream ∧ ¬ (done.dec.idx.toNat < 224 ∧ 0 < done.dec.rem.toNat) ∧ done.dec.rem.toNat = 0 ∧
    smallHdr = done.dec.hdr ∧ done.evtReady ∧
    held.dec.idx.toNat < 224 ∧ 0 < held.dec.rem.toNat ∧ { held.dec with refused := true }.refused = true ∧
    smallHdr = held.dec.hdr ∧
    short.dec.phase = .dispatch ∧ short.dec.mode = .awaitingHeader ∧ (readPktHdr short.dec.fbuf).len.toNat < 14 ∧
    (onTurn (.line (encode (.evtPacket true smallHdr))) rest).turnNow = some (.line (encode (.evtPacket true smallHdr))) ∧
    (encode (.evtPacket true smallHdr)).sel = .evt := by decide

theorem witness_DueResponsesAreMade :
    let e := onTurn .enc { rest with enc := { rest.enc with rspDue := true } }
    let d := onTurn .dec { rest with dec := { rest.dec with rspDue := true } }
    e.turnNow = some .enc ∧ e.enc.phase = .idle ∧ e.enc.rspDue = true ∧ ¬ e.encRspReady ∧
    { e with encRsp := alwaysReady }.encRspReady ∧
    d.turnNow = some .dec ∧ d.dec.phase = .idle ∧ d.dec.rspDue = true ∧ ¬ d.decRspReady ∧
    { d with decRsp := alwaysReady }.decRspReady := by decide

theorem witness_OtherWordsSelectNothing :
    (onTurn (.line ⟨.wire, [0x5B#8]⟩) rest).turnNow = some (.line ⟨.wire, [0x5B#8]⟩) ∧
    decode ⟨.wire, [0x5B#8]⟩ = .error .wirePattern ∧ decode ⟨.encCmd, []⟩ = .error .wrongLength ∧
    (Selector.encCmd : Selector) ≠ .wire := by decide

theorem witness_ValidationIgnoresReassembly :
    (encAt .parity 224#9 0#16).enc.phase = .parity ∧ (encAt .parity 21#9 3#16).enc.phase = .parity ∧
    (encAt .parity 224#9 0#16).enc.fbuf = (encAt .parity 21#9 3#16).enc.fbuf := by decide

theorem witness_ResetEffects : exec .eBuild (encAt .build 0#9 3#16) = .next (buildFrame Config.given (encAt .build 0#9 3#16)) :=
  rfl

/-- A command accepted, its first frame about to be built, and a session in progress. -/
def running : State :=
  onTurn .enc
    { decAt .sync .awaitingHeader 0#9 0#16 with
      enc := { rest.enc with phase := .build, first := true, todo := 3#16 } }

theorem running_inv : Inv Config.given running := by
  constructor
  · constructor <;> simp [running, onTurn, decAt, rest, smallHdr, Memory.wf, Memory.rising]
  · constructor <;> simp [running, onTurn, decAt, rest, Memory.wf, Memory.rising]

/-- The state after the frame header and the secondary header were written. -/
def built : State := buildFrame Config.given running

theorem witness_StepKeepsInvariant : Inv Config.given running ∧ step running = .next built :=
  ⟨running_inv, rfl⟩

theorem witness_InvariantGivesRanges : Inv Config.given running := running_inv

theorem witness_MachineNeverStops : Inv Config.given running := running_inv

theorem witness_AgentsShareNothing :
    exec .eBuild running = .next built ∧ isEncOp .eBuild = true ∧
    exec .decodeStream rest = .next (offerDecode rest) ∧ isEncOp .decodeStream = false :=
  ⟨rfl, by decide, rfl, by decide⟩

/-- Two states that agree on one agent's side and differ on the other's. -/
theorem witness_AgentsReadOnlyTheirOwn :
    isEncOp .eEmit = true ∧ (encAt .emit 0#9 0#16).encSide = { encAt .emit 0#9 0#16 with decCmd := 3 }.encSide ∧
    isEncOp .dBody = false ∧
    (decAt .body .awaitingHeader 7#9 0#16).decSide =
      { decAt .body .awaitingHeader 7#9 0#16 with encCmd := [smallHdr] }.decSide := by decide

/-- Idle agents whose unspecified registers differ, and a frame in DISPATCH whose parity trailers differ. -/
theorem witness_UnspecifiedRegistersUnread :
    alike (encAt .idle 7#9 3#16) (encAt .idle 9#9 5#16) ∧
    alike (decAt .dispatch .awaitingHeader 256#9 3#16)
      { rest with dec := { rest.dec with
          phase := .dispatch, status := .running, rem := 5#16, idx := 0#9, fbuf := [(224, 1#8)] } } := by
  constructor
  · simp [alike, Enc.alike, Dec.alike, encAt, rest]
  · simp [alike, Enc.alike, Dec.alike, decAt, rest, sameBelow, Memory.read, Memory.blank]
    omega

theorem witness_TransfersStay : step running = .next built := rfl

theorem witness_SequenceCounterLaw :
    exec .eBuild running = .next built ∧ exec .encReset running = .next (resetEnc Config.given running) ∧
    exec .decodeStream rest = .next (offerDecode rest) ∧ Instr.decodeStream ≠ .eBuild ∧ Instr.decodeStream ≠ .encReset :=
  ⟨rfl, rfl, rfl, by decide, by decide⟩

theorem witness_HeaderLatch :
    let h := { smallHdr with len := 14#16 }
    exec (.encode h) rest = .next (offerEncode h rest) ∧
    (offerEncode h rest).enc.hdr ≠ rest.enc.hdr := ⟨rfl, by decide⟩

theorem witness_ResponsesAnswerCommands :
    let s := { encAt .emit 0#9 3#16 with tx := failAt 0 }
    let t := onTurn .enc { emitByte Config.given s with encRsp := alwaysReady }
    exec .eEmit s = .next (emitByte Config.given s) ∧ s.enc.rspDue = false ∧ s.enc.phase ≠ .idle ∧
    (emitByte Config.given s).enc.phase = .idle ∧
    step t = .next (respondEnc Config.given t) ∧ (respondEnc Config.given t).encRsps ≠ t.encRsps ∧
    t.enc.rspDue = true ∧ (respondEnc Config.given t).enc.rspDue = false :=
  ⟨rfl, by decide, by decide, by decide, rfl, by decide, by decide, by decide⟩

/-- The last wire byte of a frame that carries all of a packet. -/
def lastByte : State :=
  { rest with
    enc := { rest.enc with
      phase := .emit, idx := 256#9, fbuf := writeFrameHdr Memory.cleared Config.given.protocolVersion 0x01FE#16 }
    tx := acceptAll }

theorem witness_ResultCountsFrames :
    EncInv Config.given lastByte.enc ∧ exec .eEmit lastByte = .next (emitByte Config.given lastByte) ∧
    (emitByte Config.given lastByte).enc.phase = .idle ∧ (emitByte Config.given lastByte).enc.res.status = .ok := by
  refine ⟨?_, rfl, by decide, by decide⟩
  constructor <;> simp [lastByte, rest, smallHdr]
  · exact wf_writeFrameHdr _ _ Memory.wf_cleared
  · simp [Enc.headed, writeFrameHdr, Memory.write16, Memory.read16, be16, Memory.writeBytes, Memory.read_write, of16]

theorem witness_EncoderControlFlow : exec .eBuild running = .next built := rfl

theorem witness_EmitsWholeFrame :
    let s := onTurn .enc { encAt .emit 0#9 1#16 with tx := acceptAll }
    s.enc.phase = .emit ∧ s.enc.idx = 0#9 ∧ 0 < s.enc.todo.toNat ∧ s.tx = acceptAll ∧
    s.turns = ⟨[], .always (some .enc)⟩ := by decide

/-- A packet without payload, and one whose source holds a byte more than the packet. -/
theorem witness_EncoderSendsFrames :
    let s := runOnly .enc (offer { smallHdr with len := 14#16 } { rest with tx := acceptAll })
    let s' := runOnly .enc (offer smallHdr { rest with tx := acceptAll, src := bytesThenNone [1#8, 2#8, 3#8, 4#8] })
    (14#16).toNat = ([] : List Byte).length + 14 ∧ s.enc.phase = .idle ∧ s.enc.rspDue = false ∧
    s.encCmd = { smallHdr with len := 14#16 } :: [] ∧
    s.src.queue = ([] : List Byte).map (fun b => some (some b)) ++ [] ∧ s.tx = acceptAll ∧ s.encRsp = alwaysReady ∧
    s.turns = ⟨[], .always (some .enc)⟩ ∧
    smallHdr.len.toNat = [1#8, 2#8, 3#8].length + 14 ∧ s'.enc.phase = .idle ∧ s'.encCmd = smallHdr :: [] ∧
    s'.src.queue = [1#8, 2#8, 3#8].map (fun b => some (some b)) ++ [some (some 4#8)] ∧ s'.tx = acceptAll ∧
    s'.encRsp = alwaysReady ∧ s'.turns = ⟨[], .always (some .enc)⟩ := by decide

theorem witness_SyncNeedsOddRun : (0x5A#8 : Byte) ≠ 0xAA#8 ∧ (0x00#8 : Byte) ≠ 0xAA#8 := by decide

theorem witness_DecoderControlFlow : exec .decodeStream rest = .next (offerDecode rest) := rfl

theorem witness_ReassemblyModeFlow :
    let s := decAt .stream .awaitingHeader 224#9 1#16
    exec .dStreamEnd s = .next (streamEnd Config.given s) ∧ (streamEnd Config.given s).dec.mode ≠ s.dec.mode :=
  ⟨rfl, by decide⟩

theorem witness_SessionEnds :
    let s := { decAt .sync .awaitingData 0#9 1#16 with rx := bytesThenNone [] }
    exec .dSync s = .next (scanByte Config.given s) ∧ Instr.dSync ≠ .decReset ∧ s.dec.phase ≠ .idle ∧
    (scanByte Config.given s).dec.phase = .idle := ⟨rfl, by decide, by decide, by decide⟩

theorem witness_EventsClosePackets :
    let s := { decAt .stream .awaitingHeader 18#9 0#16 with evt := alwaysReady }
    exec .dStreamEnd s = .next (streamEnd Config.given s) ∧ (streamEnd Config.given s).events ≠ s.events ∧
    step (onTurn .dec s) = .next (streamEnd Config.given (onTurn .dec s)) :=
  ⟨rfl, by decide, rfl⟩

theorem witness_BodyReadsWholeFrame :
    let s := onTurn .dec { decAt .body .awaitingHeader 1#9 0#16 with rx := bytesThenNone (List.replicate 255 0x41#8) }
    s.dec.phase = .body ∧ s.dec.idx = 1#9 ∧ (List.replicate 255 0x41#8).length = 255 ∧
    s.rx.queue = (List.replicate 255 0x41#8).map (fun b => some (some b)) ++ [] ∧
    s.turns = ⟨[], .always (some .dec)⟩ := by decide +kernel

theorem witness_ArrivingFrameIsRead :
    let f : Frame := ⟨0x01#8, 0x01FF#16, List.replicate 220 0xAA#8, List.replicate 32 0x5A#8⟩
    let s := onTurn .dec (decAt .sync .awaitingHeader 0#9 0#16)
    f.wellFormed = true ∧ s.dec.phase = .sync ∧ s.dec.scan = .hunt ∧ s.rx.queue = [] ∧
    s.turns = ⟨[], .always (some .dec)⟩ := by decide +kernel

theorem witness_DecoderImplementsDecode :
    let s := runOnly .dec (offerSession
      { rest with rx := bytesThenNone [0xAA#8, 0x5A#8, 0x01#8], snk := ⟨[some true, some false], .always (some true)⟩ })
    s.dec.phase = .idle ∧ s.dec.rspDue = false ∧ s.dec.refused = false ∧ s.decCmd = 0 + 1 ∧ s.rx = bytesThenNone [0xAA#8, 0x5A#8, 0x01#8] ∧
    s.snk = ⟨[true, false].map some, .always (some true)⟩ ∧ s.evt = alwaysReady ∧ s.decRsp = alwaysReady ∧
    s.turns = ⟨[], .always (some .dec)⟩ := by decide

/-- A configuration whose codec has P1, a packet with payload, one without, and the zero-length packet. -/
theorem witness_RoundTrip :
    (Laws.Codec.config 0x01#8).CleanCodeword ∧ smallHdr.len.toNat = [0x41#8, 0x42#8, 0x43#8].length + 14 ∧
    { smallHdr with len := 14#16 }.len.toNat = ([] : List Byte).length + 14 ∧ { smallHdr with len := 0#16 }.len.toNat = 0 :=
  ⟨Laws.Codec.clean _, by decide, by decide, by decide⟩

/-- A configuration whose codec has P2 with capacity 2, the codeword of the message of zeros, and the same with one
byte of the message corrupted. -/
theorem witness_CorruptionBelowCapacityIsInvisible :
    let c := Laws.Codec.config 0x01#8
    c.Corrects ∧
    codewordIn [] = codewordOf (fun _ => 0#8) (c.fecEncode fun _ => 0#8) ∧
    codewordErrors (codewordIn []) (codewordIn [(5, 1#8)]) < c.fecT ∧
    (∀ a, a = 0 ∨ 224 ≤ a → Memory.read [(5, 1#8)] a = Memory.read [] a) ∧
    codewordIn [] ≠ codewordIn [(5, 1#8)] := by
  refine ⟨Laws.Codec.corrects _, ?_, ?_, ?_, ?_⟩
  · funext j
    rw [Laws.Codec.config_fecEncode, Laws.Codec.sums_zero]
    unfold codewordOf
    split <;> rfl
  · rw [Laws.Codec.config_fecT]
    refine Nat.lt_succ_of_le (Finset.card_le_one.mpr ?_)
    intro a ha b hb
    have only (x : Fin 255) (hx : x ∈ Finset.univ.filter fun j => codewordIn [] j ≠ codewordIn [(5, 1#8)] j) :
        x.val = 4 := by
      by_contra hn
      have h := (Finset.mem_filter.mp hx).2
      simp only [codewordIn, Memory.read] at h
      rw [if_neg (by omega)] at h
      exact h rfl
    exact Fin.ext ((only a ha).trans (only b hb).symm)
  · rintro a (rfl | ha)
    · rfl
    · simp [Memory.read, show 5 ≠ a by omega]
  · exact fun h => absurd (congrFun h 4) (by decide)

theorem witness_CanonicalBuffersAreEqual :
    Memory.wf headBuffer = true ∧ Memory.wf (Memory.write headBuffer 2 0x01#8) = true ∧
    ∀ a, a < 256 → Memory.read headBuffer a = Memory.read (Memory.write headBuffer 2 0x01#8) a := by decide +kernel

theorem witness_FrameGeometry :
    (frames vectors smallHdr [0x41#8] 0x01FF#16)[0]? =
      some (frameWith vectors 0x01FF#16 (region (packetString vectors smallHdr [0x41#8]))) := rfl

theorem witness_FrameCountLaw : 0 < 1 ∧ frameCount 1 = 1 := by decide

end Sys2Proof.Tests
end

section
/-! The steps of ENC and DEC one case at a time, and the statements about them: FILL, EMIT, SYNC, BODY, VALIDATE and
STREAM. Each equation below is one case of the law that says once what its operation can do (Sys2Proof/Laws/Ops.lean). -/

namespace Sys2Proof.Machine

/-! ## When a selected step happens -/

section Selected
variable {s : State}

theorem exec_eFill_of_fill (hp : s.enc.phase = .fill) : exec .eFill s = .next (fillByte Config.given s) :=
  whenSelected_pos hp

theorem exec_dSync_of_sync (hp : s.dec.phase = .sync) : exec .dSync s = .next (scanByte Config.given s) :=
  whenSelected_pos hp

theorem exec_dValidate_of_validate (hp : s.dec.phase = .validate) :
    exec .dValidate s = .next (validate Config.given s) :=
  whenSelected_pos hp

theorem exec_dStream_of_more (hp : s.dec.phase = .stream) (hm : s.dec.more) :
    exec .dStream s = .next (streamByte Config.given s) :=
  whenSelected_pos ⟨hp, hm⟩

/-- R25: the wire index of EMIT is at most 256, and then no byte outside the buffer is asked for. -/
theorem exec_eEmit_of_emit (hp : s.enc.phase = .emit) (hi : s.enc.idx.toNat ≤ 256) :
    exec .eEmit s = .next (emitByte Config.given s) :=
  (if_neg fun h => Nat.not_lt.mpr hi h.2).trans (whenSelected_pos hp)

/-- R63: the index of BODY is at most 255, and then no byte outside the buffer is written. -/
theorem exec_dBody_of_body (hp : s.dec.phase = .body) (hi : s.dec.idx.toNat ≤ 255) :
    exec .dBody s = .next (readBody Config.given s) :=
  (if_neg fun h => Nat.not_lt.mpr hi h.2).trans (whenSelected_pos hp)

end Selected

/-! ## The cases of each step -/

section Cases
variable {c : Config} {s : State}

theorem fillByte_of_full (hp : ¬ s.enc.pulls) :
    fillByte c s = { s with enc := { s.enc with phase := .parity } } := by
  simpa only [hp, false_and, false_or, not_false_eq_true, true_and] using fillByte_cases c s

theorem fillByte_of_byte {b : Byte} (hp : s.enc.pulls) (hb : s.src.peek c.srcDraw = some (some b)) :
    fillByte c s =
      { s with
        src := s.src.pop
        enc := { s.enc with
          fbuf := Memory.write s.enc.fbuf s.enc.idx.toNat b
          idx := s.enc.idx + 1#9
          todo := s.enc.todo - 1#16 } } := by
  simpa [eq_true hp, hb] using fillByte_cases c s

theorem fillByte_of_none (hp : s.enc.pulls) (hb : s.src.peek c.srcDraw = some none) :
    fillByte c s = endCommand .errSrc s.enc.count { s with src := s.src.pop } := by
  simpa [eq_true hp, hb] using fillByte_cases c s

theorem emitByte_of_refused (ht : s.tx.peek c.txDraw = some false) :
    emitByte c s = endCommand .errTx s.enc.count { s with tx := s.tx.pop } := by
  simpa [ht] using emitByte_cases c s

theorem emitByte_of_inner (ht : s.tx.peek c.txDraw = some true) (hi : s.enc.idx.toNat < 256) :
    emitByte c s =
      { s with
        tx := s.tx.pop
        wire := s.wire ++ [wireByte s.enc.fbuf s.enc.idx.toNat]
        enc := { s.enc with idx := s.enc.idx + 1#9 } } := by
  simpa [ht, hi, Nat.not_le.mpr hi] using emitByte_cases c s

theorem emitByte_of_last (ht : s.tx.peek c.txDraw = some true) (hi : 256 ≤ s.enc.idx.toNat)
    (h0 : s.enc.todo.toNat = 0) :
    emitByte c s =
      endCommand .ok (s.enc.count + 1#16)
        { s with
          tx := s.tx.pop
          wire := s.wire ++ [wireByte s.enc.fbuf s.enc.idx.toNat]
          enc := { s.enc with count := s.enc.count + 1#16 } } := by
  simpa only [ht, hi, h0, Nat.not_lt.mpr hi, reduceCtorEq, Option.some.injEq, lt_irrefl, true_and, false_and,
    false_or, or_false] using emitByte_cases c s

theorem emitByte_of_next (ht : s.tx.peek c.txDraw = some true) (hi : 256 ≤ s.enc.idx.toNat)
    (h0 : 0 < s.enc.todo.toNat) :
    emitByte c s =
      { s with
        tx := s.tx.pop
        wire := s.wire ++ [wireByte s.enc.fbuf s.enc.idx.toNat]
        enc := { s.enc with count := s.enc.count + 1#16, phase := .build } } := by
  simpa only [ht, hi, h0, h0.ne', Nat.not_lt.mpr hi, reduceCtorEq, Option.some.injEq, true_and, false_and,
    false_or] using emitByte_cases c s

/-- R141: what completes the pattern. -/
theorem scan_eq_matched_iff {t : Scan} {b : Byte} : scan t b = .matched ↔ t = .gotAA ∧ b = 0x5A#8 := by
  cases t with
  | hunt => by_cases hb : b = 0xAA#8 <;> simp [scan, hb]
  | gotAA => by_cases hb : b = 0x5A#8 <;> simp [scan, hb]

/-- R141: where the scanner goes on without a match. -/
theorem scan_of_no_match {t : Scan} {b : Byte} (h : ¬ (t = .gotAA ∧ b = 0x5A#8)) :
    scan t b = .stay (if t = .hunt ∧ b = 0xAA#8 then .gotAA else .hunt) := by
  cases t with
  | hunt => by_cases hb : b = 0xAA#8 <;> simp [scan, hb]
  | gotAA =>
    have hb : b ≠ 0x5A#8 := fun hb => h ⟨rfl, hb⟩
    simp [scan, hb]

theorem scanByte_of_none (hr : s.rx.peek c.rxDraw = some none) :
    scanByte c s = endSession .endEosSync { s with rx := s.rx.pop } := by
  simpa [hr] using scanByte_cases c s

theorem scanByte_of_match {b : Byte} (hr : s.rx.peek c.rxDraw = some (some b)) (hm : scan s.dec.scan b = .matched) :
    scanByte c s =
      { s with
        rx := s.rx.pop
        dec := { s.dec with
          fbuf := Memory.write s.dec.fbuf 0 syncContByte
          idx := 1#9
          scan := .hunt
          phase := .body } } := by
  simpa [hr, hm] using scanByte_cases c s

theorem scanByte_of_stay {b : Byte} {t : Scan} (hr : s.rx.peek c.rxDraw = some (some b))
    (hm : scan s.dec.scan b = .stay t) :
    scanByte c s = { s with rx := s.rx.pop, dec := { s.dec with scan := t } } := by
  simpa [hr, hm] using scanByte_cases c s

theorem readBody_of_none (hr : s.rx.peek c.rxDraw = some none) :
    readBody c s = endSession .endEosBody { s with rx := s.rx.pop } := by
  simpa [hr] using readBody_cases c s

theorem readBody_of_byte {b : Byte} (hr : s.rx.peek c.rxDraw = some (some b)) :
    readBody c s =
      { s with
        rx := s.rx.pop
        dec := { s.dec with
          fbuf := Memory.write s.dec.fbuf s.dec.idx.toNat b
          idx := s.dec.idx + 1#9
          phase := if s.dec.idx.toNat = 255 then .validate else .body } } := by
  simpa [hr] using readBody_cases c s

theorem validate_of_uncorrectable (hf : c.fecDecode (codewordIn s.dec.fbuf) = none) :
    validate c s = endSession .endFec s := by
  simpa [hf] using validate_cases c s

theorem validate_of_version {m : Message} (hf : c.fecDecode (codewordIn s.dec.fbuf) = some m)
    (hv : m 0 = c.protocolVersion) :
    validate c s =
      { s with
        dec := { s.dec with
          fbuf := writeMessage s.dec.fbuf m
          seqRx := of16 (m 1) (m 2)
          phase := .dispatch } } := by
  simpa [hf, hv] using validate_cases c s

theorem validate_of_badVersion {m : Message} (hf : c.fecDecode (codewordIn s.dec.fbuf) = some m)
    (hv : m 0 ≠ c.protocolVersion) :
    validate c s = endSession .endVersion { s with dec := { s.dec with fbuf := writeMessage s.dec.fbuf m } } := by
  simpa [hf, hv] using validate_cases c s

theorem streamByte_of_taken (hr : s.dec.refused = false) (hs : s.snk.peek c.snkDraw = some true) :
    streamByte c s =
      { s with
        snk := s.snk.pop
        sunk := s.sunk ++ [Memory.read s.dec.fbuf s.dec.idx.toNat]
        dec := { s.dec with idx := s.dec.idx + 1#9, rem := s.dec.rem - 1#16 } } := by
  simpa [hr, hs] using streamByte_cases c s

theorem streamByte_of_refusal (hr : s.dec.refused = false) (hs : s.snk.peek c.snkDraw = some false) :
    streamByte c s = { s with snk := s.snk.pop, dec := { s.dec with refused := true } } := by
  simpa [hr, hs] using streamByte_cases c s

theorem streamByte_of_refused (hr : s.dec.refused = true) (he : s.evt.peek c.evtDraw = some ()) :
    streamByte c s = closePacket false s := by
  simpa [hr, he] using streamByte_cases c s

end Cases

/-! ## What the wire carries -/

@[simp] theorem wireByte_256 (m : Memory) : wireByte m 256 = Memory.read m 255 := rfl

/-- What a byte reads as once one byte is written, the index asked for on the left. -/
theorem Memory.read_write_eq_ite (m : Memory) (i a : Nat) (b : Byte) :
    Memory.read (Memory.write m i b) a = if a = i then b else Memory.read m a := by
  simp only [Memory.read_write, eq_comm]

/-! ## The statements -/

/-- Settles O13: the three cases of `E.FILL`, and what the buffer reads as once its byte is written. -/
theorem fillStep : Obligations.FillStep := by
  intro s hp
  rw [exec_eFill_of_fill hp]
  refine ⟨fun hfull => by rw [fillByte_of_full hfull], fun hpull => ⟨fun b hb => ?_, fun hnone => ?_⟩⟩
  · exact ⟨_, by rw [fillByte_of_byte hpull hb], fun a => Memory.read_write_eq_ite _ _ a b⟩
  · rw [fillByte_of_none hpull hnone]
    rfl

/-- Settles O15: the four cases of `E.EMIT`; the byte sent behind index 256 is the buffer's last one. -/
theorem emitStep : Obligations.EmitStep := by
  intro s hp hi
  rw [exec_eEmit_of_emit hp hi]
  refine ⟨fun ht hlt => ?inner, fun ht h256 hmore => ?next, fun ht h256 h0 => ?last, fun ht => ?refused⟩
  case inner =>
    rw [emitByte_of_inner ht hlt]
    rfl
  case next => rw [emitByte_of_next ht h256.ge hmore, h256, wireByte_256]
  case last =>
    rw [emitByte_of_last ht h256.ge h0, h256, wireByte_256]
    rfl
  case refused =>
    rw [emitByte_of_refused ht]
    rfl

/-- Settles O17: the scanner's table decides between the match and going on. -/
theorem syncStep : Obligations.SyncStep := by
  intro s hp
  rw [exec_dSync_of_sync hp]
  refine ⟨fun b hb hscan h5A => ?matched, fun b hb hno => ?stay, fun hnone => ?ends⟩
  case matched =>
    have hmatch := scan_eq_matched_iff.mpr ⟨hscan, h5A⟩
    exact ⟨_, by rw [scanByte_of_match hb hmatch], fun a => Memory.read_write_eq_ite _ 0 a _⟩
  case stay => rw [scanByte_of_stay hb (scan_of_no_match hno)]
  case ends =>
    rw [scanByte_of_none hnone]
    rfl

/-- Settles O18: the two cases of `D.BODY` at an index of the buffer. -/
theorem bodyStep : Obligations.BodyStep := by
  intro s hp hi
  rw [exec_dBody_of_body hp hi]
  refine ⟨fun b hb => ?_, fun hnone => ?_⟩
  · exact ⟨_, by rw [readBody_of_byte hb], fun a => Memory.read_write_eq_ite _ _ a b⟩
  · rw [readBody_of_none hnone]
    rfl

/-- Settles O19: the codec's answer first, then the version of the corrected message; in both cases behind the codec
the buffer is the one with the message written. -/
theorem validateStep : Obligations.ValidateStep := by
  intro s hp
  rw [exec_dValidate_of_validate hp]
  refine ⟨fun hf => ?uncorrectable, fun msg hf => ⟨writeMessage s.dec.fbuf msg, ?inside, ?outside, ?right, ?wrong⟩⟩
  case uncorrectable =>
    rw [validate_of_uncorrectable hf]
    rfl
  case inside =>
    intro i
    rw [read_writeMessage, dif_pos (by omega)]
    exact congrArg msg (Fin.ext (Nat.add_sub_cancel_left 1 i.val))
  case outside =>
    intro a ha
    rw [read_writeMessage, dif_neg (by omega)]
  case right =>
    intro hv
    rw [validate_of_version hf hv]
  case wrong =>
    intro hv
    rw [validate_of_badVersion hf hv]
    rfl

/-- Settles O22: SNK's answer decides the first transaction, and a refused byte leaves the event as the second. -/
theorem streamStep : Obligations.StreamStep := by
  intro s hp hi hrem
  rw [exec_dStream_of_more hp ⟨hi, hrem⟩]
  refine ⟨fun hr hs => ?taken, fun hr hs => ?refusal, fun hr he => ?event⟩
  case taken => rw [streamByte_of_taken hr hs]
  case refusal => rw [streamByte_of_refusal hr hs]
  case event =>
    rw [streamByte_of_refused hr he]
    rfl

end Sys2Proof.Machine
end

section
/-! Whose turn it is and what follows from it: a due response is made (R72, R74), and where the invariant holds no step
stops (R8, R25, R30). -/

namespace Sys2Proof.Machine

/-! ## The fetch, by whose turn it is -/

section Fetch
variable {s : State}

theorem fetch_of_nobody (h : s.turnNow = none) :
    fetch Config.given s = .noOp { s with turns := s.turns.pop } := by
  simp only [fetch, h]

theorem fetch_of_encTurn (h : s.turnNow = some .enc) :
    fetch Config.given s = fetchEnc Config.given { s with turns := s.turns.pop } := by
  simp only [fetch, h]

theorem fetch_of_decTurn (h : s.turnNow = some .dec) :
    fetch Config.given s = fetchDec Config.given { s with turns := s.turns.pop } := by
  simp only [fetch, h]

theorem fetch_of_line {w : OpWord} (h : s.turnNow = some (.line w)) :
    fetch Config.given s = fetchLine w { s with turns := s.turns.pop } := by
  simp only [fetch, h]

theorem fetchEnc_of_due {c : Config} (hp : s.enc.phase = .idle) (hd : s.enc.rspDue = true) :
    fetchEnc c s = .noOp (respondEnc c s) := by
  rw [fetchEnc, if_pos hp, if_pos hd]

theorem fetchEnc_of_no_command {c : Config} (hp : s.enc.phase = .idle) (hd : s.enc.rspDue = false)
    (hq : s.encCmd = []) : fetchEnc c s = .noOp s := by
  simp [fetchEnc, hp, hd, hq]

theorem fetchEnc_of_command {c : Config} {h : PacketHeader} {hs : List PacketHeader} (hp : s.enc.phase = .idle)
    (hd : s.enc.rspDue = false) (hq : s.encCmd = h :: hs) :
    fetchEnc c s = .word (encode (.encode h)) { s with encCmd := hs } := by
  simp [fetchEnc, hp, hd, hq]

theorem fetchEnc_of_busy {c : Config} (hp : s.enc.phase ≠ .idle) : fetchEnc c s = .word s.enc.selector s :=
  if_neg hp

theorem fetchDec_of_due {c : Config} (hp : s.dec.phase = .idle) (hd : s.dec.rspDue = true) :
    fetchDec c s = .noOp (respondDec c s) := by
  rw [fetchDec, if_pos hp, if_pos hd]

theorem fetchDec_of_no_command {c : Config} (hp : s.dec.phase = .idle) (hd : s.dec.rspDue = false)
    (hq : s.decCmd = 0) : fetchDec c s = .noOp s := by
  simp [fetchDec, hp, hd, hq]

theorem fetchDec_of_command {c : Config} {n : Nat} (hp : s.dec.phase = .idle) (hd : s.dec.rspDue = false)
    (hq : s.decCmd = n + 1) : fetchDec c s = .word (encode .decodeStream) { s with decCmd := n } := by
  simp [fetchDec, hp, hd, hq]

theorem fetchDec_of_busy {c : Config} (hp : s.dec.phase ≠ .idle) : fetchDec c s = .word s.dec.selector s :=
  if_neg hp

end Fetch

/-! ## The step, by what was fetched -/

theorem step_of_noOp {s t : State} (h : fetch Config.given s = .noOp t) : step s = .next t := by
  simp only [step, h]

theorem step_of_word {s t : State} {w : OpWord} {i : Instr} (h : fetch Config.given s = .word w t)
    (hd : decode w = .ok i) : step s = exec i t := by
  simp only [step, h, hd]

theorem step_of_no_operation {s t : State} {w : OpWord} {e : DecodeError} (h : fetch Config.given s = .word w t)
    (hd : decode w = .error e) : step s = .next (noOperation w t) := by
  simp only [step, h, hd]

/-! ## The responses that are due -/

section Respond
variable {c : Config} {s : State}

theorem respondEnc_of_ready (h : s.encRsp.peek c.encRspDraw = some ()) :
    respondEnc c s =
      { s with
        enc := { s.enc with rspDue := false }
        encRsp := s.encRsp.pop
        encRsps := s.encRsps ++ [s.enc.res] } := by
  simpa [h] using respondEnc_cases c s

theorem respondEnc_of_not_ready (h : s.encRsp.peek c.encRspDraw ≠ some ()) :
    respondEnc c s = { s with encRsp := s.encRsp.pop } := by
  obtain ⟨_, e⟩ | ⟨hready, _⟩ := respondEnc_cases c s
  · exact e
  · exact absurd hready h

theorem respondDec_of_ready (h : s.decRsp.peek c.decRspDraw = some ()) :
    respondDec c s =
      { s with
        dec := { s.dec with rspDue := false }
        decRsp := s.decRsp.pop
        decRsps := s.decRsps ++ [s.dec.status] } := by
  simpa [h] using respondDec_cases c s

theorem respondDec_of_not_ready (h : s.decRsp.peek c.decRspDraw ≠ some ()) :
    respondDec c s = { s with decRsp := s.decRsp.pop } := by
  obtain ⟨_, e⟩ | ⟨hready, _⟩ := respondDec_cases c s
  · exact e
  · exact absurd hready h

end Respond

theorem step_of_enc_due {s : State} (ht : s.turnNow = some .enc) (hp : s.enc.phase = .idle)
    (hd : s.enc.rspDue = true) : step s = .next (respondEnc Config.given { s with turns := s.turns.pop }) :=
  step_of_noOp ((fetch_of_encTurn ht).trans (fetchEnc_of_due hp hd))

theorem step_of_dec_due {s : State} (ht : s.turnNow = some .dec) (hp : s.dec.phase = .idle)
    (hd : s.dec.rspDue = true) : step s = .next (respondDec Config.given { s with turns := s.turns.pop }) :=
  step_of_noOp ((fetch_of_decTurn ht).trans (fetchDec_of_due hp hd))

/-- Settles O59: the turn of an idle agent with a response to make is that response, or the wait for its channel. -/
theorem dueResponsesAreMade : Obligations.DueResponsesAreMade := by
  intro s
  refine ⟨fun ht hp hd hr => ?encReady, fun ht hp hd hr => ?encWaits,
    fun ht hp hd hr => ?decReady, fun ht hp hd hr => ?decWaits⟩
  case encReady => exact (step_of_enc_due ht hp hd).trans (congrArg _ (respondEnc_of_ready hr))
  case encWaits => exact (step_of_enc_due ht hp hd).trans (congrArg _ (respondEnc_of_not_ready hr))
  case decReady => exact (step_of_dec_due ht hp hd).trans (congrArg _ (respondDec_of_ready hr))
  case decWaits => exact (step_of_dec_due ht hp hd).trans (congrArg _ (respondDec_of_not_ready hr))

/-! ## Operations that have a next state -/

/-- R25: the code that stands in `ENC.PHASE` selects a step that this phase enables, and R41 bounds the index of EMIT. -/
theorem exec_selected_enc {s : State} (hp : s.enc.phase ≠ .idle)
    (hi : s.enc.phase = .emit → s.enc.idx.toNat ≤ 256) :
    ∃ i t, decode s.enc.selector = .ok i ∧ exec i s = .next t := by
  cases hphase : s.enc.phase with
  | idle => exact absurd hphase hp
  | build => exact ⟨.eBuild, _, by rw [Enc.selector, hphase]; rfl, whenSelected_pos hphase⟩
  | fill => exact ⟨.eFill, _, by rw [Enc.selector, hphase]; rfl, exec_eFill_of_fill hphase⟩
  | parity => exact ⟨.eParity, _, by rw [Enc.selector, hphase]; rfl, whenSelected_pos hphase⟩
  | emit => exact ⟨.eEmit, _, by rw [Enc.selector, hphase]; rfl, exec_eEmit_of_emit hphase (hi hphase)⟩

/-- R30, R115: the selector of DEC selects a step that its phase enables, in DISPATCH with the mode and in STREAM with
what is left to deliver, and R41 bounds the index of BODY. -/
theorem exec_selected_dec {s : State} (hp : s.dec.phase ≠ .idle)
    (hi : s.dec.phase = .body → s.dec.idx.toNat ≤ 255) :
    ∃ i t, decode s.dec.selector = .ok i ∧ exec i s = .next t := by
  cases hphase : s.dec.phase with
  | idle => exact absurd hphase hp
  | sync => exact ⟨.dSync, _, by rw [Dec.selector, hphase]; rfl, exec_dSync_of_sync hphase⟩
  | body => exact ⟨.dBody, _, by rw [Dec.selector, hphase]; rfl, exec_dBody_of_body hphase (hi hphase)⟩
  | validate => exact ⟨.dValidate, _, by rw [Dec.selector, hphase]; rfl, exec_dValidate_of_validate hphase⟩
  | dispatch =>
    cases hmode : s.dec.mode with
    | awaitingHeader =>
      exact ⟨.dDispatchHdr, _, by rw [Dec.selector, hphase, hmode]; rfl, whenSelected_pos ⟨hphase, hmode⟩⟩
    | awaitingData =>
      exact ⟨.dDispatchData, _, by rw [Dec.selector, hphase, hmode]; rfl, whenSelected_pos ⟨hphase, hmode⟩⟩
  | stream =>
    by_cases hm : s.dec.more
    · exact ⟨.dStream, _, by rw [Dec.selector, hphase, decide_eq_true hm]; rfl, exec_dStream_of_more hphase hm⟩
    · exact ⟨.dStreamEnd, _, by rw [Dec.selector, hphase, decide_eq_false hm]; rfl, whenSelected_pos ⟨hphase, hm⟩⟩

/-- R61: what the wire patterns do is that bytes arrive. -/
theorem exec_of_decodeWire {bs : List Byte} {i : Instr} (h : decodeWire bs = .ok i) (s : State) :
    ∃ arriving, exec i s = .next (arrive arriving s) := by
  unfold decodeWire at h
  repeat' split at h
  all_goals cases h
  all_goals exact ⟨_, rfl⟩

/-- R20, R71: the lines that someone outside drives: the command channels, the reset inputs and the wire. -/
def drivenFromOutside : Selector → Prop
  | .encPhase => False
  | .decPhase _ => False
  | .evt => False
  | _ => True

theorem fetchLine_cases (w : OpWord) (s : State) :
    fetchLine w s = .noOp s ∨ (drivenFromOutside w.sel ∧ fetchLine w s = .word w s) := by
  obtain ⟨sel, bs⟩ := w
  cases sel <;> simp [fetchLine, drivenFromOutside]

/-- R72, R310, R61: no operation that stands on a line from outside stops the machine, in whatever state it is. -/
theorem exec_of_outside {w : OpWord} {i : Instr} (hw : drivenFromOutside w.sel) (hd : decode w = .ok i) (s : State) :
    ∃ t, exec i s = .next t := by
  obtain ⟨sel, bs⟩ := w
  cases sel with
  | encPhase => exact hw.elim
  | decPhase _ => exact hw.elim
  | evt => exact hw.elim
  | wire =>
    obtain ⟨arriving, he⟩ := exec_of_decodeWire hd s
    exact ⟨_, he⟩
  | encCmd | decCmd | encReset | decReset =>
    simp only [decode] at hd
    split at hd
    all_goals cases hd
    exact ⟨_, rfl⟩

/-! ## No step stops -/

section NoStop
variable {s : State}

theorem step_next_of_encTurn (ht : s.turnNow = some .enc) (hi : s.enc.phase = .emit → s.enc.idx.toNat ≤ 256) :
    ∃ t, step s = .next t := by
  by_cases hp : s.enc.phase = .idle
  · cases hd : s.enc.rspDue with
    | true => exact ⟨_, step_of_enc_due ht hp hd⟩
    | false =>
      cases hq : s.encCmd with
      | nil => exact ⟨_, step_of_noOp ((fetch_of_encTurn ht).trans (fetchEnc_of_no_command hp hd hq))⟩
      | cons h hs =>
        have hdec : decode (encode (.encode h)) = .ok (.encode h) := by simp [decode, encode]
        exact ⟨_, step_of_word ((fetch_of_encTurn ht).trans (fetchEnc_of_command hp hd hq)) hdec⟩
  · obtain ⟨i, t, hdec, hex⟩ := exec_selected_enc (s := { s with turns := s.turns.pop }) hp hi
    exact ⟨t, (step_of_word ((fetch_of_encTurn ht).trans (fetchEnc_of_busy hp)) hdec).trans hex⟩

theorem step_next_of_decTurn (ht : s.turnNow = some .dec) (hi : s.dec.phase = .body → s.dec.idx.toNat ≤ 255) :
    ∃ t, step s = .next t := by
  by_cases hp : s.dec.phase = .idle
  · cases hd : s.dec.rspDue with
    | true => exact ⟨_, step_of_dec_due ht hp hd⟩
    | false =>
      cases hq : s.decCmd with
      | zero => exact ⟨_, step_of_noOp ((fetch_of_decTurn ht).trans (fetchDec_of_no_command hp hd hq))⟩
      | succ n =>
        have hdec : decode (encode .decodeStream) = .ok .decodeStream := rfl
        exact ⟨_, step_of_word ((fetch_of_decTurn ht).trans (fetchDec_of_command hp hd hq)) hdec⟩
  · obtain ⟨i, t, hdec, hex⟩ := exec_selected_dec (s := { s with turns := s.turns.pop }) hp hi
    exact ⟨t, (step_of_word ((fetch_of_decTurn ht).trans (fetchDec_of_busy hp)) hdec).trans hex⟩

theorem step_next_of_line {w : OpWord} (ht : s.turnNow = some (.line w)) : ∃ t, step s = .next t := by
  obtain hno | ⟨hw, hword⟩ := fetchLine_cases w { s with turns := s.turns.pop }
  · exact ⟨_, step_of_noOp ((fetch_of_line ht).trans hno)⟩
  · cases hd : decode w with
    | error e => exact ⟨_, step_of_no_operation ((fetch_of_line ht).trans hword) hd⟩
    | ok i =>
      obtain ⟨t, hex⟩ := exec_of_outside hw hd { s with turns := s.turns.pop }
      exact ⟨t, (step_of_word ((fetch_of_line ht).trans hword) hd).trans hex⟩

end NoStop

/-- Settles O30: of the invariant only the two index bounds of EMIT and BODY are needed, since every other step is
selected by the very phase that enables it. -/
theorem machineNeverStops : Obligations.MachineNeverStops := by
  rintro s ⟨henc, hdec⟩
  rcases ht : s.turnNow with _ | _ | _ | w
  · exact ⟨_, step_of_noOp (fetch_of_nobody ht)⟩
  · refine step_next_of_encTurn ht fun hp => ?_
    obtain ⟨_, _, hidx, _⟩ := henc.atEmit hp
    exact hidx
  · exact step_next_of_decTurn ht fun hp => (hdec.bodyIdx hp).2
  · exact step_next_of_line ht

end Sys2Proof.Machine
end

section
/-! What an operation does to the response that ENC owes (R27, R72, R165). The operations of DEC and the wire patterns
leave ENC's side alone; for ENC's own operations one inversion lemma says when a response becomes due. -/

namespace Sys2Proof.Machine

/-! ## What leaves ENC's side alone -/

section EncSide
variable (c : Config) (s : State)

theorem offerDecode_encSide : (offerDecode s).encSide = s.encSide := by
  obtain ⟨_, e⟩ | ⟨_, e⟩ := offerDecode_cases s <;> rw [e] <;> rfl

theorem scanByte_encSide : (scanByte c s).encSide = s.encSide := by
  obtain ⟨_, e⟩ | ⟨_, e⟩ | ⟨_, _, _, e⟩ | ⟨_, _, _, _, e⟩ := scanByte_cases c s <;> rw [e] <;> rfl

theorem readBody_encSide : (readBody c s).encSide = s.encSide := by
  obtain ⟨_, e⟩ | ⟨_, e⟩ | ⟨_, _, e⟩ := readBody_cases c s <;> rw [e] <;> rfl

theorem validate_encSide : (validate c s).encSide = s.encSide := by
  obtain ⟨_, e⟩ | ⟨_, _, _, e⟩ | ⟨_, _, _, e⟩ := validate_cases c s <;> rw [e] <;> rfl

theorem dispatchHdr_encSide : (dispatchHdr c s).encSide = s.encSide := by
  obtain ⟨_, _, e⟩ | ⟨_, _, e⟩ | ⟨_, e⟩ := dispatchHdr_cases c s <;> rw [e] <;> rfl

theorem streamByte_encSide : (streamByte c s).encSide = s.encSide := by
  obtain ⟨_, _, e⟩ | ⟨_, _, e⟩ | ⟨_, _, e⟩ | ⟨_, _, e⟩ | ⟨_, _, e⟩ := streamByte_cases c s <;> rw [e] <;> rfl

theorem streamEnd_encSide : (streamEnd c s).encSide = s.encSide := by
  obtain ⟨_, _, e⟩ | ⟨_, _, e⟩ | ⟨_, e⟩ := streamEnd_cases c s <;> rw [e] <;> rfl

theorem makeEvent_encSide (valid : Bool) (h : PacketHeader) : (makeEvent c valid h s).encSide = s.encSide := by
  obtain ⟨_, e⟩ | ⟨_, e⟩ := makeEvent_cases c valid h s <;> rw [e] <;> rfl

theorem respondDec_encSide : (respondDec c s).encSide = s.encSide := by
  obtain ⟨_, e⟩ | ⟨_, e⟩ := respondDec_cases c s <;> rw [e] <;> rfl

theorem noOperation_encSide (w : OpWord) : (noOperation w s).encSide = s.encSide := by
  unfold noOperation
  split <;> rfl

end EncSide

/-- R20, R75: no operation but ENC's own changes anything on ENC's side. -/
theorem exec_encSide {i : Instr} {s t : State} (hi : isEncOp i = false) (h : exec i s = .next t) :
    t.encSide = s.encSide := by
  cases i with
  | encode _ | encReset | eBuild | eFill | eParity | eEmit => cases hi
  | decodeStream =>
    cases h
    exact offerDecode_encSide s
  | decReset | syncPrefix | syncCont | frameHdr _ _ | pktHdr _ _ | frame _ =>
    cases h
    rfl
  | dSync =>
    obtain ⟨_, rfl⟩ := execDSync_next h
    exact scanByte_encSide _ s
  | dBody =>
    obtain ⟨_, _, rfl⟩ := execDBody_next h
    exact readBody_encSide _ s
  | dValidate =>
    obtain ⟨_, rfl⟩ := execDValidate_next h
    exact validate_encSide _ s
  | dDispatchHdr =>
    obtain ⟨_, rfl⟩ := execDDispatchHdr_next h
    exact dispatchHdr_encSide _ s
  | dDispatchData =>
    obtain ⟨_, rfl⟩ := execDDispatchData_next h
    rfl
  | dStream =>
    obtain ⟨_, rfl⟩ := execDStream_next h
    exact streamByte_encSide _ s
  | dStreamEnd =>
    obtain ⟨_, rfl⟩ := execDStreamEnd_next h
    exact streamEnd_encSide _ s
  | evtPacket valid hd =>
    obtain ⟨_, rfl⟩ := execEvtPacket_next h
    exact makeEvent_encSide _ s valid hd

/-! ## The response that ENC owes -/

/-- R160, R165: an accepted command that is over at once, since its length is below 14. -/
def OverAtOnce (i : Instr) (e : Enc) : Prop :=
  e.phase = .idle ∧ e.rspDue = false ∧ ∃ h : PacketHeader, i = .encode h ∧ h.len.toNat < 14

/-- What an operation does to the response that ENC owes: ENC is reset, a command ends and its response is due, or what
was due or not due stays so while a command under way goes on. In no case is a response made. -/
inductive ResponseChange (i : Instr) (s t : State) : Prop where
  | reset (hop : i = .encReset) (hrsps : t.encRsps = s.encRsps)
      (henc : t.enc = encAfterReset Config.given s.encResets)
  | ended (hop : i ≠ .encReset) (hrsps : t.encRsps = s.encRsps) (hwhen : s.enc.phase ≠ .idle ∨ OverAtOnce i s.enc)
      (hphase : t.enc.phase = .idle) (hstatus : t.enc.res.status ≠ .none) (hdue : t.enc.rspDue = true)
  | kept (hop : i ≠ .encReset) (hrsps : t.encRsps = s.encRsps) (hgoes : s.enc.phase ≠ .idle → t.enc.phase ≠ .idle)
      (hover : ¬ OverAtOnce i s.enc) (hdue : t.enc.rspDue = s.enc.rspDue)

/-- Only `ENCODE` is over at once. -/
theorem not_overAtOnce {i : Instr} {e : Enc} (hi : ∀ h, i ≠ .encode h) : ¬ OverAtOnce i e :=
  fun ⟨_, _, h, he, _⟩ => hi h he

theorem responseChange_offerEncode (h : PacketHeader) (s : State) :
    ResponseChange (.encode h) s (offerEncode h s) := by
  obtain ⟨hbusy, e⟩ | ⟨⟨hp, hd⟩, h0, e⟩ | ⟨⟨hp, hd⟩, _, h14, e⟩ | ⟨⟨hp, _⟩, h14, e⟩ := offerEncode_cases h s <;>
    rw [e]
  · exact .kept nofun rfl id (fun ⟨hp, hd, _⟩ => hbusy ⟨hp, hd⟩) rfl
  · exact .ended nofun rfl (.inr ⟨hp, hd, h, rfl, by omega⟩) rfl nofun rfl
  · exact .ended nofun rfl (.inr ⟨hp, hd, h, rfl, h14⟩) rfl nofun rfl
  · refine .kept nofun rfl (fun hn => absurd hp hn) ?_ rfl
    rintro ⟨_, _, h', heq, hlt⟩
    cases heq
    exact absurd h14 (Nat.not_le.mpr hlt)

theorem responseChange_fillByte {s : State} (c : Config) (hp : s.enc.phase = .fill) :
    ResponseChange .eFill s (fillByte c s) := by
  have hbusy : s.enc.phase ≠ .idle := by rw [hp]; nofun
  have hover : ¬ OverAtOnce .eFill s.enc := not_overAtOnce nofun
  obtain ⟨_, _, e⟩ | ⟨_, _, e⟩ | ⟨_, _, _, e⟩ | ⟨_, e⟩ := fillByte_cases c s <;> rw [e]
  · exact .kept nofun rfl id hover rfl
  · exact .ended nofun rfl (.inl hbusy) rfl nofun rfl
  · exact .kept nofun rfl id hover rfl
  · exact .kept nofun rfl (fun _ => nofun) hover rfl

theorem responseChange_emitByte {s : State} (c : Config) (hp : s.enc.phase = .emit) :
    ResponseChange .eEmit s (emitByte c s) := by
  have hbusy : s.enc.phase ≠ .idle := by rw [hp]; nofun
  have hover : ¬ OverAtOnce .eEmit s.enc := not_overAtOnce nofun
  obtain ⟨_, e⟩ | ⟨_, e⟩ | ⟨_, _, e⟩ | ⟨_, _, _, e⟩ | ⟨_, _, _, e⟩ := emitByte_cases c s <;> rw [e]
  · exact .kept nofun rfl id hover rfl
  · exact .ended nofun rfl (.inl hbusy) rfl nofun rfl
  · exact .kept nofun rfl id hover rfl
  · exact .ended nofun rfl (.inl hbusy) rfl nofun rfl
  · exact .kept nofun rfl (fun _ => nofun) hover rfl

/-- R27, R72, R165: everything an operation can do to the response that ENC owes. -/
theorem exec_responseChange {i : Instr} {s t : State} (h : exec i s = .next t) : ResponseChange i s t := by
  cases hi : isEncOp i with
  | false =>
    have hside := exec_encSide hi h
    have henc : t.enc = s.enc := congrArg EncSide.enc hside
    have hrsps : t.encRsps = s.encRsps := congrArg EncSide.encRsps hside
    have hover : ¬ OverAtOnce i s.enc := not_overAtOnce (by rintro hd rfl; cases hi)
    exact .kept (by rintro rfl; cases hi) hrsps (by rw [henc]; exact id) hover (by rw [henc])
  | true =>
    cases i with
    | encode hd =>
      cases h
      exact responseChange_offerEncode hd s
    | encReset =>
      cases h
      exact .reset rfl rfl rfl
    | eBuild =>
      obtain ⟨_, rfl⟩ := execEBuild_next h
      exact .kept nofun rfl (fun _ => nofun) (not_overAtOnce nofun) rfl
    | eFill =>
      obtain ⟨hp, rfl⟩ := execEFill_next h
      exact responseChange_fillByte _ hp
    | eParity =>
      obtain ⟨_, rfl⟩ := execEParity_next h
      exact .kept nofun rfl (fun _ => nofun) (not_overAtOnce nofun) rfl
    | eEmit =>
      obtain ⟨hp, _, rfl⟩ := execEEmit_next h
      exact responseChange_emitByte _ hp
    | _ => cases hi

/-- R72: no operation makes a response. -/
theorem ResponseChange.encRsps {i : Instr} {s t : State} (h : ResponseChange i s t) : t.encRsps = s.encRsps := by
  cases h with
  | reset _ hrsps _ | ended _ hrsps _ _ _ _ | kept _ hrsps _ _ _ => exact hrsps

/-- R165: an operation makes a response due exactly where a command ends. -/
theorem ResponseChange.rspDue_iff {i : Instr} {s t : State} (h : ResponseChange i s t) (hd : s.enc.rspDue = false) :
    t.enc.rspDue = true ↔
      i ≠ .encReset ∧ (s.enc.phase ≠ .idle ∧ t.enc.phase = .idle ∨
        s.enc.phase = .idle ∧ ∃ h : PacketHeader, i = .encode h ∧ h.len.toNat < 14) := by
  cases h with
  | reset hop _ henc => simp [hop, henc]
  | ended hop _ hwhen hphase _ hdue =>
    refine iff_of_true hdue ⟨hop, hwhen.imp (fun hn => ⟨hn, hphase⟩) ?_⟩
    exact fun ⟨hidle, _, hcmd⟩ => ⟨hidle, hcmd⟩
  | kept _ _ hgoes hover hdue =>
    refine iff_of_false (by rw [hdue, hd]; nofun) ?_
    rintro ⟨_, ⟨hn, hidle⟩ | ⟨hidle, hcmd⟩⟩
    · exact hgoes hn hidle
    · exact hover ⟨hidle, hd, hcmd⟩

/-- R27, R72: a response that has become due finds ENC idle, with its result written. -/
theorem ResponseChange.ready {i : Instr} {s t : State} (h : ResponseChange i s t) (hd : s.enc.rspDue = false)
    (ht : t.enc.rspDue = true) : t.enc.phase = .idle ∧ t.enc.res.status ≠ .none := by
  cases h with
  | reset _ _ henc => simp [henc] at ht
  | ended _ _ _ hphase hstatus _ => exact ⟨hphase, hstatus⟩
  | kept _ _ _ _ hdue => simp [hdue, hd] at ht

/-- No response is made, and one that is due stays due unless ENC is reset (R72, R310). -/
def ResponseStays (s t : State) : Prop :=
  t.encRsps = s.encRsps ∧
    (s.enc.rspDue = true → t.enc.rspDue = true ∨ t.enc = encAfterReset Config.given s.encResets)

theorem ResponseChange.stays {i : Instr} {s t : State} (h : ResponseChange i s t) : ResponseStays s t := by
  refine ⟨h.encRsps, fun hd => ?_⟩
  cases h with
  | reset _ _ henc => exact .inr henc
  | ended _ _ _ _ _ hdue => exact .inl hdue
  | kept _ _ _ _ hdue => exact .inl (hdue.trans hd)

theorem responseStays_of_encSide {s t : State} (h : t.encSide = s.encSide) : ResponseStays s t := by
  have henc : t.enc = s.enc := congrArg EncSide.enc h
  exact ⟨congrArg EncSide.encRsps h, fun hd => .inl (by rw [henc, hd])⟩

/-! ## The step -/

/-- Everything a step can do to the response that ENC owes: on the turn of an idle ENC the response that is due is made;
otherwise it stays. -/
theorem step_response_cases {s t : State} (h : step s = .next t) :
    (s.turnNow = some .enc ∧ s.enc.phase = .idle ∧ s.enc.rspDue = true ∧
      t.encRsps = s.encRsps ++ [s.enc.res] ∧ t.enc = { s.enc with rspDue := false }) ∨
    ResponseStays s t := by
  obtain ⟨u, hf, e⟩ | ⟨w, u, i, hf, _, e⟩ | ⟨w, u, _, hf, _, e⟩ := step_cases s <;> rw [e] at h
  · cases h
    obtain rfl | ⟨ht, hp, hd, rfl⟩ | ⟨_, _, _, rfl⟩ := fetch_noOp hf
    · exact .inr (responseStays_of_encSide rfl)
    · obtain ⟨_, er⟩ | ⟨_, er⟩ := respondEnc_cases Config.given { s with turns := s.turns.pop } <;> rw [er]
      · exact .inr ⟨rfl, .inl⟩
      · exact .inl ⟨ht, hp, hd, rfl, rfl⟩
    · exact .inr (responseStays_of_encSide (respondDec_encSide Config.given { s with turns := s.turns.pop }))
  · obtain ⟨_, _, rfl⟩ := fetch_word hf
    exact .inr (exec_responseChange h).stays
  · obtain ⟨cmds, n, rfl⟩ := fetch_word hf
    cases h
    exact .inr (responseStays_of_encSide (s := { s with turns := s.turns.pop, encCmd := cmds, decCmd := n })
      (noOperation_encSide _ w))

/-- Settles O38: what one operation does to the response owed, and what the step adds, the response itself. -/
theorem responsesAnswerCommands : Obligations.ResponsesAnswerCommands := by
  refine ⟨fun i s t h hd => ?operation, fun s t h hne => ?made, fun s t h hd hno => ?stays⟩
  case operation =>
    have hchange := exec_responseChange h
    exact ⟨hchange.encRsps, hchange.ready hd, hchange.rspDue_iff hd⟩
  case made =>
    obtain hmade | ⟨hkept, _⟩ := step_response_cases h
    · exact hmade
    · exact absurd hkept hne
  case stays =>
    obtain ⟨_, _, _, hmade, _⟩ | ⟨_, hstays⟩ := step_response_cases h
    · exact .inl hmade
    · exact .inr ((hstays hd).resolve_left (by rw [hno]; nofun))

end Sys2Proof.Machine
end

section
/-! The isolation of the agents (R20, R35, R75). An operation of one agent is the same operation wherever that agent's
side of the state stands: it commutes with putting the side into another state. That no operation touches the other side
and that none reads it are both read off from this. -/

namespace Sys2Proof.Machine

/-! ## The cases of the operations that have no equation yet -/

section Cases
variable {c : Config} {s : State}

theorem offerEncode_of_busy {h : PacketHeader} (hb : ¬ (s.enc.phase = .idle ∧ s.enc.rspDue = false)) :
    offerEncode h s = { s with encCmd := s.encCmd ++ [h] } :=
  if_neg hb

theorem offerEncode_of_ready {h : PacketHeader} (hr : s.enc.phase = .idle ∧ s.enc.rspDue = false) :
    offerEncode h s = acceptEncode h s :=
  if_pos hr

theorem offerDecode_of_busy (hb : ¬ (s.dec.phase = .idle ∧ s.dec.rspDue = false)) :
    offerDecode s = { s with decCmd := s.decCmd + 1 } :=
  if_neg hb

theorem offerDecode_of_ready (hr : s.dec.phase = .idle ∧ s.dec.rspDue = false) :
    offerDecode s =
      { s with dec := { s.dec with mode := .awaitingHeader, scan := .hunt, status := .running, phase := .sync } } :=
  if_pos hr

theorem fillByte_of_wait (hp : s.enc.pulls) (hb : s.src.peek c.srcDraw = none) :
    fillByte c s = { s with src := s.src.pop } := by
  simpa [eq_true hp, hb] using fillByte_cases c s

theorem emitByte_of_wait (ht : s.tx.peek c.txDraw = none) : emitByte c s = { s with tx := s.tx.pop } := by
  simpa [ht] using emitByte_cases c s

theorem scanByte_of_wait (hr : s.rx.peek c.rxDraw = none) : scanByte c s = { s with rx := s.rx.pop } := by
  simpa [hr] using scanByte_cases c s

theorem readBody_of_wait (hr : s.rx.peek c.rxDraw = none) : readBody c s = { s with rx := s.rx.pop } := by
  simpa [hr] using readBody_cases c s

theorem dispatchHdr_of_wait (hl : (readPktHdr s.dec.fbuf).len.toNat < 14) (he : s.evt.peek c.evtDraw = none) :
    dispatchHdr c s = { s with evt := s.evt.pop } := by
  simpa [hl, he, Nat.not_le.mpr hl] using dispatchHdr_cases c s

theorem dispatchHdr_of_bad_length (hl : (readPktHdr s.dec.fbuf).len.toNat < 14)
    (he : s.evt.peek c.evtDraw = some ()) :
    dispatchHdr c s = closePacket false { s with dec := { s.dec with hdr := readPktHdr s.dec.fbuf } } := by
  simpa [hl, he, Nat.not_le.mpr hl] using dispatchHdr_cases c s

theorem dispatchHdr_of_payload (hl : 14 ≤ (readPktHdr s.dec.fbuf).len.toNat) :
    dispatchHdr c s =
      { s with
        dec := { s.dec with
          hdr := readPktHdr s.dec.fbuf
          rem := payloadCount (readPktHdr s.dec.fbuf).len
          idx := 18#9
          phase := .stream } } := by
  simpa [hl, Nat.not_lt.mpr hl] using dispatchHdr_cases c s

theorem streamByte_of_event_wait (hr : s.dec.refused = true) (he : s.evt.peek c.evtDraw = none) :
    streamByte c s = { s with evt := s.evt.pop } := by
  simpa [hr, he] using streamByte_cases c s

theorem streamByte_of_wait (hr : s.dec.refused = false) (hs : s.snk.peek c.snkDraw = none) :
    streamByte c s = { s with snk := s.snk.pop } := by
  simpa [hr, hs] using streamByte_cases c s

theorem streamEnd_of_wait (h0 : s.dec.rem.toNat = 0) (he : s.evt.peek c.evtDraw = none) :
    streamEnd c s = { s with evt := s.evt.pop } := by
  simpa only [h0, he, true_and, reduceCtorEq, false_and, or_false, lt_irrefl] using streamEnd_cases c s

theorem streamEnd_of_done (h0 : s.dec.rem.toNat = 0) (he : s.evt.peek c.evtDraw = some ()) :
    streamEnd c s = closePacket true s := by
  simpa only [h0, he, true_and, reduceCtorEq, false_and, or_false, false_or, lt_irrefl] using streamEnd_cases c s

theorem streamEnd_of_more (h0 : 0 < s.dec.rem.toNat) :
    streamEnd c s = { s with dec := { s.dec with mode := .awaitingData, scan := .hunt, phase := .sync } } := by
  simpa only [h0, h0.ne', true_and, false_and, false_or] using streamEnd_cases c s

theorem makeEvent_of_wait {valid : Bool} {h : PacketHeader} (he : s.evt.peek c.evtDraw = none) :
    makeEvent c valid h s = { s with evt := s.evt.pop } := by
  simpa [he] using makeEvent_cases c valid h s

theorem makeEvent_of_ready {valid : Bool} {h : PacketHeader} (he : s.evt.peek c.evtDraw = some ()) :
    makeEvent c valid h s = closePacket valid { s with dec := { s.dec with hdr := h } } :=
  onEvt_ready _ he

end Cases

/-! ## The two steps that can fault -/

/-- R60: no byte of the wire frame stands behind index 256. -/
theorem exec_eEmit_of_fault {s : State} (h : s.enc.phase = .emit ∧ 256 < s.enc.idx.toNat) :
    exec .eEmit s = .fault (.noSuchByte (s.enc.idx.toNat - 1)) :=
  if_pos h

theorem exec_eEmit_of_no_fault {s : State} (h : ¬ (s.enc.phase = .emit ∧ 256 < s.enc.idx.toNat)) :
    exec .eEmit s = whenSelected (s.enc.phase = .emit) (emitByte Config.given s) :=
  if_neg h

/-- R60: no byte of the frame buffer stands behind index 255. -/
theorem exec_dBody_of_fault {s : State} (h : s.dec.phase = .body ∧ 255 < s.dec.idx.toNat) :
    exec .dBody s = .fault (.noSuchByte s.dec.idx.toNat) :=
  if_pos h

theorem exec_dBody_of_no_fault {s : State} (h : ¬ (s.dec.phase = .body ∧ 255 < s.dec.idx.toNat)) :
    exec .dBody s = whenSelected (s.dec.phase = .body) (readBody Config.given s) :=
  if_neg h

/-! ## One agent's side put into another state -/

/-- ENC's side of `s` in a state that is `o` otherwise. -/
def State.encSideIn (o s : State) : State :=
  { o with
    enc := s.enc, src := s.src, tx := s.tx, wire := s.wire, encCmd := s.encCmd, encRsp := s.encRsp
    encRsps := s.encRsps, encResets := s.encResets }

/-- DEC's side of `s` in a state that is `o` otherwise. -/
def State.decSideIn (o s : State) : State :=
  { o with
    dec := s.dec, rx := s.rx, snk := s.snk, sunk := s.sunk, evt := s.evt, events := s.events, decCmd := s.decCmd
    decRsp := s.decRsp, decRsps := s.decRsps, decResets := s.decResets }

/-- A state is another one with its own side put there, if they agree on ENC's side. -/
theorem encSideIn_of_encSide_eq {s s' : State} (h : s.encSide = s'.encSide) : s'.encSideIn s = s' := by
  obtain ⟨⟩ := s
  obtain ⟨⟩ := s'
  cases h
  rfl

theorem decSideIn_of_decSide_eq {s s' : State} (h : s.decSide = s'.decSide) : s'.decSideIn s = s' := by
  obtain ⟨⟩ := s
  obtain ⟨⟩ := s'
  cases h
  rfl

theorem view_view {α : Type} {f : State → α} {g : State → State} (x : Host.Outcome State Fault Refusal) :
    view f (view g x) = view (f ∘ g) x := by
  cases x <;> rfl

theorem view_whenSelected {p : Prop} [Decidable p] (f : State → State) (s : State) :
    view f (whenSelected p s) = whenSelected p (f s) := by
  by_cases hp : p <;> simp [hp, view]

/-! ## The operations of ENC -/

section EncOps
variable (c : Config) (o s : State)

theorem offerEncode_encSideIn (h : PacketHeader) : offerEncode h (o.encSideIn s) = o.encSideIn (offerEncode h s) := by
  by_cases hr : s.enc.phase = .idle ∧ s.enc.rspDue = false
  · rw [offerEncode_of_ready hr, offerEncode_of_ready (s := o.encSideIn s) hr]
    unfold acceptEncode
    by_cases h0 : h.len.toNat = 0
    · simp only [if_pos h0]; rfl
    · by_cases h14 : h.len.toNat < 14
      · simp only [if_neg h0, if_pos h14]; rfl
      · simp only [if_neg h0, if_neg h14]; rfl
  · rw [offerEncode_of_busy hr]
    exact offerEncode_of_busy (s := o.encSideIn s) hr

theorem fillByte_encSideIn : fillByte c (o.encSideIn s) = o.encSideIn (fillByte c s) := by
  obtain ⟨hp, hb, e⟩ | ⟨hp, hb, e⟩ | ⟨hp, b, hb, e⟩ | ⟨hp, e⟩ := fillByte_cases c s <;> rw [e]
  · exact fillByte_of_wait (s := o.encSideIn s) hp hb
  · exact fillByte_of_none (s := o.encSideIn s) hp hb
  · exact fillByte_of_byte (s := o.encSideIn s) hp hb
  · exact fillByte_of_full (s := o.encSideIn s) hp

theorem emitByte_encSideIn : emitByte c (o.encSideIn s) = o.encSideIn (emitByte c s) := by
  obtain ⟨ht, e⟩ | ⟨ht, e⟩ | ⟨ht, hi, e⟩ | ⟨ht, hi, h0, e⟩ | ⟨ht, hi, h0, e⟩ := emitByte_cases c s <;> rw [e]
  · exact emitByte_of_wait (s := o.encSideIn s) ht
  · exact emitByte_of_refused (s := o.encSideIn s) ht
  · exact emitByte_of_inner (s := o.encSideIn s) ht hi
  · exact emitByte_of_last (s := o.encSideIn s) ht hi h0
  · exact emitByte_of_next (s := o.encSideIn s) ht hi h0

end EncOps

/-- A selected operation that commutes with putting ENC's side into another state does so as an outcome. -/
theorem whenSelected_encSideIn {p : Prop} [Decidable p] {f : State → State} {o s : State}
    (hf : f (o.encSideIn s) = o.encSideIn (f s)) :
    whenSelected p (f (o.encSideIn s)) = view o.encSideIn (whenSelected p (f s)) := by
  rw [view_whenSelected, hf]

/-- R20, R75: an operation of ENC does the same wherever ENC's side stands. -/
theorem exec_encSideIn {i : Instr} (hi : isEncOp i = true) (o s : State) :
    exec i (o.encSideIn s) = view o.encSideIn (exec i s) := by
  cases i with
  | encode h => exact congrArg Host.Outcome.next (offerEncode_encSideIn o s h)
  | encReset => rfl
  | eBuild => exact whenSelected_encSideIn (f := buildFrame Config.given) rfl
  | eFill => exact whenSelected_encSideIn (fillByte_encSideIn _ o s)
  | eParity => exact whenSelected_encSideIn (f := addParity Config.given) rfl
  | eEmit =>
    by_cases hf : s.enc.phase = .emit ∧ 256 < s.enc.idx.toNat
    · rw [exec_eEmit_of_fault hf, exec_eEmit_of_fault (s := o.encSideIn s) hf]
      rfl
    · rw [exec_eEmit_of_no_fault hf, exec_eEmit_of_no_fault (s := o.encSideIn s) hf]
      exact whenSelected_encSideIn (emitByte_encSideIn _ o s)
  | _ => cases hi

/-! ## The operations of DEC, and what arrives on the wire -/

section DecOps
variable (c : Config) (o s : State)

theorem offerDecode_decSideIn : offerDecode (o.decSideIn s) = o.decSideIn (offerDecode s) := by
  obtain ⟨hb, e⟩ | ⟨hr, e⟩ := offerDecode_cases s <;> rw [e]
  · exact offerDecode_of_busy (s := o.decSideIn s) hb
  · exact offerDecode_of_ready (s := o.decSideIn s) hr

theorem scanByte_decSideIn : scanByte c (o.decSideIn s) = o.decSideIn (scanByte c s) := by
  obtain ⟨hr, e⟩ | ⟨hr, e⟩ | ⟨b, hr, hm, e⟩ | ⟨b, t, hr, hm, e⟩ := scanByte_cases c s <;> rw [e]
  · exact scanByte_of_wait (s := o.decSideIn s) hr
  · exact scanByte_of_none (s := o.decSideIn s) hr
  · exact scanByte_of_match (s := o.decSideIn s) hr hm
  · exact scanByte_of_stay (s := o.decSideIn s) hr hm

theorem readBody_decSideIn : readBody c (o.decSideIn s) = o.decSideIn (readBody c s) := by
  obtain ⟨hr, e⟩ | ⟨hr, e⟩ | ⟨b, hr, -⟩ := readBody_cases c s
  · rw [e]
    exact readBody_of_wait (s := o.decSideIn s) hr
  · rw [e]
    exact readBody_of_none (s := o.decSideIn s) hr
  · rw [readBody_of_byte hr]
    exact readBody_of_byte (s := o.decSideIn s) hr

theorem validate_decSideIn : validate c (o.decSideIn s) = o.decSideIn (validate c s) := by
  obtain ⟨hf, e⟩ | ⟨m, hf, hv, e⟩ | ⟨m, hf, hv, e⟩ := validate_cases c s <;> rw [e]
  · exact validate_of_uncorrectable (s := o.decSideIn s) hf
  · exact validate_of_badVersion (s := o.decSideIn s) hf hv
  · exact validate_of_version (s := o.decSideIn s) hf hv

theorem dispatchHdr_decSideIn : dispatchHdr c (o.decSideIn s) = o.decSideIn (dispatchHdr c s) := by
  obtain ⟨hl, he, e⟩ | ⟨hl, he, e⟩ | ⟨hl, e⟩ := dispatchHdr_cases c s <;> rw [e]
  · exact dispatchHdr_of_wait (s := o.decSideIn s) hl he
  · exact dispatchHdr_of_bad_length (s := o.decSideIn s) hl he
  · exact dispatchHdr_of_payload (s := o.decSideIn s) hl

theorem streamByte_decSideIn : streamByte c (o.decSideIn s) = o.decSideIn (streamByte c s) := by
  obtain ⟨hr, he, e⟩ | ⟨hr, he, e⟩ | ⟨hr, hs, e⟩ | ⟨hr, hs, e⟩ | ⟨hr, hs, e⟩ := streamByte_cases c s <;> rw [e]
  · exact streamByte_of_event_wait (s := o.decSideIn s) hr he
  · exact streamByte_of_refused (s := o.decSideIn s) hr he
  · exact streamByte_of_wait (s := o.decSideIn s) hr hs
  · exact streamByte_of_refusal (s := o.decSideIn s) hr hs
  · exact streamByte_of_taken (s := o.decSideIn s) hr hs

theorem streamEnd_decSideIn : streamEnd c (o.decSideIn s) = o.decSideIn (streamEnd c s) := by
  obtain ⟨h0, he, e⟩ | ⟨h0, he, e⟩ | ⟨h0, e⟩ := streamEnd_cases c s <;> rw [e]
  · exact streamEnd_of_wait (s := o.decSideIn s) h0 he
  · exact streamEnd_of_done (s := o.decSideIn s) h0 he
  · exact streamEnd_of_more (s := o.decSideIn s) h0

theorem makeEvent_decSideIn (valid : Bool) (h : PacketHeader) :
    makeEvent c valid h (o.decSideIn s) = o.decSideIn (makeEvent c valid h s) := by
  obtain ⟨he, e⟩ | ⟨he, e⟩ := makeEvent_cases c valid h s <;> rw [e]
  · exact makeEvent_of_wait (s := o.decSideIn s) he
  · exact makeEvent_of_ready (s := o.decSideIn s) he

end DecOps

/-- A selected operation that commutes with putting DEC's side into another state does so as an outcome. -/
theorem whenSelected_decSideIn {p : Prop} [Decidable p] {f : State → State} {o s : State}
    (hf : f (o.decSideIn s) = o.decSideIn (f s)) :
    whenSelected p (f (o.decSideIn s)) = view o.decSideIn (whenSelected p (f s)) := by
  rw [view_whenSelected, hf]

/-- R20, R75: an operation of DEC does the same wherever DEC's side stands. -/
theorem exec_decSideIn {i : Instr} (hi : isEncOp i = false) (o s : State) :
    exec i (o.decSideIn s) = view o.decSideIn (exec i s) := by
  cases i with
  | decodeStream => exact congrArg Host.Outcome.next (offerDecode_decSideIn o s)
  | decReset | syncPrefix | syncCont | frameHdr _ _ | pktHdr _ _ | frame _ => rfl
  | dSync => exact whenSelected_decSideIn (scanByte_decSideIn _ o s)
  | dBody =>
    by_cases hf : s.dec.phase = .body ∧ 255 < s.dec.idx.toNat
    · rw [exec_dBody_of_fault hf, exec_dBody_of_fault (s := o.decSideIn s) hf]
      rfl
    · rw [exec_dBody_of_no_fault hf, exec_dBody_of_no_fault (s := o.decSideIn s) hf]
      exact whenSelected_decSideIn (readBody_decSideIn _ o s)
  | dValidate => exact whenSelected_decSideIn (validate_decSideIn _ o s)
  | dDispatchHdr => exact whenSelected_decSideIn (dispatchHdr_decSideIn _ o s)
  | dDispatchData => exact whenSelected_decSideIn (f := dispatchData) rfl
  | dStream => exact whenSelected_decSideIn (streamByte_decSideIn _ o s)
  | dStreamEnd => exact whenSelected_decSideIn (streamEnd_decSideIn _ o s)
  | evtPacket valid h => exact whenSelected_decSideIn (makeEvent_decSideIn _ o s valid h)
  | _ => cases hi

/-! ## The statements -/

/-- An operation of ENC leaves everything off ENC's side as it is. -/
theorem exec_encOp_frame {i : Instr} {s t : State} (hi : isEncOp i = true) (h : exec i s = .next t) :
    t = s.encSideIn t := by
  have hframe := exec_encSideIn hi s s
  rw [show s.encSideIn s = s from rfl, h] at hframe
  exact Host.Outcome.next.inj hframe

/-- An operation of DEC leaves everything off DEC's side as it is. -/
theorem exec_decOp_frame {i : Instr} {s t : State} (hi : isEncOp i = false) (h : exec i s = .next t) :
    t = s.decSideIn t := by
  have hframe := exec_decSideIn hi s s
  rw [show s.decSideIn s = s from rfl, h] at hframe
  exact Host.Outcome.next.inj hframe

/-- R20, R75: no operation of ENC changes anything on DEC's side. -/
theorem exec_decSide {i : Instr} {s t : State} (hi : isEncOp i = true) (h : exec i s = .next t) :
    t.decSide = s.decSide := by
  rw [exec_encOp_frame hi h]
  rfl

/-- R75: no operation touches the turns. -/
theorem exec_turns {i : Instr} {s t : State} (h : exec i s = .next t) : t.turns = s.turns := by
  cases hi : isEncOp i with
  | true =>
    rw [exec_encOp_frame hi h]
    rfl
  | false =>
    rw [exec_decOp_frame hi h]
    rfl

/-- Settles O31: each agent's operations leave the other side and the turns alone. -/
theorem agentsShareNothing : Obligations.AgentsShareNothing := by
  intro i s t h
  exact ⟨fun hi => exec_decSide hi h, fun hi => exec_encSide hi h, exec_turns h⟩

/-- Settles O32: two states that agree on an agent's side are one another with that side put there, and an operation
commutes with putting it. -/
theorem agentsReadOnlyTheirOwn : Obligations.AgentsReadOnlyTheirOwn := by
  intro i s s'
  refine ⟨fun hi hside => ?enc, fun hi hside => ?dec⟩
  case enc =>
    rw [← encSideIn_of_encSide_eq hside, exec_encSideIn hi, view_view]
    rfl
  case dec =>
    rw [← decSideIn_of_decSide_eq hside, exec_decSideIn hi, view_view]
    rfl

end Sys2Proof.Machine
end

section
/-! The registers as numbers, and buffers that read the same below an index: the facts about them that the invariant and
the registers' being written before they are read both need. -/

namespace Sys2Proof.Machine

/-! ## The registers as numbers -/

theorem index_toNat_succ {x : Index} (h : x.toNat ≤ 256) : (x + 1#9).toNat = x.toNat + 1 := by
  rw [BitVec.toNat_add]
  exact Nat.mod_eq_of_lt (show x.toNat + 1 < 512 by omega)

theorem half_toNat_succ {x : Half} (h : x.toNat ≤ 298) : (x + 1#16).toNat = x.toNat + 1 := by
  rw [BitVec.toNat_add]
  exact Nat.mod_eq_of_lt (show x.toNat + 1 < 65536 by omega)

theorem half_toNat_pred {x : Half} (h : 0 < x.toNat) : (x - 1#16).toNat = x.toNat - 1 :=
  BitVec.toNat_sub_of_le (show 1#16 ≤ x from h)

/-- R160, R203: nothing is lost in the subtraction at a length of at least 14. -/
theorem payloadCount_toNat {len : Half} (h : 14 ≤ len.toNat) : (payloadCount len).toNat = len.toNat - 14 :=
  BitVec.toNat_sub_of_le (show 14#16 ≤ len from h)

/-! ## Buffers that read the same below an index -/

section SameBelow
variable {n k : Nat} {m m' : Memory}

theorem sameBelow_mono (hk : k ≤ n) (h : sameBelow n m m') : sameBelow k m m' :=
  fun a ha => h a (Nat.lt_of_lt_of_le ha hk)

theorem sameBelow_write_above {a : Nat} (b : Byte) (ha : n ≤ a) : sameBelow n m (Memory.write m a b) :=
  fun x hx => (Memory.read_write_other m a x b (by omega)).symm

theorem sameBelow_writeBytes_above {a : Nat} (bs : List Byte) (ha : n ≤ a) :
    sameBelow n m (Memory.writeBytes m a bs) :=
  fun x hx => (Memory.read_writeBytes_outside m a x bs (.inl (by omega))).symm

/-- One byte more reads the same once it is written to both. -/
theorem sameBelow_write_succ (b : Byte) (h : sameBelow n m m') :
    sameBelow (n + 1) (Memory.write m n b) (Memory.write m' n b) := by
  intro x hx
  rw [Memory.read_write, Memory.read_write]
  by_cases hn : n = x
  · rw [if_pos hn, if_pos hn]
  · rw [if_neg hn, if_neg hn, h x (by omega)]

theorem sameBelow_write {a : Nat} (b : Byte) (h : sameBelow n m m') :
    sameBelow n (Memory.write m a b) (Memory.write m' a b) := by
  intro x hx
  rw [Memory.read_write, Memory.read_write, h x hx]

theorem sameBelow_writeMessage (msg : Message) (h : sameBelow n m m') :
    sameBelow n (writeMessage m msg) (writeMessage m' msg) := by
  intro x hx
  rw [read_writeMessage, read_writeMessage, h x hx]

/-- The parity fills the buffer behind the data: what reads the same below 224 reads the same below 256 (R106). -/
theorem sameBelow_writeParity (q : Parity) (h : sameBelow 224 m m') :
    sameBelow 256 (writeParity m q) (writeParity m' q) := by
  intro x hx
  rw [read_writeParity, read_writeParity]
  by_cases hq : 224 ≤ x ∧ x < 256
  · rw [dif_pos hq, dif_pos hq]
  · rw [dif_neg hq, dif_neg hq, h x (by omega)]

theorem messageOf_eq_of_sameBelow (h : sameBelow 224 m m') : messageOf m = messageOf m' :=
  funext fun i => h (1 + i.val) (by omega)

theorem codewordIn_eq_of_sameBelow (h : sameBelow 256 m m') : codewordIn m = codewordIn m' :=
  funext fun j => h (1 + j.val) (by omega)

theorem readPktHdr_eq_of_sameBelow (h : sameBelow 18 m m') : readPktHdr m = readPktHdr m' := by
  simp only [readPktHdr, Memory.read16, Memory.read32, h _ (show 5 < 18 by omega), h _ (show 6 < 18 by omega),
    h _ (show 7 < 18 by omega), h _ (show 8 < 18 by omega), h _ (show 9 < 18 by omega), h _ (show 10 < 18 by omega),
    h _ (show 11 < 18 by omega), h _ (show 12 < 18 by omega), h _ (show 13 < 18 by omega),
    h _ (show 14 < 18 by omega), h _ (show 15 < 18 by omega), h _ (show 16 < 18 by omega),
    h _ (show 17 < 18 by omega), Nat.reduceAdd]

theorem wireByte_eq_of_sameBelow {i : Nat} (hi : i ≤ 256) (h : sameBelow 256 m m') : wireByte m i = wireByte m' i := by
  unfold wireByte
  split
  · rfl
  · exact h _ (by omega)

end SameBelow

end Sys2Proof.Machine
end

section
/-! The invariant (R41): it holds at reset, every operation and every step keeps it, and it gives the ranges. What is
said of each agent is kept by that agent's own operations; the other agent's operations leave its side alone. -/

namespace Sys2Proof.Machine

/-! ## The frame header in the buffer (R102) -/

/-- The frame header stands as long as the bytes below 4 and the counter do. -/
theorem headed_of_sameBelow {c : Config} {e e' : Enc} (h : e.headed c) (hseq : e'.seq = e.seq)
    (hm : sameBelow 4 e.fbuf e'.fbuf) : e'.headed c := by
  obtain ⟨h0, h1, h2⟩ := h
  refine ⟨(hm 0 (by omega)).symm.trans h0, (hm 1 (by omega)).symm.trans h1, ?_⟩
  rw [hseq, ← h2, Memory.read16, Memory.read16, hm 2 (by omega), hm 3 (by omega)]

/-- R103: the secondary header stands behind the frame header. -/
theorem sameBelow_writePktHdr (m : Memory) (v : Byte) (h : PacketHeader) : sameBelow 4 m (writePktHdr m v h) := by
  intro a ha
  simp only [writePktHdr, Memory.write16, Memory.write32]
  rw [Memory.read_writeBytes_outside _ _ _ _ (.inl (by omega)),
    Memory.read_writeBytes_outside _ _ _ _ (.inl (by omega)),
    Memory.read_writeBytes_outside _ _ _ _ (.inl (by omega)),
    Memory.read_writeBytes_outside _ _ _ _ (.inl (by omega)),
    Memory.read_write_other _ _ _ _ (by omega), Memory.read_write_other _ _ _ _ (by omega)]

/-- R161: `E.BUILD` writes the frame header with the number the counter leaves. -/
theorem headed_buildFrame (c : Config) (s : State) : (buildFrame c s).enc.headed c := by
  have hframed : Enc.headed c
      { s.enc with fbuf := writeFrameHdr Memory.cleared c.protocolVersion s.enc.seq, seq := s.enc.seq + 1#16 } := by
    simp [Enc.headed, writeFrameHdr, Memory.write16, Memory.writeBytes, be16, Memory.read16, Memory.read_write]
  refine headed_of_sameBelow hframed rfl ?_
  simp only [buildFrame, builtBuffer]
  split
  · exact sameBelow_writePktHdr _ _ _
  · exact fun _ _ => rfl

theorem wf_builtBuffer (c : Config) (e : Enc) : Memory.wf (builtBuffer c e) = true := by
  have hframed := wf_writeFrameHdr c.protocolVersion e.seq Memory.wf_cleared
  unfold builtBuffer
  split
  · exact wf_writePktHdr _ _ hframed
  · exact hframed

/-! ## What holds of ENC -/

section EncInvariant
variable {c : Config} {s : State}

/-- In IDLE only the ranges and the response are left to hold. -/
theorem encInv_of_idle {e : Enc} (hphase : e.phase = .idle) (hcanon : Memory.wf e.fbuf = true)
    (htodo : e.todo.toNat ≤ 65521) (hcount : e.count.toNat ≤ 298)
    (hdue : e.rspDue = true → e.res.status ≠ .none) : EncInv c e where
  canonical := hcanon
  todoRange := htodo
  countRange := hcount
  pending hp := absurd hphase hp
  answered hd := ⟨hphase, hdue hd⟩
  atBuild hp := nomatch hphase.symm.trans hp
  atFill hp := nomatch hphase.symm.trans hp
  atParity hp := nomatch hphase.symm.trans hp
  atEmit hp := nomatch hphase.symm.trans hp

/-- R74: an ENC at work owes no response. -/
theorem EncInv.busy {e : Enc} (h : EncInv c e) (hp : e.phase ≠ .idle) : e.res.status = .none ∧ e.rspDue ≠ true :=
  ⟨h.pending hp, fun hd => hp (h.answered hd).1⟩

theorem encInv_encAfterReset (n : Nat) : EncInv c (encAfterReset c n) := by
  refine encInv_of_idle rfl ?_ (encAfterReset_todo c n) (encAfterReset_count c n) ?_
  · rw [encAfterReset_fbuf]
    exact Memory.wf_ofBytes _
  · rw [encAfterReset_rspDue]
    nofun

/-- A command ends with its status written. -/
theorem encInv_endCommand {st : EncStatus} {n : Half} (hst : st ≠ .none) (hcanon : Memory.wf s.enc.fbuf = true)
    (htodo : s.enc.todo.toNat ≤ 65521) (hcount : s.enc.count.toNat ≤ 298) : EncInv c (endCommand st n s).enc :=
  encInv_of_idle rfl hcanon htodo hcount fun _ => hst

theorem encInv_respondEnc (h : EncInv c s.enc) (hp : s.enc.phase = .idle) : EncInv c (respondEnc c s).enc := by
  obtain ⟨_, e⟩ | ⟨_, e⟩ := respondEnc_cases c s <;> rw [e]
  · exact h
  · exact encInv_of_idle hp h.canonical h.todoRange h.countRange nofun

theorem encInv_offerEncode (h : EncInv c s.enc) (hd : PacketHeader) : EncInv c (offerEncode hd s).enc := by
  obtain ⟨_, e⟩ | ⟨_, _, e⟩ | ⟨_, _, _, e⟩ | ⟨⟨_, hdue⟩, h14, e⟩ := offerEncode_cases hd s <;> rw [e]
  · exact h
  · exact encInv_endCommand nofun h.canonical h.todoRange h.countRange
  · exact encInv_endCommand nofun h.canonical h.todoRange h.countRange
  · have hlen := hd.len.isLt
    have htodo := payloadCount_toNat h14
    exact
      { canonical := h.canonical
        todoRange := show (payloadCount hd.len).toNat ≤ 65521 by omega
        countRange := Nat.zero_le _
        pending := fun _ => rfl
        answered := fun hd => absurd (hdue.symm.trans hd) nofun
        atBuild := fun _ => ⟨show 220 * 0 + 14 + (payloadCount hd.len).toNat = hd.len.toNat by omega, nofun⟩
        atFill := nofun
        atParity := nofun
        atEmit := nofun }

theorem encInv_buildFrame (h : EncInv c s.enc) (hp : s.enc.phase = .build) : EncInv c (buildFrame c s).enc := by
  obtain ⟨hstatus, hdue⟩ := h.busy (by rw [hp]; nofun)
  obtain ⟨hsum, hmore⟩ := h.atBuild hp
  refine
    { canonical := wf_builtBuffer c s.enc
      todoRange := h.todoRange
      countRange := h.countRange
      pending := fun _ => hstatus
      answered := fun hd => absurd hd hdue
      atBuild := nofun
      atFill := fun _ => ⟨headed_buildFrame c s, rfl, ?_⟩
      atParity := nofun
      atEmit := nofun }
  simp only [buildFrame]
  cases hf : s.enc.first with
  | true =>
    rw [hf, if_pos rfl] at hsum
    exact ⟨by decide, by decide, .inl (by decide), by simpa using hsum⟩
  | false =>
    rw [hf, if_neg (by decide)] at hsum
    exact ⟨by decide, by decide, .inr (hmore hf), by simpa using hsum⟩

theorem encInv_fillByte (h : EncInv c s.enc) (hp : s.enc.phase = .fill) : EncInv c (fillByte c s).enc := by
  obtain ⟨hstatus, hdue⟩ := h.busy (by rw [hp]; nofun)
  obtain ⟨hheaded, hfirst, hlow, hhigh, hsome, hsum⟩ := h.atFill hp
  obtain ⟨_, _, e⟩ | ⟨_, _, e⟩ | ⟨⟨hroom, hleft⟩, b, _, e⟩ | ⟨hfull, e⟩ := fillByte_cases c s <;> rw [e]
  · exact h
  · exact encInv_endCommand nofun h.canonical h.todoRange h.countRange
  · have hidx := index_toNat_succ (x := s.enc.idx) (by omega)
    have htodo := half_toNat_pred hleft
    have htodoRange := h.todoRange
    exact
      { canonical := Memory.wf_write b (by omega) h.canonical
        todoRange := show (s.enc.todo - 1#16).toNat ≤ 65521 by omega
        countRange := h.countRange
        pending := fun _ => hstatus
        answered := fun hd => absurd hd hdue
        atBuild := fun hb => nomatch hp.symm.trans hb
        atFill := fun _ =>
          ⟨headed_of_sameBelow hheaded rfl (sameBelow_write_above b hlow), hfirst, by dsimp only; omega,
            by dsimp only; omega, .inl (by dsimp only; omega), by dsimp only; omega⟩
        atParity := fun hq => nomatch hp.symm.trans hq
        atEmit := fun hq => nomatch hp.symm.trans hq }
  · rw [Enc.pulls] at hfull
    exact
      { canonical := h.canonical
        todoRange := h.todoRange
        countRange := h.countRange
        pending := fun _ => hstatus
        answered := fun hd => absurd hd hdue
        atBuild := nofun
        atFill := nofun
        atParity := fun _ => ⟨hheaded, hfirst, by dsimp only; omega, hhigh, by dsimp only; omega, hsum⟩
        atEmit := nofun }

theorem encInv_addParity (h : EncInv c s.enc) (hp : s.enc.phase = .parity) : EncInv c (addParity c s).enc := by
  obtain ⟨hstatus, hdue⟩ := h.busy (by rw [hp]; nofun)
  obtain ⟨hheaded, hfirst, hlow, hhigh, hend, hsum⟩ := h.atParity hp
  have hkeeps : sameBelow 4 s.enc.fbuf (addParity c s).enc.fbuf := sameBelow_writeBytes_above _ (by omega)
  exact
    { canonical := wf_writeParity _ h.canonical
      todoRange := h.todoRange
      countRange := h.countRange
      pending := fun _ => hstatus
      answered := fun hd => absurd hd hdue
      atBuild := nofun
      atFill := nofun
      atParity := nofun
      atEmit := fun _ =>
        ⟨headed_of_sameBelow hheaded rfl hkeeps, hfirst, by simp [addParity], by simp only [addParity]; omega,
          by simp only [addParity]; omega⟩ }

/-- R170: a packet has at most 298 frames, since its length is a 16-bit number. -/
theorem encInv_emitByte (h : EncInv c s.enc) (hp : s.enc.phase = .emit) : EncInv c (emitByte c s).enc := by
  obtain ⟨hstatus, hdue⟩ := h.busy (by rw [hp]; nofun)
  obtain ⟨hheaded, hfirst, hidx, hmore, hlast⟩ := h.atEmit hp
  have hlen := s.enc.hdr.len.isLt
  have hcount := half_toNat_succ h.countRange
  obtain ⟨_, e⟩ | ⟨_, e⟩ | ⟨_, hi, e⟩ | ⟨_, _, h0, e⟩ | ⟨_, _, h0, e⟩ := emitByte_cases c s <;> rw [e]
  · exact h
  · exact encInv_endCommand nofun h.canonical h.todoRange h.countRange
  · have hidx' := index_toNat_succ hidx
    exact
      { canonical := h.canonical
        todoRange := h.todoRange
        countRange := h.countRange
        pending := fun _ => hstatus
        answered := fun hd => absurd hd hdue
        atBuild := fun hq => nomatch hp.symm.trans hq
        atFill := fun hq => nomatch hp.symm.trans hq
        atParity := fun hq => nomatch hp.symm.trans hq
        atEmit := fun _ => ⟨hheaded, hfirst, by dsimp only; omega, hmore, hlast⟩ }
  · obtain ⟨hlow, _⟩ := hlast h0
    exact encInv_endCommand nofun h.canonical h.todoRange (by dsimp only; omega)
  · have hsum := hmore h0
    exact
      { canonical := h.canonical
        todoRange := h.todoRange
        countRange := by dsimp only; omega
        pending := fun _ => hstatus
        answered := fun hd => absurd hd hdue
        atBuild := fun _ => ⟨by simp only [hfirst, hcount]; simpa using hsum, fun _ => h0⟩
        atFill := nofun
        atParity := nofun
        atEmit := nofun }

end EncInvariant

/-- Every operation keeps what holds of ENC. -/
theorem exec_encInv {i : Instr} {s t : State} (h : EncInv Config.given s.enc) (he : exec i s = .next t) :
    EncInv Config.given t.enc := by
  cases hi : isEncOp i with
  | false =>
    have henc : t.enc = s.enc := congrArg EncSide.enc (exec_encSide hi he)
    exact henc ▸ h
  | true =>
    cases i with
    | encode hd =>
      cases he
      exact encInv_offerEncode h hd
    | encReset =>
      cases he
      exact encInv_encAfterReset _
    | eBuild =>
      obtain ⟨hp, rfl⟩ := execEBuild_next he
      exact encInv_buildFrame h hp
    | eFill =>
      obtain ⟨hp, rfl⟩ := execEFill_next he
      exact encInv_fillByte h hp
    | eParity =>
      obtain ⟨hp, rfl⟩ := execEParity_next he
      exact encInv_addParity h hp
    | eEmit =>
      obtain ⟨hp, _, rfl⟩ := execEEmit_next he
      exact encInv_emitByte h hp
    | _ => cases hi

end Sys2Proof.Machine
end

section
/-! The invariant of DEC, and of the machine (R41): every operation and every step keeps it, it holds at reset, and it
gives the ranges. -/

namespace Sys2Proof.Machine

/-! ## What holds of DEC -/

section DecInvariant
variable {c : Config} {s : State} {d : Dec}

/-- R34, R74: a DEC at work is running and owes no response. -/
theorem DecInv.busy (h : DecInv c d) (hp : d.phase ≠ .idle) : d.status = .running ∧ d.rspDue ≠ true :=
  ⟨not_not.mp (mt h.idleStatus.mpr hp), fun hd => hp (h.answered hd).1⟩

/-- Outside STREAM no byte is held back. -/
theorem DecInv.not_refused (h : DecInv c d) (hp : d.phase ≠ .stream) : d.refused ≠ true :=
  fun hr => hp (h.held hr).1

/-- The part of the invariant that says nothing of where DEC stands in a frame, for a DEC in IDLE or SYNC. -/
theorem decInv_of_idle_or_sync (hphase : d.phase = .idle ∨ d.phase = .sync) (hcanon : Memory.wf d.fbuf = true)
    (hrem : d.rem.toNat ≤ 65521) (hstatus : d.phase = .idle ↔ d.status ≠ .running)
    (hdue : d.rspDue = true → d.phase = .idle ∧ d.status ≠ .none) (hrefused : d.refused ≠ true)
    (hopen : d.mode = .awaitingData → 1 ≤ d.rem.toNat ∧ d.rem.toNat + 14 ≤ d.hdr.len.toNat) : DecInv c d := by
  have hbody : d.phase ≠ .body := by intro hp; simp [hp] at hphase
  have hdispatch : d.phase ≠ .dispatch := by intro hp; simp [hp] at hphase
  have hstream : d.phase ≠ .stream := by intro hp; simp [hp] at hphase
  exact
    { canonical := hcanon
      remRange := hrem
      bodyIdx := fun hp => absurd hp hbody
      streamIdx := fun hp => absurd hp hstream
      unfinished := fun hm _ => (hopen hm).1
      idleStatus := hstatus
      answered := hdue
      held := fun hr => absurd hr hrefused
      inFrame := fun hi hs => absurd hphase (not_or.mpr ⟨hi, hs⟩)
      version := fun hp => absurd hp (not_or.mpr ⟨hdispatch, hstream⟩)
      declared := fun hp => (hopen (hp.resolve_right hstream)).2 }

/-- What a packet under way still owes is kept from frame to frame (R28, R204). -/
theorem DecInv.open_packet (h : DecInv c d) (hp : d.phase ≠ .stream) (hm : d.mode = .awaitingData) :
    1 ≤ d.rem.toNat ∧ d.rem.toNat + 14 ≤ d.hdr.len.toNat :=
  ⟨h.unfinished hm hp, h.declared (.inl hm)⟩

theorem decInv_decAfterReset (n : Nat) : DecInv c (decAfterReset c n) := by
  refine decInv_of_idle_or_sync (.inl rfl) ?_ (decAfterReset_rem c n) (by simp) (by simp) (by simp) (by simp)
  rw [decAfterReset_fbuf]
  exact Memory.wf_ofBytes _

/-- A session ends outside STREAM, with its status written. -/
theorem decInv_endSession {st : DecStatus} {m : Memory} (h : DecInv c d) (hp : d.phase ≠ .stream)
    (hrunning : st ≠ .running) (hnone : st ≠ .none) (hcanon : Memory.wf m = true) :
    DecInv c { d with fbuf := m, status := st, phase := .idle, rspDue := true } :=
  decInv_of_idle_or_sync (.inl rfl) hcanon h.remRange (iff_of_true rfl hrunning) (fun _ => ⟨rfl, hnone⟩)
    (h.not_refused hp) (h.open_packet hp)

/-- A packet ends: DEC looks for the next frame and awaits a header. -/
theorem decInv_closePacket (valid : Bool) (hd : PacketHeader) (h : DecInv c s.dec) (hp : s.dec.phase ≠ .idle) :
    DecInv c (closePacket valid { s with dec := { s.dec with hdr := hd } }).dec := by
  obtain ⟨hrunning, hdue⟩ := h.busy hp
  exact decInv_of_idle_or_sync (.inr rfl) h.canonical h.remRange (iff_of_false nofun fun hn => hn hrunning)
    (fun hd => absurd hd hdue) nofun nofun

theorem decInv_respondDec (h : DecInv c s.dec) (hp : s.dec.phase = .idle) : DecInv c (respondDec c s).dec := by
  have hstream : s.dec.phase ≠ .stream := by rw [hp]; nofun
  obtain ⟨_, e⟩ | ⟨_, e⟩ := respondDec_cases c s <;> rw [e]
  · exact h
  · exact decInv_of_idle_or_sync (.inl hp) h.canonical h.remRange h.idleStatus nofun (h.not_refused hstream)
      (h.open_packet hstream)

theorem decInv_offerDecode (h : DecInv c s.dec) : DecInv c (offerDecode s).dec := by
  obtain ⟨_, e⟩ | ⟨⟨hp, hdue⟩, e⟩ := offerDecode_cases s <;> rw [e]
  · exact h
  · exact decInv_of_idle_or_sync (.inr rfl) h.canonical h.remRange (iff_of_false nofun fun hn => hn rfl)
      (fun hd => absurd (hdue.symm.trans hd) nofun) (h.not_refused (by rw [hp]; nofun)) nofun

theorem decInv_scanByte (h : DecInv c s.dec) (hp : s.dec.phase = .sync) : DecInv c (scanByte c s).dec := by
  have hstream : s.dec.phase ≠ .stream := by rw [hp]; nofun
  obtain ⟨hrunning, hdue⟩ := h.busy (by rw [hp]; nofun)
  obtain ⟨_, e⟩ | ⟨_, e⟩ | ⟨_, _, _, e⟩ | ⟨_, t, _, _, e⟩ := scanByte_cases c s <;> rw [e]
  · exact h
  · exact decInv_endSession h hstream nofun nofun h.canonical
  · exact
      { canonical := Memory.wf_write syncContByte (show 0 < 256 by omega) h.canonical
        remRange := h.remRange
        bodyIdx := fun _ => ⟨show 1 ≤ (1#9).toNat by decide, show (1#9).toNat ≤ 255 by decide⟩
        streamIdx := nofun
        unfinished := fun hm _ => h.unfinished hm hstream
        idleStatus := iff_of_false nofun fun hn => hn hrunning
        answered := fun hd => absurd hd hdue
        held := fun hr => absurd hr (h.not_refused hstream)
        inFrame := fun _ _ => ⟨rfl, Memory.read_write_same s.dec.fbuf 0 syncContByte⟩
        version := nofun
        declared := fun hm => h.declared (.inl (hm.resolve_right nofun)) }
  · exact decInv_of_idle_or_sync (.inr hp) h.canonical h.remRange h.idleStatus h.answered (h.not_refused hstream)
      (h.open_packet hstream)

/-- A byte of the body is taken in, and DEC stays in BODY or goes on to VALIDATE. -/
theorem decInv_bodyByte (h : DecInv c d) (hp : d.phase = .body) (b : Byte) {p : DecPhase}
    (hnext : p = .validate ∨ (p = .body ∧ d.idx.toNat + 1 ≤ 255)) :
    DecInv c { d with fbuf := Memory.write d.fbuf d.idx.toNat b, idx := d.idx + 1#9, phase := p } := by
  have hidle : d.phase ≠ .idle := by rw [hp]; nofun
  have hstream : d.phase ≠ .stream := by rw [hp]; nofun
  obtain ⟨hrunning, hdue⟩ := h.busy hidle
  obtain ⟨hlow, hhigh⟩ := h.bodyIdx hp
  obtain ⟨hscan, hcont⟩ := h.inFrame hidle (by rw [hp]; nofun)
  have hidx := index_toNat_succ (x := d.idx) (by omega)
  have hneither : p ≠ .idle ∧ p ≠ .dispatch ∧ p ≠ .stream := by
    obtain rfl | ⟨rfl, _⟩ := hnext <;> exact ⟨nofun, nofun, nofun⟩
  obtain ⟨hnotIdle, hnotDispatch, hnotStream⟩ := hneither
  exact
    { canonical := Memory.wf_write b (by omega) h.canonical
      remRange := h.remRange
      bodyIdx := fun hb => by
        obtain rfl | ⟨_, hle⟩ := hnext
        · cases hb
        · exact ⟨by dsimp only; omega, by dsimp only; omega⟩
      streamIdx := fun hq => absurd hq hnotStream
      unfinished := fun hm _ => h.unfinished hm hstream
      idleStatus := iff_of_false hnotIdle fun hn => hn hrunning
      answered := fun hd => absurd hd hdue
      held := fun hr => absurd hr (h.not_refused hstream)
      inFrame := fun _ _ => ⟨hscan, (Memory.read_write_other _ _ _ _ (by omega)).trans hcont⟩
      version := fun hq => absurd hq (not_or.mpr ⟨hnotDispatch, hnotStream⟩)
      declared := fun hm => h.declared (.inl (hm.resolve_right hnotStream)) }

theorem decInv_readBody (h : DecInv c s.dec) (hp : s.dec.phase = .body) : DecInv c (readBody c s).dec := by
  obtain ⟨_, e⟩ | ⟨_, e⟩ | ⟨b, _, e⟩ := readBody_cases c s <;> rw [e]
  · exact h
  · exact decInv_endSession h (by rw [hp]; nofun) nofun nofun h.canonical
  · refine decInv_bodyByte h hp b ?_
    have hhigh := (h.bodyIdx hp).2
    by_cases hend : s.dec.idx.toNat + 1 = 256
    · exact .inl (if_pos hend)
    · exact .inr ⟨if_neg hend, by omega⟩

theorem decInv_validate (h : DecInv c s.dec) (hp : s.dec.phase = .validate) : DecInv c (validate c s).dec := by
  have hidle : s.dec.phase ≠ .idle := by rw [hp]; nofun
  have hstream : s.dec.phase ≠ .stream := by rw [hp]; nofun
  obtain ⟨hrunning, hdue⟩ := h.busy hidle
  obtain ⟨hscan, hcont⟩ := h.inFrame hidle (by rw [hp]; nofun)
  obtain ⟨_, e⟩ | ⟨m, _, _, e⟩ | ⟨m, _, hversion, e⟩ := validate_cases c s <;> rw [e]
  · exact decInv_endSession h hstream nofun nofun h.canonical
  · have hcanon := wf_writeMessage m h.canonical
    exact decInv_endSession (d := s.dec) h hstream nofun nofun hcanon
  · have hcanon := wf_writeMessage m h.canonical
    exact
      { canonical := hcanon
        remRange := h.remRange
        bodyIdx := nofun
        streamIdx := nofun
        unfinished := fun hm _ => h.unfinished hm hstream
        idleStatus := iff_of_false nofun fun hn => hn hrunning
        answered := fun hd => absurd hd hdue
        held := fun hr => absurd hr (h.not_refused hstream)
        inFrame := fun _ _ => ⟨hscan, by rw [read_writeMessage, dif_neg (by omega), hcont]⟩
        version := fun _ => by rw [read_writeMessage, dif_pos (by omega), ← hversion]; rfl
        declared := fun hm => h.declared (.inl (hm.resolve_right nofun)) }

theorem decInv_dispatchHdr (h : DecInv c s.dec) (hp : s.dec.phase = .dispatch) : DecInv c (dispatchHdr c s).dec := by
  have hidle : s.dec.phase ≠ .idle := by rw [hp]; nofun
  obtain ⟨hrunning, hdue⟩ := h.busy hidle
  obtain ⟨_, _, e⟩ | ⟨_, _, e⟩ | ⟨h14, e⟩ := dispatchHdr_cases c s <;> rw [e]
  · exact h
  · exact decInv_closePacket _ _ h hidle
  · have hrem := payloadCount_toNat h14
    have hlen := (readPktHdr s.dec.fbuf).len.isLt
    exact
      { canonical := h.canonical
        remRange := by dsimp only; omega
        bodyIdx := nofun
        streamIdx := fun _ => ⟨show 4 ≤ (18#9).toNat by decide, show (18#9).toNat ≤ 224 by decide⟩
        unfinished := fun _ hn => absurd rfl hn
        idleStatus := iff_of_false nofun fun hn => hn hrunning
        answered := fun hd => absurd hd hdue
        held := fun hr => absurd hr (h.not_refused (by rw [hp]; nofun))
        inFrame := fun _ _ => h.inFrame hidle (by rw [hp]; nofun)
        version := fun _ => h.version (.inl hp)
        declared := fun _ => by dsimp only; omega }

theorem decInv_dispatchData (h : DecInv c s.dec) (hp : s.dec.phase = .dispatch) (hm : s.dec.mode = .awaitingData) :
    DecInv c (dispatchData s).dec := by
  have hidle : s.dec.phase ≠ .idle := by rw [hp]; nofun
  obtain ⟨hrunning, hdue⟩ := h.busy hidle
  exact
    { canonical := h.canonical
      remRange := h.remRange
      bodyIdx := nofun
      streamIdx := fun _ => ⟨show 4 ≤ (4#9).toNat by decide, show (4#9).toNat ≤ 224 by decide⟩
      unfinished := fun _ hn => absurd rfl hn
      idleStatus := iff_of_false nofun fun hn => hn hrunning
      answered := fun hd => absurd hd hdue
      held := fun hr => absurd hr (h.not_refused (by rw [hp]; nofun))
      inFrame := fun _ _ => h.inFrame hidle (by rw [hp]; nofun)
      version := fun _ => h.version (.inl hp)
      declared := fun _ => h.declared (.inl hm) }

theorem decInv_streamByte (h : DecInv c s.dec) (hp : s.dec.phase = .stream) (hmore : s.dec.more) :
    DecInv c (streamByte c s).dec := by
  have hidle : s.dec.phase ≠ .idle := by rw [hp]; nofun
  obtain ⟨hrunning, hdue⟩ := h.busy hidle
  obtain ⟨_, _, e⟩ | ⟨_, _, e⟩ | ⟨_, _, e⟩ | ⟨_, _, e⟩ | ⟨hr, _, e⟩ := streamByte_cases c s <;> rw [e]
  · exact h
  · exact decInv_closePacket false s.dec.hdr h hidle
  · exact h
  · exact { h with held := fun _ => ⟨hp, hmore⟩ }
  · obtain ⟨hroom, hleft⟩ := hmore
    have hidx := index_toNat_succ (x := s.dec.idx) (by omega)
    have hrem := half_toNat_pred hleft
    have hremRange := h.remRange
    have hdeclared := h.declared (.inr hp)
    have hlow := (h.streamIdx hp).1
    exact
      { canonical := h.canonical
        remRange := by dsimp only; omega
        bodyIdx := fun hb => nomatch hp.symm.trans hb
        streamIdx := fun _ => ⟨by dsimp only; omega, by dsimp only; omega⟩
        unfinished := fun _ hn => absurd hp hn
        idleStatus := h.idleStatus
        answered := h.answered
        held := fun hr' => absurd (hr.symm.trans hr') nofun
        inFrame := h.inFrame
        version := h.version
        declared := fun _ => by dsimp only; omega }

theorem decInv_streamEnd (h : DecInv c s.dec) (hp : s.dec.phase = .stream) (hmore : ¬ s.dec.more) :
    DecInv c (streamEnd c s).dec := by
  have hidle : s.dec.phase ≠ .idle := by rw [hp]; nofun
  obtain ⟨hrunning, hdue⟩ := h.busy hidle
  obtain ⟨_, _, e⟩ | ⟨_, _, e⟩ | ⟨hleft, e⟩ := streamEnd_cases c s <;> rw [e]
  · exact h
  · exact decInv_closePacket true s.dec.hdr h hidle
  · exact decInv_of_idle_or_sync (.inr rfl) h.canonical h.remRange (iff_of_false nofun fun hn => hn hrunning)
      (fun hd => absurd hd hdue) (fun hr => hmore (h.held hr).2) fun _ => ⟨hleft, h.declared (.inr hp)⟩

theorem decInv_makeEvent {valid : Bool} {hd : PacketHeader} (h : DecInv c s.dec)
    (hnow : s.dec.eventNow = some ⟨hd, valid⟩) : DecInv c (makeEvent c valid hd s).dec := by
  have hidle : s.dec.phase ≠ .idle := by
    obtain ⟨hp, _⟩ | ⟨hp, _⟩ | ⟨hp, _⟩ := eventNow_cases hnow <;> (rw [hp]; nofun)
  obtain ⟨_, e⟩ | ⟨_, e⟩ := makeEvent_cases c valid hd s <;> rw [e]
  · exact h
  · exact decInv_closePacket valid hd h hidle

end DecInvariant

/-- Every operation keeps what holds of DEC. -/
theorem exec_decInv {i : Instr} {s t : State} (h : DecInv Config.given s.dec) (he : exec i s = .next t) :
    DecInv Config.given t.dec := by
  cases hi : isEncOp i with
  | true =>
    have hdec : t.dec = s.dec := congrArg DecSide.dec (exec_decSide hi he)
    exact hdec ▸ h
  | false =>
    cases i with
    | decodeStream =>
      cases he
      exact decInv_offerDecode h
    | decReset =>
      cases he
      exact decInv_decAfterReset _
    | syncPrefix | syncCont | frameHdr _ _ | pktHdr _ _ | frame _ =>
      cases he
      exact h
    | dSync =>
      obtain ⟨hp, rfl⟩ := execDSync_next he
      exact decInv_scanByte h hp
    | dBody =>
      obtain ⟨hp, _, rfl⟩ := execDBody_next he
      exact decInv_readBody h hp
    | dValidate =>
      obtain ⟨hp, rfl⟩ := execDValidate_next he
      exact decInv_validate h hp
    | dDispatchHdr =>
      obtain ⟨⟨hp, _⟩, rfl⟩ := execDDispatchHdr_next he
      exact decInv_dispatchHdr h hp
    | dDispatchData =>
      obtain ⟨⟨hp, hm⟩, rfl⟩ := execDDispatchData_next he
      exact decInv_dispatchData h hp hm
    | dStream =>
      obtain ⟨⟨hp, hm⟩, rfl⟩ := execDStream_next he
      exact decInv_streamByte h hp hm
    | dStreamEnd =>
      obtain ⟨⟨hp, hm⟩, rfl⟩ := execDStreamEnd_next he
      exact decInv_streamEnd h hp hm
    | evtPacket valid hd =>
      obtain ⟨hnow, rfl⟩ := execEvtPacket_next he
      exact decInv_makeEvent h hnow
    | _ => cases hi

/-! ## What holds of the machine -/

theorem exec_inv {i : Instr} {s t : State} (h : Inv Config.given s) (he : exec i s = .next t) :
    Inv Config.given t :=
  ⟨exec_encInv h.1 he, exec_decInv h.2 he⟩

theorem noOperation_dec (w : OpWord) (s : State) : (noOperation w s).dec = s.dec := by
  unfold noOperation
  split <;> rfl

theorem respondEnc_dec (c : Config) (s : State) : (respondEnc c s).dec = s.dec := by
  obtain ⟨_, e⟩ | ⟨_, e⟩ := respondEnc_cases c s <;> rw [e]

theorem noOperation_inv {c : Config} {s : State} (w : OpWord) (h : Inv c s) : Inv c (noOperation w s) := by
  have henc : (noOperation w s).enc = s.enc := congrArg EncSide.enc (noOperation_encSide s w)
  exact ⟨henc ▸ h.1, noOperation_dec w s ▸ h.2⟩

theorem respondEnc_inv {c : Config} {s : State} (h : Inv c s) (hp : s.enc.phase = .idle) : Inv c (respondEnc c s) :=
  ⟨encInv_respondEnc h.1 hp, respondEnc_dec c s ▸ h.2⟩

theorem respondDec_inv {c : Config} {s : State} (h : Inv c s) (hp : s.dec.phase = .idle) : Inv c (respondDec c s) := by
  have henc : (respondDec c s).enc = s.enc := congrArg EncSide.enc (respondDec_encSide c s)
  exact ⟨henc ▸ h.1, decInv_respondDec h.2 hp⟩

/-- Settles O28: a step is a turn that passes, a due response, an operation, or a word that presents none; each keeps
the invariant. -/
theorem stepKeepsInvariant : Obligations.StepKeepsInvariant := by
  intro s t h hstep
  obtain ⟨u, hf, e⟩ | ⟨w, u, i, hf, _, e⟩ | ⟨w, u, _, hf, _, e⟩ := step_cases s <;> rw [e] at hstep
  · cases hstep
    obtain rfl | ⟨_, hp, _, rfl⟩ | ⟨_, hp, _, rfl⟩ := fetch_noOp hf
    · exact h
    · exact respondEnc_inv (s := { s with turns := s.turns.pop }) h hp
    · exact respondDec_inv (s := { s with turns := s.turns.pop }) h hp
  · obtain ⟨_, _, rfl⟩ := fetch_word hf
    exact exec_inv (s := { s with turns := s.turns.pop, encCmd := _, decCmd := _ }) h hstep
  · obtain ⟨cmds, n, rfl⟩ := fetch_word hf
    cases hstep
    exact noOperation_inv (s := { s with turns := s.turns.pop, encCmd := cmds, decCmd := n }) w h

/-- Settles O27: both agents are idle at reset, and the zeros that stand for unspecified values lie in the ranges. -/
theorem invariantAtReset : Obligations.InvariantAtReset := by
  refine ⟨encInv_of_idle rfl wf_reset.1 (Nat.zero_le _) (Nat.zero_le _) nofun, ?_⟩
  exact decInv_of_idle_or_sync (.inl rfl) wf_reset.2 (Nat.zero_le _) (iff_of_true rfl nofun) nofun nofun nofun

/-- Settles O29: the ranges are parts of the invariant, but for the bound behind a D.BODY step, which follows from the
bound before it. -/
theorem invariantGivesRanges : Obligations.InvariantGivesRanges := by
  rintro s ⟨henc, hdec⟩
  refine ⟨fun hp => ?fill, fun hp => ?emit, henc.countRange, henc.todoRange, hdec.bodyIdx, fun t he => ?behindBody,
    hdec.streamIdx, hdec.remRange, hdec.unfinished, hdec.idleStatus.mp, fun hp => (hdec.busy hp).1⟩
  case fill =>
    obtain ⟨_, _, hlow, hhigh, _⟩ := henc.atFill hp
    exact ⟨hlow, hhigh⟩
  case emit =>
    obtain ⟨_, _, hidx, _⟩ := henc.atEmit hp
    exact hidx
  case behindBody =>
    obtain ⟨_, hi, rfl⟩ := execDBody_next he
    have hidx := index_toNat_succ (x := s.dec.idx) (by omega)
    obtain ⟨_, e⟩ | ⟨_, e⟩ | ⟨_, _, e⟩ := readBody_cases Config.given s <;> rw [e]
    · exact hi.trans (by omega)
    · exact hi.trans (by omega)
    · dsimp only
      omega

end Sys2Proof.Machine
end

section
/-! The registers that reset leaves unspecified are written before they are read (R33, R40, R310): two states that are
alike take the same step to states that are alike, or stop with the same reason. One lemma per operation says that it
keeps alike states alike; the reads it does are of registers that agree in its phase. -/

namespace Sys2Proof.Machine

/-! ## Alike states -/

/-- A state that is like `s` is `s` with other registers. -/
theorem alike_iff_exists {s s' : State} :
    alike s s' ↔
      ∃ e d, s' = { s with enc := e, dec := d } ∧ Enc.alike s.enc e ∧ Dec.alike s.dec d := by
  constructor
  · rintro ⟨he, hd, hs⟩
    exact ⟨s'.enc, s'.dec, hs.symm, he, hd⟩
  · rintro ⟨e, d, rfl, he, hd⟩
    exact ⟨he, hd, rfl⟩

/-- In IDLE nothing unspecified is left to agree. -/
theorem encAlike_of_idle {e e' : Enc} (hp : e.phase = .idle) (hp' : e'.phase = .idle) (hseq : e.seq = e'.seq)
    (hres : e.res = e'.res) (hdue : e.rspDue = e'.rspDue) : Enc.alike e e' := by
  simp [Enc.alike, hp, hp', hseq, hres, hdue]

/-- A session that ends leaves registers that are alike, whatever stands in the buffers. -/
theorem decAlike_endSession {d d' : Dec} (h : Dec.alike d d') (st : DecStatus) (m m' : Memory) :
    Dec.alike { d with fbuf := m, status := st, phase := .idle, rspDue := true }
      { d' with fbuf := m', status := st, phase := .idle, rspDue := true } := by
  obtain ⟨_, hmode, hscan, _, _, hrefused, _⟩ := h
  simp [Dec.alike, hmode, hscan, hrefused]

/-- In SYNC with a header awaited nothing unspecified is left to agree. -/
theorem decAlike_of_awaitingHeader {d d' : Dec} (hp : d.phase = .sync) (hp' : d'.phase = .sync)
    (hm : d.mode = .awaitingHeader) (hm' : d'.mode = .awaitingHeader) (hscan : d.scan = d'.scan)
    (hstatus : d.status = d'.status) (hdue : d.rspDue = d'.rspDue) (hrefused : d.refused = d'.refused) :
    Dec.alike d d' := by
  simp [Dec.alike, hp, hp', hm, hm', hscan, hstatus, hdue, hrefused]

/-- A packet ends with the event of the same header. -/
theorem closePacket_alike (valid : Bool) {s s' : State} (h : alike s s') (hhdr : s.dec.hdr = s'.dec.hdr) :
    alike (closePacket valid s) (closePacket valid s') := by
  obtain ⟨e, d, rfl, he, hd⟩ := alike_iff_exists.mp h
  obtain ⟨_, _, _, hstatus, hdue, _⟩ := hd
  refine ⟨he, decAlike_of_awaitingHeader rfl rfl rfl rfl rfl hstatus hdue rfl, ?_⟩
  simp only [closePacket, sendEvent, hhdr]

/-- A latched header is the same in both. -/
theorem decAlike_setHdr {d d' : Dec} (h : Dec.alike d d') (hd : PacketHeader) :
    Dec.alike { d with hdr := hd } { d' with hdr := hd } := by
  obtain ⟨hphase, hmode, hscan, hstatus, hdue, hrefused, hopen, hbody, hvalidate, hdispatch, hstream⟩ := h
  refine ⟨hphase, hmode, hscan, hstatus, hdue, hrefused, fun hi hm => ?_, hbody, hvalidate, hdispatch, fun hp => ?_⟩
  · exact ⟨(hopen hi hm).1, rfl⟩
  · obtain ⟨hidx, hrem, _, hbuf⟩ := hstream hp
    exact ⟨hidx, hrem, rfl, hbuf⟩

/-! ## The operations of ENC -/

section EncOps
variable {c : Config} {s s' : State}

theorem resetEnc_alike (h : alike s s') : alike (resetEnc c s) (resetEnc c s') := by
  obtain ⟨e, d, rfl, _, hd⟩ := alike_iff_exists.mp h
  exact ⟨encAlike_of_idle rfl rfl rfl rfl rfl, hd, rfl⟩

theorem respondEnc_alike (h : alike s s') (hp : s.enc.phase = .idle) :
    alike (respondEnc c s) (respondEnc c s') := by
  obtain ⟨e, d, rfl, he, hd⟩ := alike_iff_exists.mp h
  obtain ⟨hphase, hseq, hres, _⟩ := id he
  cases hready : s.encRsp.peek c.encRspDraw with
  | none =>
    rw [respondEnc_of_not_ready (by rw [hready]; nofun),
      respondEnc_of_not_ready (s := { s with enc := e, dec := d }) (by rw [hready]; nofun)]
    exact ⟨he, hd, rfl⟩
  | some _ =>
    rw [respondEnc_of_ready hready, respondEnc_of_ready (s := { s with enc := e, dec := d }) hready]
    refine ⟨encAlike_of_idle hp (hphase.symm.trans hp) hseq hres rfl, hd, ?_⟩
    simp only [hres]

theorem offerEncode_alike (hdr : PacketHeader) (h : alike s s') :
    alike (offerEncode hdr s) (offerEncode hdr s') := by
  obtain ⟨e, d, rfl, he, hd⟩ := alike_iff_exists.mp h
  obtain ⟨hphase, hseq, hres, hdue, _⟩ := id he
  by_cases hr : s.enc.phase = .idle ∧ s.enc.rspDue = false
  · have hr' : e.phase = .idle ∧ e.rspDue = false := by rw [← hphase, ← hdue]; exact hr
    rw [offerEncode_of_ready hr, offerEncode_of_ready (s := { s with enc := e, dec := d }) hr']
    unfold acceptEncode
    by_cases h0 : hdr.len.toNat = 0
    · simp only [if_pos h0]
      exact ⟨encAlike_of_idle rfl rfl hseq rfl rfl, hd, rfl⟩
    · by_cases h14 : hdr.len.toNat < 14
      · simp only [if_neg h0, if_pos h14]
        exact ⟨encAlike_of_idle rfl rfl hseq rfl rfl, hd, rfl⟩
      · simp only [if_neg h0, if_neg h14]
        exact ⟨⟨rfl, hseq, rfl, hdue, fun _ => ⟨rfl, rfl, rfl, fun _ => rfl⟩, by simp, nofun⟩, hd, rfl⟩
  · have hr' : ¬ (e.phase = .idle ∧ e.rspDue = false) := by rw [← hphase, ← hdue]; exact hr
    rw [offerEncode_of_busy hr, offerEncode_of_busy (s := { s with enc := e, dec := d }) hr']
    exact ⟨he, hd, rfl⟩

/-- R161: `E.BUILD` reads the latched header in a first frame only. -/
theorem builtBuffer_eq {e e' : Enc} (hseq : e.seq = e'.seq) (hfirst : e.first = e'.first)
    (hhdr : e.first = true → e.hdr = e'.hdr) : builtBuffer c e = builtBuffer c e' := by
  unfold builtBuffer
  rw [← hseq, ← hfirst]
  split
  · next hf => rw [hhdr hf]
  · rfl

theorem buildFrame_alike (h : alike s s') (hp : s.enc.phase = .build) :
    alike (buildFrame c s) (buildFrame c s') := by
  obtain ⟨e, d, rfl, ⟨hphase, hseq, hres, hdue, hwork, _, _⟩, hd⟩ := alike_iff_exists.mp h
  obtain ⟨htodo, hcount, hfirst, hhdr⟩ := hwork (by rw [hp]; nofun)
  have hbuilt : builtBuffer c s.enc = builtBuffer c e := builtBuffer_eq hseq hfirst hhdr
  refine ⟨⟨rfl, congrArg (· + 1#16) hseq, hres, hdue, fun _ => ⟨htodo, hcount, rfl, nofun⟩, fun _ => ?_, nofun⟩,
    hd, rfl⟩
  exact ⟨by simp only [buildFrame, hfirst], by simp only [buildFrame, hbuilt]; exact fun _ _ => rfl⟩

theorem fillByte_alike (h : alike s s') (hp : s.enc.phase = .fill) :
    alike (fillByte c s) (fillByte c s') := by
  obtain ⟨e, d, rfl, he, hd⟩ := alike_iff_exists.mp h
  obtain ⟨hphase, hseq, hres, hdue, hwork, hbuf, _⟩ := id he
  obtain ⟨htodo, hcount, hfirst, hhdr⟩ := hwork (by rw [hp]; nofun)
  obtain ⟨hidx, hsame⟩ := hbuf (.inl hp)
  have hpulls : s.enc.pulls ↔ e.pulls := by rw [Enc.pulls, Enc.pulls, hidx, htodo]
  obtain ⟨hpull, hb, eq⟩ | ⟨hpull, hb, eq⟩ | ⟨hpull, b, hb, eq⟩ | ⟨hfull, eq⟩ := fillByte_cases c s <;> rw [eq]
  · rw [fillByte_of_wait (s := { s with enc := e, dec := d }) (hpulls.mp hpull) hb]
    exact ⟨he, hd, rfl⟩
  · rw [fillByte_of_none (s := { s with enc := e, dec := d }) (hpulls.mp hpull) hb]
    exact ⟨encAlike_of_idle rfl rfl hseq (congrArg (EncRes.mk _) hcount) rfl, hd, rfl⟩
  · rw [fillByte_of_byte (s := { s with enc := e, dec := d }) (hpulls.mp hpull) hb]
    refine ⟨⟨hphase, hseq, hres, hdue, fun _ => ⟨congrArg (· - 1#16) htodo, hcount, hfirst, hhdr⟩, fun _ => ?_, ?_⟩,
      hd, rfl⟩
    · refine ⟨congrArg (· + 1#9) hidx, ?_⟩
      dsimp only
      rw [← hidx]
      exact sameBelow_write b hsame
    · exact fun hq => nomatch hp.symm.trans hq
  · rw [fillByte_of_full (s := { s with enc := e, dec := d }) (mt hpulls.mpr hfull)]
    exact ⟨⟨rfl, hseq, hres, hdue, fun _ => ⟨htodo, hcount, hfirst, hhdr⟩, by simp,
      fun _ => sameBelow_mono (by omega) hsame⟩, hd, rfl⟩

theorem addParity_alike (h : alike s s') (hp : s.enc.phase = .parity) :
    alike (addParity c s) (addParity c s') := by
  obtain ⟨e, d, rfl, ⟨hphase, hseq, hres, hdue, hwork, _, hparity⟩, hd⟩ := alike_iff_exists.mp h
  have hsame := hparity hp
  have hbuf : sameBelow 256 (addParity c s).enc.fbuf (addParity c { s with enc := e, dec := d }).enc.fbuf := by
    simp only [addParity, messageOf_eq_of_sameBelow hsame]
    exact sameBelow_writeParity _ hsame
  exact ⟨⟨rfl, hseq, hres, hdue, fun _ => hwork (by rw [hp]; nofun), fun _ => ⟨rfl, hbuf⟩, nofun⟩, hd, rfl⟩

theorem emitByte_alike (h : alike s s') (hp : s.enc.phase = .emit) (hi : s.enc.idx.toNat ≤ 256) :
    alike (emitByte c s) (emitByte c s') := by
  obtain ⟨e, d, rfl, he, hd⟩ := alike_iff_exists.mp h
  obtain ⟨hphase, hseq, hres, hdue, hwork, hbuf, _⟩ := id he
  obtain ⟨htodo, hcount, hfirst, hhdr⟩ := hwork (by rw [hp]; nofun)
  obtain ⟨hidx, hsame⟩ := hbuf (.inr hp)
  have hwire : wireByte s.enc.fbuf s.enc.idx.toNat = wireByte e.fbuf e.idx.toNat := by
    rw [← hidx]
    exact wireByte_eq_of_sameBelow hi hsame
  have hcount' : s.enc.count + 1#16 = e.count + 1#16 := congrArg (· + 1#16) hcount
  obtain ⟨ht, eq⟩ | ⟨ht, eq⟩ | ⟨ht, hlt, eq⟩ | ⟨ht, hge, h0, eq⟩ | ⟨ht, hge, h0, eq⟩ := emitByte_cases c s <;> rw [eq]
  · rw [emitByte_of_wait (s := { s with enc := e, dec := d }) ht]
    exact ⟨he, hd, rfl⟩
  · rw [emitByte_of_refused (s := { s with enc := e, dec := d }) ht]
    exact ⟨encAlike_of_idle rfl rfl hseq (congrArg (EncRes.mk _) hcount) rfl, hd, rfl⟩
  · rw [emitByte_of_inner (s := { s with enc := e, dec := d }) ht (hidx ▸ hlt)]
    refine ⟨⟨hphase, hseq, hres, hdue, hwork, fun _ => ⟨congrArg (· + 1#9) hidx, hsame⟩, ?_⟩, hd, ?_⟩
    · exact fun hq => nomatch hp.symm.trans hq
    · simp only [hwire]
  · rw [emitByte_of_last (s := { s with enc := e, dec := d }) ht (hidx ▸ hge) (htodo ▸ h0)]
    refine ⟨encAlike_of_idle rfl rfl hseq (congrArg (EncRes.mk _) hcount') rfl, hd, ?_⟩
    simp only [endCommand, hwire]
  · rw [emitByte_of_next (s := { s with enc := e, dec := d }) ht (hidx ▸ hge) (htodo ▸ h0)]
    refine ⟨⟨rfl, hseq, hres, hdue, fun _ => ⟨htodo, hcount', hfirst, hhdr⟩, by simp, nofun⟩, hd, ?_⟩
    simp only [hwire]

end EncOps

/-! ## The operations of DEC, and what arrives on the wire -/

section DecOps
variable {c : Config} {s s' : State}

theorem arrive_alike (bs : List Byte) (h : alike s s') : alike (arrive bs s) (arrive bs s') := by
  obtain ⟨e, d, rfl, he, hd⟩ := alike_iff_exists.mp h
  exact ⟨he, hd, rfl⟩

theorem resetDec_alike (h : alike s s') : alike (resetDec c s) (resetDec c s') := by
  obtain ⟨e, d, rfl, he, _⟩ := alike_iff_exists.mp h
  refine ⟨he, ?_, rfl⟩
  simp [Dec.alike]

theorem respondDec_alike (h : alike s s') (hp : s.dec.phase = .idle) :
    alike (respondDec c s) (respondDec c s') := by
  obtain ⟨e, d, rfl, he, hd⟩ := alike_iff_exists.mp h
  obtain ⟨hphase, hmode, hscan, hstatus, _, hrefused, _⟩ := id hd
  have hp' : d.phase = .idle := hphase.symm.trans hp
  cases hready : s.decRsp.peek c.decRspDraw with
  | none =>
    rw [respondDec_of_not_ready (by rw [hready]; nofun),
      respondDec_of_not_ready (s := { s with enc := e, dec := d }) (by rw [hready]; nofun)]
    exact ⟨he, hd, rfl⟩
  | some _ =>
    rw [respondDec_of_ready hready, respondDec_of_ready (s := { s with enc := e, dec := d }) hready]
    refine ⟨he, ?_, ?_⟩
    · simp [Dec.alike, hp, hp', hmode, hscan, hstatus, hrefused]
    · simp only [hstatus]

theorem offerDecode_alike (h : alike s s') : alike (offerDecode s) (offerDecode s') := by
  obtain ⟨e, d, rfl, he, hd⟩ := alike_iff_exists.mp h
  obtain ⟨hphase, _, _, _, hdue, hrefused, _⟩ := id hd
  by_cases hr : s.dec.phase = .idle ∧ s.dec.rspDue = false
  · have hr' : d.phase = .idle ∧ d.rspDue = false := by rw [← hphase, ← hdue]; exact hr
    rw [offerDecode_of_ready hr, offerDecode_of_ready (s := { s with enc := e, dec := d }) hr']
    exact ⟨he, decAlike_of_awaitingHeader rfl rfl rfl rfl rfl rfl hdue hrefused, rfl⟩
  · have hr' : ¬ (d.phase = .idle ∧ d.rspDue = false) := by rw [← hphase, ← hdue]; exact hr
    rw [offerDecode_of_busy hr, offerDecode_of_busy (s := { s with enc := e, dec := d }) hr']
    exact ⟨he, hd, rfl⟩

theorem scanByte_alike (h : alike s s') (hp : s.dec.phase = .sync) :
    alike (scanByte c s) (scanByte c s') := by
  obtain ⟨e, d, rfl, he, hd⟩ := alike_iff_exists.mp h
  obtain ⟨hphase, hmode, hscan, hstatus, hdue, hrefused, hopen, _⟩ := id hd
  have hp' : d.phase = .sync := hphase.symm.trans hp
  have hopen' := hopen (by rw [hp]; nofun)
  obtain ⟨hr, eq⟩ | ⟨hr, eq⟩ | ⟨b, hr, hm, eq⟩ | ⟨b, t, hr, hm, eq⟩ := scanByte_cases c s <;> rw [eq]
  · rw [scanByte_of_wait (s := { s with enc := e, dec := d }) hr]
    exact ⟨he, hd, rfl⟩
  · rw [scanByte_of_none (s := { s with enc := e, dec := d }) hr]
    exact ⟨he, decAlike_endSession hd _ _ _, rfl⟩
  · rw [scanByte_of_match (s := { s with enc := e, dec := d }) hr (hscan ▸ hm)]
    have hsame : sameBelow 1 (Memory.write s.dec.fbuf 0 syncContByte) (Memory.write d.fbuf 0 syncContByte) :=
      sameBelow_write_succ _ fun _ hx => absurd hx (Nat.not_lt_zero _)
    exact ⟨he, ⟨rfl, hmode, rfl, hstatus, hdue, hrefused, fun _ => hopen', fun _ => ⟨rfl, hsame⟩, nofun, nofun, nofun⟩,
      rfl⟩
  · rw [scanByte_of_stay (s := { s with enc := e, dec := d }) hr (hscan ▸ hm)]
    refine ⟨he, ?_, rfl⟩
    simpa [Dec.alike, hp, hp', hmode, hstatus, hdue, hrefused] using hopen'

/-- R201: a byte of the body is written where both buffers read the same below, and so they do one byte further. -/
theorem decAlike_bodyByte {d d' : Dec} (h : Dec.alike d d') (hp : d.phase = .body) (hi : d.idx.toNat ≤ 255) (b : Byte)
    {p : DecPhase} (hnext : p = .body ∨ (p = .validate ∧ d.idx.toNat + 1 = 256)) :
    Dec.alike { d with fbuf := Memory.write d.fbuf d.idx.toNat b, idx := d.idx + 1#9, phase := p }
      { d' with fbuf := Memory.write d'.fbuf d'.idx.toNat b, idx := d'.idx + 1#9, phase := p } := by
  obtain ⟨_, hmode, hscan, hstatus, hdue, hrefused, hopen, hbody, _⟩ := h
  obtain ⟨hidx, hsame⟩ := hbody hp
  rw [← hidx]
  have hsucc := sameBelow_write_succ b hsame
  have hopen' := hopen (by rw [hp]; nofun)
  obtain rfl | ⟨rfl, hlast⟩ := hnext
  · rw [← index_toNat_succ (by omega)] at hsucc
    exact ⟨rfl, hmode, hscan, hstatus, hdue, hrefused, fun _ => hopen', fun _ => ⟨rfl, hsucc⟩, nofun, nofun, nofun⟩
  · rw [hlast] at hsucc
    exact ⟨rfl, hmode, hscan, hstatus, hdue, hrefused, fun _ => hopen', nofun, fun _ => hsucc, nofun, nofun⟩

theorem readBody_alike (h : alike s s') (hp : s.dec.phase = .body) (hi : s.dec.idx.toNat ≤ 255) :
    alike (readBody c s) (readBody c s') := by
  obtain ⟨e, d, rfl, he, hd⟩ := alike_iff_exists.mp h
  obtain ⟨_, _, _, _, _, _, _, hbody, _⟩ := id hd
  obtain ⟨hr, eq⟩ | ⟨hr, eq⟩ | ⟨b, hr, -⟩ := readBody_cases c s
  · rw [eq, readBody_of_wait (s := { s with enc := e, dec := d }) hr]
    exact ⟨he, hd, rfl⟩
  · rw [eq, readBody_of_none (s := { s with enc := e, dec := d }) hr]
    exact ⟨he, decAlike_endSession hd _ _ _, rfl⟩
  · rw [readBody_of_byte hr, readBody_of_byte (s := { s with enc := e, dec := d }) hr]
    refine ⟨he, ?_, rfl⟩
    dsimp only
    have hidx : d.idx.toNat = s.dec.idx.toNat := congrArg BitVec.toNat (hbody hp).1.symm
    by_cases hlast : s.dec.idx.toNat = 255
    · rw [if_pos hlast, if_pos (hidx.trans hlast)]
      exact decAlike_bodyByte hd hp hi b (.inr ⟨rfl, by omega⟩)
    · rw [if_neg hlast, if_neg (hidx ▸ hlast)]
      exact decAlike_bodyByte hd hp hi b (.inl rfl)

theorem validate_alike (h : alike s s') (hp : s.dec.phase = .validate) :
    alike (validate c s) (validate c s') := by
  obtain ⟨e, d, rfl, he, hd⟩ := alike_iff_exists.mp h
  obtain ⟨_, hmode, hscan, hstatus, hdue, hrefused, hopen, _, hvalidate, _⟩ := id hd
  have hsame := hvalidate hp
  have hword := codewordIn_eq_of_sameBelow hsame
  obtain ⟨hf, eq⟩ | ⟨m, hf, hv, eq⟩ | ⟨m, hf, hv, eq⟩ := validate_cases c s <;> rw [eq] <;> rw [hword] at hf
  · rw [validate_of_uncorrectable (s := { s with enc := e, dec := d }) hf]
    exact ⟨he, decAlike_endSession hd _ _ _, rfl⟩
  · rw [validate_of_badVersion (s := { s with enc := e, dec := d }) hf hv]
    exact ⟨he, decAlike_endSession hd _ _ _, rfl⟩
  · rw [validate_of_version (s := { s with enc := e, dec := d }) hf hv]
    have hcorrected : sameBelow 224 (writeMessage s.dec.fbuf m) (writeMessage d.fbuf m) :=
      sameBelow_mono (by omega) (sameBelow_writeMessage m hsame)
    refine ⟨he, ?_, rfl⟩
    dsimp only
    exact ⟨rfl, hmode, hscan, hstatus, hdue, hrefused, fun _ => hopen (by rw [hp]; nofun), nofun, nofun,
      fun _ => hcorrected, nofun⟩

theorem dispatchHdr_alike (h : alike s s') (hp : s.dec.phase = .dispatch) :
    alike (dispatchHdr c s) (dispatchHdr c s') := by
  obtain ⟨e, d, rfl, he, hd⟩ := alike_iff_exists.mp h
  obtain ⟨_, hmode, hscan, hstatus, hdue, hrefused, _, _, _, hdispatch, _⟩ := id hd
  have hsame := hdispatch hp
  have hread := readPktHdr_eq_of_sameBelow (sameBelow_mono (by omega) hsame)
  obtain ⟨hl, hev, eq⟩ | ⟨hl, hev, eq⟩ | ⟨hl, eq⟩ := dispatchHdr_cases c s <;> rw [eq] <;> rw [hread] at hl
  · rw [dispatchHdr_of_wait (s := { s with enc := e, dec := d }) hl hev]
    exact ⟨he, hd, rfl⟩
  · rw [dispatchHdr_of_bad_length (s := { s with enc := e, dec := d }) hl hev, hread]
    exact closePacket_alike false ⟨he, decAlike_setHdr hd _, rfl⟩ rfl
  · rw [dispatchHdr_of_payload (s := { s with enc := e, dec := d }) hl, hread]
    exact ⟨he, ⟨rfl, hmode, hscan, hstatus, hdue, hrefused, fun _ _ => ⟨rfl, rfl⟩, nofun, nofun, nofun,
      fun _ => ⟨rfl, rfl, rfl, hsame⟩⟩, rfl⟩

theorem dispatchData_alike (h : alike s s') (hp : s.dec.phase = .dispatch) (hm : s.dec.mode = .awaitingData) :
    alike (dispatchData s) (dispatchData s') := by
  obtain ⟨e, d, rfl, he, hd⟩ := alike_iff_exists.mp h
  obtain ⟨_, hmode, hscan, hstatus, hdue, hrefused, hopen, _, _, hdispatch, _⟩ := hd
  obtain ⟨hrem, hhdr⟩ := hopen (by rw [hp]; nofun) hm
  exact ⟨he, ⟨rfl, hmode, hscan, hstatus, hdue, hrefused, fun _ _ => ⟨hrem, hhdr⟩, nofun, nofun, nofun,
    fun _ => ⟨rfl, hrem, hhdr, hdispatch hp⟩⟩, rfl⟩

theorem streamByte_alike (h : alike s s') (hp : s.dec.phase = .stream) (hmore : s.dec.more) :
    alike (streamByte c s) (streamByte c s') := by
  obtain ⟨e, d, rfl, he, hd⟩ := alike_iff_exists.mp h
  obtain ⟨hphase, hmode, hscan, hstatus, hdue, hrefused, _, _, _, _, hstream⟩ := id hd
  obtain ⟨hidx, hrem, hhdr, hsame⟩ := hstream hp
  obtain ⟨hr, hev, eq⟩ | ⟨hr, hev, eq⟩ | ⟨hr, hs, eq⟩ | ⟨hr, hs, eq⟩ | ⟨hr, hs, eq⟩ := streamByte_cases c s <;>
    rw [eq] <;> rw [hrefused] at hr
  · rw [streamByte_of_event_wait (s := { s with enc := e, dec := d }) hr hev]
    exact ⟨he, hd, rfl⟩
  · rw [streamByte_of_refused (s := { s with enc := e, dec := d }) hr hev]
    exact closePacket_alike false h hhdr
  · rw [streamByte_of_wait (s := { s with enc := e, dec := d }) hr hs]
    exact ⟨he, hd, rfl⟩
  · rw [streamByte_of_refusal (s := { s with enc := e, dec := d }) hr hs]
    obtain ⟨_, _, _, _, _, _, hopen, hbody, hvalidate, hdispatch, _⟩ := hd
    exact ⟨he, ⟨hphase, hmode, hscan, hstatus, hdue, rfl, hopen, hbody, hvalidate, hdispatch, hstream⟩, rfl⟩
  · rw [streamByte_of_taken (s := { s with enc := e, dec := d }) hr hs]
    have hbyte : Memory.read s.dec.fbuf s.dec.idx.toNat = Memory.read d.fbuf d.idx.toNat := by
      rw [← hidx]
      exact hsame _ hmore.1
    have hrem' : s.dec.rem - 1#16 = d.rem - 1#16 := congrArg (· - 1#16) hrem
    have hidx' : s.dec.idx + 1#9 = d.idx + 1#9 := congrArg (· + 1#9) hidx
    refine ⟨he, ⟨hphase, hmode, hscan, hstatus, hdue, hrefused, fun _ _ => ⟨hrem', hhdr⟩, ?_, ?_, ?_,
      fun _ => ⟨hidx', hrem', hhdr, hsame⟩⟩, ?_⟩
    · exact fun hq => nomatch hp.symm.trans hq
    · exact fun hq => nomatch hp.symm.trans hq
    · exact fun hq => nomatch hp.symm.trans hq
    · simp only [hbyte]

theorem streamEnd_alike (h : alike s s') (hp : s.dec.phase = .stream) : alike (streamEnd c s) (streamEnd c s') := by
  obtain ⟨e, d, rfl, he, hd⟩ := alike_iff_exists.mp h
  obtain ⟨_, _, _, hstatus, hdue, hrefused, _, _, _, _, hstream⟩ := id hd
  obtain ⟨_, hrem, hhdr, _⟩ := hstream hp
  obtain ⟨h0, hev, eq⟩ | ⟨h0, hev, eq⟩ | ⟨h0, eq⟩ := streamEnd_cases c s <;> rw [eq] <;> rw [hrem] at h0
  · rw [streamEnd_of_wait (s := { s with enc := e, dec := d }) h0 hev]
    exact ⟨he, hd, rfl⟩
  · rw [streamEnd_of_done (s := { s with enc := e, dec := d }) h0 hev]
    exact closePacket_alike true h hhdr
  · rw [streamEnd_of_more (s := { s with enc := e, dec := d }) h0]
    exact ⟨he, ⟨rfl, rfl, rfl, hstatus, hdue, hrefused, fun _ _ => ⟨hrem, hhdr⟩, nofun, nofun, nofun, nofun⟩, rfl⟩

theorem makeEvent_alike (valid : Bool) (hdr : PacketHeader) (h : alike s s') :
    alike (makeEvent c valid hdr s) (makeEvent c valid hdr s') := by
  obtain ⟨e, d, rfl, he, hd⟩ := alike_iff_exists.mp h
  obtain ⟨hev, eq⟩ | ⟨hev, eq⟩ := makeEvent_cases c valid hdr s <;> rw [eq]
  · rw [makeEvent_of_wait (s := { s with enc := e, dec := d }) hev]
    exact ⟨he, hd, rfl⟩
  · rw [makeEvent_of_ready (s := { s with enc := e, dec := d }) hev]
    exact closePacket_alike valid ⟨he, decAlike_setHdr hd hdr, rfl⟩ rfl

end DecOps

end Sys2Proof.Machine
end

section
/-! What selects a step (R25, R30, R72, R115), and where an operation stops that nothing selects: the turn, the phase
registers and the waiting commands, the words from outside that present no operation, and the refusals and faults. -/

namespace Sys2Proof.Machine

/-! ## What the control registers select (R111, R115) -/

section Selectors
variable {e : Enc} {d : Dec}

theorem decode_encSelector_build (hp : e.phase = .build) : decode e.selector = .ok .eBuild := by
  rw [Enc.selector, hp]; rfl

theorem decode_encSelector_fill (hp : e.phase = .fill) : decode e.selector = .ok .eFill := by
  rw [Enc.selector, hp]; rfl

theorem decode_encSelector_parity (hp : e.phase = .parity) : decode e.selector = .ok .eParity := by
  rw [Enc.selector, hp]; rfl

theorem decode_encSelector_emit (hp : e.phase = .emit) : decode e.selector = .ok .eEmit := by
  rw [Enc.selector, hp]; rfl

theorem decode_decSelector_sync (hp : d.phase = .sync) : decode d.selector = .ok .dSync := by
  rw [Dec.selector, hp]; rfl

theorem decode_decSelector_body (hp : d.phase = .body) : decode d.selector = .ok .dBody := by
  rw [Dec.selector, hp]; rfl

theorem decode_decSelector_validate (hp : d.phase = .validate) : decode d.selector = .ok .dValidate := by
  rw [Dec.selector, hp]; rfl

theorem decode_decSelector_header (hp : d.phase = .dispatch) (hm : d.mode = .awaitingHeader) :
    decode d.selector = .ok .dDispatchHdr := by
  rw [Dec.selector, hp, hm]; rfl

theorem decode_decSelector_data (hp : d.phase = .dispatch) (hm : d.mode = .awaitingData) :
    decode d.selector = .ok .dDispatchData := by
  rw [Dec.selector, hp, hm]; rfl

theorem decode_decSelector_more (hp : d.phase = .stream) (hm : d.more) : decode d.selector = .ok .dStream := by
  rw [Dec.selector, hp, decide_eq_true hm]; rfl

theorem decode_decSelector_no_more (hp : d.phase = .stream) (hm : ¬ d.more) :
    decode d.selector = .ok .dStreamEnd := by
  rw [Dec.selector, hp, decide_eq_false hm]; rfl

end Selectors

/-! ## The step on an agent's turn -/

section Turns
variable {s : State} {i : Instr}

theorem step_of_encSelector (ht : s.turnNow = some .enc) (hp : s.enc.phase ≠ .idle)
    (hd : decode s.enc.selector = .ok i) : step s = exec i { s with turns := s.turns.pop } :=
  step_of_word ((fetch_of_encTurn ht).trans (fetchEnc_of_busy hp)) hd

theorem step_of_decSelector (ht : s.turnNow = some .dec) (hp : s.dec.phase ≠ .idle)
    (hd : decode s.dec.selector = .ok i) : step s = exec i { s with turns := s.turns.pop } :=
  step_of_word ((fetch_of_decTurn ht).trans (fetchDec_of_busy hp)) hd

end Turns

/-- The command word of ENC is read back as its command (R110). -/
theorem decode_command (h : PacketHeader) : decode (encode (.encode h)) = .ok (.encode h) := by
  simp [decode, encode]

/-- Settles O5: in each phase the selector decodes to the step; in IDLE the queue of commands decides. -/
theorem encPhaseSelectsStep : Obligations.EncPhaseSelectsStep := by
  intro s ht
  refine ⟨fun hp => ?build, fun hp => ?fill, fun hp => ?parity, fun hp => ?emit, fun hp hd hq => ?noCommand,
    fun h hs hp hd hq => ?command⟩
  case build => exact step_of_encSelector ht (by rw [hp]; nofun) (decode_encSelector_build hp)
  case fill => exact step_of_encSelector ht (by rw [hp]; nofun) (decode_encSelector_fill hp)
  case parity => exact step_of_encSelector ht (by rw [hp]; nofun) (decode_encSelector_parity hp)
  case emit => exact step_of_encSelector ht (by rw [hp]; nofun) (decode_encSelector_emit hp)
  case noCommand => exact step_of_noOp ((fetch_of_encTurn ht).trans (fetchEnc_of_no_command hp hd hq))
  case command =>
    exact step_of_word ((fetch_of_encTurn ht).trans (fetchEnc_of_command hp hd hq)) (decode_command h)

/-- Settles O6: in each phase the selector, with the mode and with what is left to deliver, decodes to the step; in IDLE
the waiting commands decide. -/
theorem decPhaseSelectsStep : Obligations.DecPhaseSelectsStep := by
  intro s ht
  refine ⟨fun hp => ?sync, fun hp => ?body, fun hp => ?validate, fun hp hm => ?header, fun hp hm => ?data,
    fun hp hm => ?more, fun hp hm => ?noMore, fun hp hd hq => ?noCommand, fun n hp hd hq => ?command⟩
  case sync => exact step_of_decSelector ht (by rw [hp]; nofun) (decode_decSelector_sync hp)
  case body => exact step_of_decSelector ht (by rw [hp]; nofun) (decode_decSelector_body hp)
  case validate => exact step_of_decSelector ht (by rw [hp]; nofun) (decode_decSelector_validate hp)
  case header => exact step_of_decSelector ht (by rw [hp]; nofun) (decode_decSelector_header hp hm)
  case data => exact step_of_decSelector ht (by rw [hp]; nofun) (decode_decSelector_data hp hm)
  case more => exact step_of_decSelector ht (by rw [hp]; nofun) (decode_decSelector_more hp hm)
  case noMore => exact step_of_decSelector ht (by rw [hp]; nofun) (decode_decSelector_no_more hp hm)
  case noCommand => exact step_of_noOp ((fetch_of_decTurn ht).trans (fetchDec_of_no_command hp hd hq))
  case command => exact step_of_word ((fetch_of_decTurn ht).trans (fetchDec_of_command hp hd hq)) rfl

/-! ## Where an operation stops -/

/-- Settles O7: an operation whose selecting condition fails is refused; the two operations that use an index fault
before that where it points at no byte. -/
theorem unselectedStepsStop : Obligations.UnselectedStepsStop := by
  intro s
  refine ⟨fun h => whenSelected_neg h, fun h => whenSelected_neg h, fun h => whenSelected_neg h, fun h => ?emit,
    fun h => whenSelected_neg h, fun h => ?body, fun h => whenSelected_neg h, fun h => whenSelected_neg h,
    fun h => whenSelected_neg h, fun h => whenSelected_neg h, fun h => whenSelected_neg h,
    fun _ _ h => whenSelected_neg h, fun hp hi => exec_eEmit_of_fault ⟨hp, hi⟩,
    fun hp hi => exec_dBody_of_fault ⟨hp, hi⟩⟩
  case emit => rw [exec_eEmit_of_no_fault fun hf => h hf.1, whenSelected_neg h]
  case body => rw [exec_dBody_of_no_fault fun hf => h hf.1, whenSelected_neg h]

/-! ## Words from outside -/

section OutsideWords
variable {w : OpWord}

theorem fetchLine_of_driven (hw : drivenFromOutside w.sel) (s : State) : fetchLine w s = .word w s := by
  obtain ⟨sel, bs⟩ := w
  cases sel with
  | encPhase | decPhase _ | evt => exact hw.elim
  | encCmd | decCmd | encReset | decReset | wire => rfl

theorem fetchLine_of_not_driven (hw : ¬ drivenFromOutside w.sel) (s : State) : fetchLine w s = .noOp s := by
  obtain ⟨sel, bs⟩ := w
  cases sel with
  | encPhase | decPhase _ | evt => rfl
  | encCmd | decCmd | encReset | decReset | wire => exact absurd trivial hw

theorem noOperation_of_wire (hw : w.sel = .wire) (s : State) : noOperation w s = arrive w.bytes s := by
  simp only [noOperation, hw]

theorem noOperation_of_other_line (hw : w.sel ≠ .wire) (s : State) : noOperation w s = s := by
  unfold noOperation
  split
  · next h => exact absurd h hw
  · rfl

theorem step_of_not_driven {s : State} (ht : s.turnNow = some (.line w)) (hw : ¬ drivenFromOutside w.sel) :
    step s = .next { s with turns := s.turns.pop } :=
  step_of_noOp ((fetch_of_line ht).trans (fetchLine_of_not_driven hw _))

theorem step_of_no_operation_from_outside {s : State} {e : DecodeError} (ht : s.turnNow = some (.line w))
    (hw : drivenFromOutside w.sel) (hd : decode w = .error e) :
    step s = .next (noOperation w { s with turns := s.turns.pop }) :=
  step_of_no_operation ((fetch_of_line ht).trans (fetchLine_of_driven hw _)) hd

theorem step_of_operation_from_outside {s : State} {i : Instr} (ht : s.turnNow = some (.line w))
    (hw : drivenFromOutside w.sel) (hd : decode w = .ok i) : step s = exec i { s with turns := s.turns.pop } :=
  step_of_word ((fetch_of_line ht).trans (fetchLine_of_driven hw _)) hd

end OutsideWords

/-- Settles O60: a word that presents no operation arrives if it stands on the wire; on any other line it does nothing,
whether someone outside drives the line or not. -/
theorem otherWordsSelectNothing : Obligations.OtherWordsSelectNothing := by
  intro s w ht
  refine ⟨fun e hd hw => ?wire, fun e hd hw => ?elsewhere, fun hw => ?control⟩
  case wire =>
    have hdriven : drivenFromOutside w.sel := by rw [hw]; trivial
    rw [step_of_no_operation_from_outside ht hdriven hd, noOperation_of_wire hw]
    rfl
  case elsewhere =>
    by_cases hdriven : drivenFromOutside w.sel
    · rw [step_of_no_operation_from_outside ht hdriven hd, noOperation_of_other_line hw]
    · exact step_of_not_driven ht hdriven
  case control =>
    refine step_of_not_driven ht ?_
    obtain hw | ⟨_, hw⟩ := hw <;> rw [hw] <;> exact id

/-! ## The values at reset -/

/-- Settles O8: each value stands in the reset state as the spec gives it (R40). -/
theorem resetValues : Obligations.ResetValues :=
  ⟨rfl, rfl, rfl, rfl, rfl, rfl, rfl⟩

end Sys2Proof.Machine
end

section
/-! The counter ENC.SEQ and the latched header ENC.HDR (R22, R23, R166): which operations change them. -/

namespace Sys2Proof.Machine

section Registers
variable (c : Config) (s : State)

theorem fillByte_seq_hdr : (fillByte c s).enc.seq = s.enc.seq ∧ (fillByte c s).enc.hdr = s.enc.hdr := by
  obtain ⟨_, _, e⟩ | ⟨_, _, e⟩ | ⟨_, _, _, e⟩ | ⟨_, e⟩ := fillByte_cases c s <;> rw [e] <;> exact ⟨rfl, rfl⟩

theorem emitByte_seq_hdr : (emitByte c s).enc.seq = s.enc.seq ∧ (emitByte c s).enc.hdr = s.enc.hdr := by
  obtain ⟨_, e⟩ | ⟨_, e⟩ | ⟨_, _, e⟩ | ⟨_, _, _, e⟩ | ⟨_, _, _, e⟩ := emitByte_cases c s <;> rw [e] <;>
    exact ⟨rfl, rfl⟩

theorem offerEncode_seq (h : PacketHeader) : (offerEncode h s).enc.seq = s.enc.seq := by
  obtain ⟨_, e⟩ | ⟨_, _, e⟩ | ⟨_, _, _, e⟩ | ⟨_, _, e⟩ := offerEncode_cases h s <;> rw [e] <;> rfl

/-- R23, R160: an accepted command latches its header, whatever its length; one that waits changes nothing. -/
theorem offerEncode_hdr (h : PacketHeader) :
    (offerEncode h s).enc.hdr = s.enc.hdr ∨
      ((offerEncode h s).enc.hdr = h ∧ s.enc.phase = .idle ∧ s.enc.rspDue = false) := by
  obtain ⟨_, e⟩ | ⟨hr, _, e⟩ | ⟨hr, _, _, e⟩ | ⟨hr, _, e⟩ := offerEncode_cases h s <;> rw [e]
  · exact .inl rfl
  · exact .inr ⟨rfl, hr⟩
  · exact .inr ⟨rfl, hr⟩
  · exact .inr ⟨rfl, hr⟩

end Registers

/-- R166: every operation but `E.BUILD` and `ENC.RESET` leaves the counter. -/
theorem exec_seq {i : Instr} {s t : State} (h : exec i s = .next t) (hbuild : i ≠ .eBuild) (hreset : i ≠ .encReset) :
    t.enc.seq = s.enc.seq := by
  cases hi : isEncOp i with
  | false => exact congrArg (fun side => side.enc.seq) (exec_encSide hi h)
  | true =>
    cases i with
    | encode hd =>
      cases h
      exact offerEncode_seq s hd
    | encReset => exact absurd rfl hreset
    | eBuild => exact absurd rfl hbuild
    | eFill =>
      obtain ⟨_, rfl⟩ := execEFill_next h
      exact (fillByte_seq_hdr _ s).1
    | eParity =>
      obtain ⟨_, rfl⟩ := execEParity_next h
      rfl
    | eEmit =>
      obtain ⟨_, _, rfl⟩ := execEEmit_next h
      exact (emitByte_seq_hdr _ s).1
    | _ => cases hi

/-- R23: every operation but `ENC.RESET` leaves the latched header or is the command that is latched. -/
theorem exec_hdr {i : Instr} {s t : State} (h : exec i s = .next t) (hreset : i ≠ .encReset) :
    t.enc.hdr = s.enc.hdr ∨ (i = .encode t.enc.hdr ∧ s.enc.phase = .idle ∧ s.enc.rspDue = false) := by
  cases hi : isEncOp i with
  | false => exact .inl (congrArg (fun side => side.enc.hdr) (exec_encSide hi h))
  | true =>
    cases i with
    | encode hd =>
      cases h
      exact (offerEncode_hdr s hd).imp_right fun ⟨hlatched, hr⟩ => ⟨congrArg _ hlatched.symm, hr⟩
    | encReset => exact absurd rfl hreset
    | eBuild =>
      obtain ⟨_, rfl⟩ := execEBuild_next h
      exact .inl rfl
    | eFill =>
      obtain ⟨_, rfl⟩ := execEFill_next h
      exact .inl (fillByte_seq_hdr _ s).2
    | eParity =>
      obtain ⟨_, rfl⟩ := execEParity_next h
      exact .inl rfl
    | eEmit =>
      obtain ⟨_, _, rfl⟩ := execEEmit_next h
      exact .inl (emitByte_seq_hdr _ s).2
    | _ => cases hi

/-- Settles O36: `E.BUILD` adds one in 16 bits, `ENC.RESET` loads the initial number, and no other operation writes the
counter. -/
theorem sequenceCounterLaw : Obligations.SequenceCounterLaw := by
  intro i s t h
  refine ⟨?build, ?reset, fun hbuild hreset => exec_seq h hbuild hreset⟩
  case build =>
    rintro rfl
    obtain ⟨_, rfl⟩ := execEBuild_next h
    exact BitVec.toNat_add s.enc.seq 1#16
  case reset =>
    rintro rfl
    cases h
    rfl

/-- Settles O37: a changed header was latched by a reset or by the command it belongs to. -/
theorem headerLatch : Obligations.HeaderLatch := by
  intro i s t h hchanged
  by_cases hreset : i = .encReset
  · exact .inl hreset
  · exact .inr ((exec_hdr h hreset).resolve_left hchanged)

end Sys2Proof.Machine
end

section
/-! Alike states take alike steps (R40): the outcome of every operation, and then of every turn. -/

namespace Sys2Proof.Machine

/-- Two outcomes that go on in alike states, or stop with the same reason. -/
inductive AlikeOutcomes : Host.Outcome State Fault Refusal → Host.Outcome State Fault Refusal → Prop where
  | next {t t' : State} (h : alike t t') : AlikeOutcomes (.next t) (.next t')
  | fault (r : Fault) : AlikeOutcomes (.fault r) (.fault r)
  | refused (r : Refusal) : AlikeOutcomes (.refused r) (.refused r)

theorem whenSelected_alike {p p' : Prop} [Decidable p] [Decidable p'] {t t' : State} (hp : p ↔ p')
    (h : p → alike t t') : AlikeOutcomes (whenSelected p t) (whenSelected p' t') := by
  by_cases hsel : p
  · rw [whenSelected_pos hsel, whenSelected_pos (hp.mp hsel)]
    exact .next (h hsel)
  · rw [whenSelected_neg hsel, whenSelected_neg (mt hp.mpr hsel)]
    exact .refused _

/-! ## What alike agents agree on -/

theorem alike.enc {s s' : State} (h : alike s s') : Enc.alike s.enc s'.enc := h.1

theorem alike.dec {s s' : State} (h : alike s s') : Dec.alike s.dec s'.dec := h.2.1

theorem alike.encPhase {s s' : State} (h : alike s s') (p : EncPhase) : s.enc.phase = p ↔ s'.enc.phase = p := by
  obtain ⟨⟨hphase, _⟩, _, _⟩ := h
  rw [hphase]

theorem alike.decPhase {s s' : State} (h : alike s s') (p : DecPhase) : s.dec.phase = p ↔ s'.dec.phase = p := by
  obtain ⟨_, ⟨hphase, _⟩, _⟩ := h
  rw [hphase]

theorem alike.decPhase_mode {s s' : State} (h : alike s s') (p : DecPhase) (m : Mode) :
    s.dec.phase = p ∧ s.dec.mode = m ↔ s'.dec.phase = p ∧ s'.dec.mode = m := by
  obtain ⟨_, ⟨hphase, hmode, _⟩, _⟩ := h
  rw [hphase, hmode]

/-- R205: what is left to deliver is known in STREAM. -/
theorem decAlike_more {d d' : Dec} (h : Dec.alike d d') (hp : d.phase = .stream) : d.more ↔ d'.more := by
  obtain ⟨_, _, _, _, _, _, _, _, _, _, hstream⟩ := h
  obtain ⟨hidx, hrem, _⟩ := hstream hp
  rw [Dec.more, Dec.more, hidx, hrem]

theorem alike.stream_more {s s' : State} (h : alike s s') :
    s.dec.phase = .stream ∧ s.dec.more ↔ s'.dec.phase = .stream ∧ s'.dec.more := by
  rw [← h.decPhase .stream]
  exact and_congr_right (decAlike_more h.dec)

theorem alike.stream_not_more {s s' : State} (h : alike s s') :
    s.dec.phase = .stream ∧ ¬ s.dec.more ↔ s'.dec.phase = .stream ∧ ¬ s'.dec.more := by
  rw [← h.decPhase .stream]
  exact and_congr_right fun hp => not_congr (decAlike_more h.dec hp)

/-- R206 to R208: the event of DEC's next step is made of registers that are written by then. -/
theorem decAlike_eventNow {d d' : Dec} (h : Dec.alike d d') : d.eventNow = d'.eventNow := by
  obtain ⟨hphase, hmode, _, _, _, hrefused, _, _, _, hdispatch, hstream⟩ := id h
  unfold Dec.eventNow
  rw [← hphase]
  cases hp : d.phase with
  | idle | sync | body | validate => rfl
  | dispatch =>
    have hread := readPktHdr_eq_of_sameBelow (sameBelow_mono (by omega) (hdispatch hp))
    simp only [hmode, hread]
  | stream =>
    obtain ⟨_, hrem, hhdr, _⟩ := hstream hp
    simp only [decAlike_more h hp, hrefused, hrem, hhdr]

/-- R25, R63: the index is known where it is used. -/
theorem alike.emit_outside {s s' : State} (h : alike s s') :
    s.enc.phase = .emit ∧ 256 < s.enc.idx.toNat ↔ s'.enc.phase = .emit ∧ 256 < s'.enc.idx.toNat := by
  rw [← h.encPhase .emit]
  obtain ⟨⟨_, _, _, _, _, hbuf, _⟩, _, _⟩ := h
  refine and_congr_right fun hp => ?_
  rw [(hbuf (.inr hp)).1]

theorem alike.body_outside {s s' : State} (h : alike s s') :
    s.dec.phase = .body ∧ 255 < s.dec.idx.toNat ↔ s'.dec.phase = .body ∧ 255 < s'.dec.idx.toNat := by
  rw [← h.decPhase .body]
  obtain ⟨_, ⟨_, _, _, _, _, _, _, hbody, _⟩, _⟩ := h
  refine and_congr_right fun hp => ?_
  rw [(hbody hp).1]

/-! ## Every operation -/

section Exec
variable {s s' : State}

theorem exec_eEmit_alike (h : alike s s') : AlikeOutcomes (exec .eEmit s) (exec .eEmit s') := by
  by_cases hf : s.enc.phase = .emit ∧ 256 < s.enc.idx.toNat
  · have hidx : s.enc.idx = s'.enc.idx := by
      obtain ⟨⟨_, _, _, _, _, hbuf, _⟩, _, _⟩ := h
      exact (hbuf (.inr hf.1)).1
    rw [exec_eEmit_of_fault hf, exec_eEmit_of_fault (h.emit_outside.mp hf), hidx]
    exact .fault _
  · rw [exec_eEmit_of_no_fault hf, exec_eEmit_of_no_fault (mt h.emit_outside.mpr hf)]
    exact whenSelected_alike (h.encPhase .emit) fun hp =>
      emitByte_alike h hp (Nat.not_lt.mp fun hi => hf ⟨hp, hi⟩)

theorem exec_dBody_alike (h : alike s s') : AlikeOutcomes (exec .dBody s) (exec .dBody s') := by
  by_cases hf : s.dec.phase = .body ∧ 255 < s.dec.idx.toNat
  · have hidx : s.dec.idx = s'.dec.idx := by
      obtain ⟨_, ⟨_, _, _, _, _, _, _, hbody, _⟩, _⟩ := h
      exact (hbody hf.1).1
    rw [exec_dBody_of_fault hf, exec_dBody_of_fault (h.body_outside.mp hf), hidx]
    exact .fault _
  · rw [exec_dBody_of_no_fault hf, exec_dBody_of_no_fault (mt h.body_outside.mpr hf)]
    exact whenSelected_alike (h.decPhase .body) fun hp =>
      readBody_alike h hp (Nat.not_lt.mp fun hi => hf ⟨hp, hi⟩)

/-- R40: no operation tells alike states apart. -/
theorem exec_alike (i : Instr) (h : alike s s') : AlikeOutcomes (exec i s) (exec i s') := by
  cases i with
  | encode hdr => exact .next (offerEncode_alike hdr h)
  | decodeStream => exact .next (offerDecode_alike h)
  | encReset => exact .next (resetEnc_alike h)
  | decReset => exact .next (resetDec_alike h)
  | syncPrefix | syncCont | frameHdr _ _ | pktHdr _ _ | frame _ => exact .next (arrive_alike _ h)
  | eBuild => exact whenSelected_alike (h.encPhase .build) (buildFrame_alike h)
  | eFill => exact whenSelected_alike (h.encPhase .fill) (fillByte_alike h)
  | eParity => exact whenSelected_alike (h.encPhase .parity) (addParity_alike h)
  | eEmit => exact exec_eEmit_alike h
  | dSync => exact whenSelected_alike (h.decPhase .sync) (scanByte_alike h)
  | dBody => exact exec_dBody_alike h
  | dValidate => exact whenSelected_alike (h.decPhase .validate) (validate_alike h)
  | dDispatchHdr =>
    exact whenSelected_alike (h.decPhase_mode .dispatch .awaitingHeader) fun ⟨hp, _⟩ => dispatchHdr_alike h hp
  | dDispatchData =>
    exact whenSelected_alike (h.decPhase_mode .dispatch .awaitingData) fun ⟨hp, hm⟩ => dispatchData_alike h hp hm
  | dStream => exact whenSelected_alike h.stream_more fun ⟨hp, hm⟩ => streamByte_alike h hp hm
  | dStreamEnd => exact whenSelected_alike h.stream_not_more fun ⟨hp, _⟩ => streamEnd_alike h hp
  | evtPacket valid hdr =>
    exact whenSelected_alike (by rw [decAlike_eventNow h.dec]) fun _ => makeEvent_alike valid hdr h

end Exec

/-! ## Every step -/

/-- R115: alike agents of DEC at work have the same step selected; the words themselves may differ in the condition
that is of no account outside STREAM. -/
theorem decode_decSelector_alike {d d' : Dec} (h : Dec.alike d d') (hidle : d.phase ≠ .idle) :
    ∃ i, decode d.selector = .ok i ∧ decode d'.selector = .ok i := by
  obtain ⟨hphase, hmode, _⟩ := id h
  cases hp : d.phase with
  | idle => exact absurd hp hidle
  | sync => exact ⟨_, decode_decSelector_sync hp, decode_decSelector_sync (hphase ▸ hp)⟩
  | body => exact ⟨_, decode_decSelector_body hp, decode_decSelector_body (hphase ▸ hp)⟩
  | validate => exact ⟨_, decode_decSelector_validate hp, decode_decSelector_validate (hphase ▸ hp)⟩
  | dispatch =>
    cases hm : d.mode with
    | awaitingHeader =>
      exact ⟨_, decode_decSelector_header hp hm, decode_decSelector_header (hphase ▸ hp) (hmode ▸ hm)⟩
    | awaitingData =>
      exact ⟨_, decode_decSelector_data hp hm, decode_decSelector_data (hphase ▸ hp) (hmode ▸ hm)⟩
  | stream =>
    by_cases hm : d.more
    · exact ⟨_, decode_decSelector_more hp hm, decode_decSelector_more (hphase ▸ hp) ((decAlike_more h hp).mp hm)⟩
    · exact ⟨_, decode_decSelector_no_more hp hm,
        decode_decSelector_no_more (hphase ▸ hp) (mt (decAlike_more h hp).mpr hm)⟩

theorem decode_encSelector_alike {e e' : Enc} (h : Enc.alike e e') (hidle : e.phase ≠ .idle) :
    ∃ i, decode e.selector = .ok i ∧ decode e'.selector = .ok i := by
  obtain ⟨hphase, _⟩ := id h
  cases hp : e.phase with
  | idle => exact absurd hp hidle
  | build => exact ⟨_, decode_encSelector_build hp, decode_encSelector_build (hphase ▸ hp)⟩
  | fill => exact ⟨_, decode_encSelector_fill hp, decode_encSelector_fill (hphase ▸ hp)⟩
  | parity => exact ⟨_, decode_encSelector_parity hp, decode_encSelector_parity (hphase ▸ hp)⟩
  | emit => exact ⟨_, decode_encSelector_emit hp, decode_encSelector_emit (hphase ▸ hp)⟩

theorem noOperation_alike (w : OpWord) {s s' : State} (h : alike s s') :
    alike (noOperation w s) (noOperation w s') := by
  by_cases hw : w.sel = .wire
  · rw [noOperation_of_wire hw, noOperation_of_wire hw]
    exact arrive_alike _ h
  · rw [noOperation_of_other_line hw, noOperation_of_other_line hw]
    exact h

/-! Alike states have the same channels and turns, and stay alike as these go on. -/

section Fetch
variable {s s' : State}

theorem alike.turnNow (h : alike s s') : s'.turnNow = s.turnNow := by
  obtain ⟨e, d, rfl, _, _⟩ := alike_iff_exists.mp h
  rfl

theorem alike.encCmd (h : alike s s') : s'.encCmd = s.encCmd := by
  obtain ⟨e, d, rfl, _, _⟩ := alike_iff_exists.mp h
  rfl

theorem alike.decCmd (h : alike s s') : s'.decCmd = s.decCmd := by
  obtain ⟨e, d, rfl, _, _⟩ := alike_iff_exists.mp h
  rfl

/-- The turn passes in both. -/
theorem alike.turned (h : alike s s') : alike { s with turns := s.turns.pop } { s' with turns := s'.turns.pop } := by
  obtain ⟨e, d, rfl, he, hd⟩ := alike_iff_exists.mp h
  exact ⟨he, hd, rfl⟩

/-- The turn passes in both, and the same commands are left on `ENC.CMD`. -/
theorem alike.encTaken (h : alike s s') (cmds : List PacketHeader) :
    alike { s with turns := s.turns.pop, encCmd := cmds } { s' with turns := s'.turns.pop, encCmd := cmds } := by
  obtain ⟨e, d, rfl, he, hd⟩ := alike_iff_exists.mp h
  exact ⟨he, hd, rfl⟩

/-- The turn passes in both, and equally many commands are left on `DEC.CMD`. -/
theorem alike.decTaken (h : alike s s') (n : Nat) :
    alike { s with turns := s.turns.pop, decCmd := n } { s' with turns := s'.turns.pop, decCmd := n } := by
  obtain ⟨e, d, rfl, he, hd⟩ := alike_iff_exists.mp h
  exact ⟨he, hd, rfl⟩

end Fetch

section Step
variable {s s' : State}

theorem step_alike_of_encTurn (h : alike s s') (ht : s.turnNow = some .enc) : AlikeOutcomes (step s) (step s') := by
  have ht' := h.turnNow.trans ht
  obtain ⟨_, _, _, hdue, _⟩ := h.enc
  by_cases hp : s.enc.phase = .idle
  · have hp' := (h.encPhase .idle).mp hp
    cases hd : s.enc.rspDue with
    | true =>
      rw [step_of_enc_due ht hp hd, step_of_enc_due ht' hp' (hdue.symm.trans hd)]
      exact .next (respondEnc_alike h.turned hp)
    | false =>
      have hd' := hdue.symm.trans hd
      obtain ⟨_, _, _, _, hnone, hcommand⟩ := encPhaseSelectsStep s ht
      obtain ⟨_, _, _, _, hnone', hcommand'⟩ := encPhaseSelectsStep s' ht'
      cases hq : s.encCmd with
      | nil =>
        rw [hnone hp hd hq, hnone' hp' hd' (h.encCmd.trans hq)]
        exact .next h.turned
      | cons hdr hs =>
        rw [hcommand hdr hs hp hd hq, hcommand' hdr hs hp' hd' (h.encCmd.trans hq)]
        exact exec_alike _ (h.encTaken hs)
  · obtain ⟨i, hi, hi'⟩ := decode_encSelector_alike h.enc hp
    rw [step_of_encSelector ht hp hi, step_of_encSelector ht' (mt (h.encPhase .idle).mpr hp) hi']
    exact exec_alike i h.turned

theorem step_alike_of_decTurn (h : alike s s') (ht : s.turnNow = some .dec) : AlikeOutcomes (step s) (step s') := by
  have ht' := h.turnNow.trans ht
  obtain ⟨_, _, _, _, hdue, _⟩ := h.dec
  by_cases hp : s.dec.phase = .idle
  · have hp' := (h.decPhase .idle).mp hp
    cases hd : s.dec.rspDue with
    | true =>
      rw [step_of_dec_due ht hp hd, step_of_dec_due ht' hp' (hdue.symm.trans hd)]
      exact .next (respondDec_alike h.turned hp)
    | false =>
      have hd' := hdue.symm.trans hd
      obtain ⟨_, _, _, _, _, _, _, hnone, hcommand⟩ := decPhaseSelectsStep s ht
      obtain ⟨_, _, _, _, _, _, _, hnone', hcommand'⟩ := decPhaseSelectsStep s' ht'
      cases hq : s.decCmd with
      | zero =>
        rw [hnone hp hd hq, hnone' hp' hd' (h.decCmd.trans hq)]
        exact .next h.turned
      | succ n =>
        rw [hcommand n hp hd hq, hcommand' n hp' hd' (h.decCmd.trans hq)]
        exact exec_alike _ (h.decTaken n)
  · obtain ⟨i, hi, hi'⟩ := decode_decSelector_alike h.dec hp
    rw [step_of_decSelector ht hp hi, step_of_decSelector ht' (mt (h.decPhase .idle).mpr hp) hi']
    exact exec_alike i h.turned

theorem step_alike_of_line {w : OpWord} (h : alike s s') (ht : s.turnNow = some (.line w)) :
    AlikeOutcomes (step s) (step s') := by
  have ht' := h.turnNow.trans ht
  by_cases hw : drivenFromOutside w.sel
  · cases hd : decode w with
    | error err =>
      rw [step_of_no_operation_from_outside ht hw hd, step_of_no_operation_from_outside ht' hw hd]
      exact .next (noOperation_alike w h.turned)
    | ok i =>
      rw [step_of_operation_from_outside ht hw hd, step_of_operation_from_outside ht' hw hd]
      exact exec_alike i h.turned
  · rw [step_of_not_driven ht hw, step_of_not_driven ht' hw]
    exact .next h.turned

end Step

/-- R40, R75: the turn is the same in alike states, and whoever's it is, the step does not tell them apart. -/
theorem step_alike {s s' : State} (h : alike s s') : AlikeOutcomes (step s) (step s') := by
  rcases ht : s.turnNow with _ | _ | _ | w
  · rw [step_of_noOp (fetch_of_nobody ht), step_of_noOp (fetch_of_nobody (h.turnNow.trans ht))]
    exact .next h.turned
  · exact step_alike_of_encTurn h ht
  · exact step_alike_of_decTurn h ht
  · exact step_alike_of_line h ht

/-- Alike outcomes, taken apart by what they are. -/
theorem AlikeOutcomes.cases {x y : Host.Outcome State Fault Refusal} (h : AlikeOutcomes x y) :
    (∃ t t', x = .next t ∧ y = .next t' ∧ alike t t') ∨
    (∃ r, x = .fault r ∧ y = .fault r) ∨
    (∃ r, x = .refused r ∧ y = .refused r) := by
  cases h with
  | next h => exact .inl ⟨_, _, rfl, rfl, h⟩
  | fault r => exact .inr (.inl ⟨r, rfl, rfl⟩)
  | refused r => exact .inr (.inr ⟨r, rfl, rfl⟩)

/-- Settles O34: what every operation keeps, and the selection of the step by registers that agree, give it for the
step. -/
theorem unspecifiedRegistersUnread : Obligations.UnspecifiedRegistersUnread :=
  fun _ _ h => (step_alike h).cases

end Sys2Proof.Machine
end

section
/-! Words, commands, waits and arrivals: the operation a step runs (R74, R77), what the two commands do (R160, R200),
what a wait leaves (R73), what a wire pattern brings (R101 to R103), and where an event is made (R206 to R208). -/

namespace Sys2Proof.Machine

/-- Settles O4: the step runs what the fetched word decodes to, and the fetch leaves all but the turns and the waiting
commands. -/
theorem stepRunsDecodedOperation : Obligations.StepRunsDecodedOperation :=
  fun _ _ _ _ hf hd => ⟨step_of_word hf hd, fetch_word hf⟩

/-! ## The commands -/

section Commands
variable {h : PacketHeader} {s : State}

/-- A command that ends where it was accepted leaves ENC in IDLE. -/
theorem endCommand_of_idle (st : EncStatus) (n : Half) (hp : s.enc.phase = .idle) :
    endCommand st n s = { s with enc := { s.enc with res := ⟨st, n⟩, rspDue := true } } :=
  congrArg (fun p => { s with enc := { s.enc with res := ⟨st, n⟩, phase := p, rspDue := true } }) hp.symm

theorem acceptEncode_of_zero (h0 : h.len.toNat = 0) :
    acceptEncode h s = endCommand .ok 0 { s with enc := { s.enc with hdr := h } } :=
  if_pos h0

theorem acceptEncode_of_refused (h1 : 1 ≤ h.len.toNat) (h13 : h.len.toNat ≤ 13) :
    acceptEncode h s = endCommand .errLen 0 { s with enc := { s.enc with hdr := h } } := by
  rw [acceptEncode, if_neg (by omega), if_pos (by omega)]
  rfl

theorem acceptEncode_of_legal (h14 : 14 ≤ h.len.toNat) :
    acceptEncode h s =
      { s with
        enc := { s.enc with
          hdr := h, res := ⟨.none, 0⟩, todo := payloadCount h.len, first := true, count := 0, phase := .build } } := by
  rw [acceptEncode, if_neg (by omega), if_neg (by omega)]

/-- R160: an idle ENC with no response to make accepts the command. -/
theorem exec_encode_of_ready (hp : s.enc.phase = .idle) (hd : s.enc.rspDue = false) :
    exec (.encode h) s = .next (acceptEncode h s) :=
  congrArg Host.Outcome.next (offerEncode_of_ready ⟨hp, hd⟩)

end Commands

/-- Settles O9: an idle ENC with no response to make accepts the command, by its length; otherwise it waits. -/
theorem encodeCommand : Obligations.EncodeCommand := by
  intro h s
  refine ⟨fun hp hd h0 => ?zero, fun hp hd h1 h13 => ?refused, fun hp hd h14 => ⟨payloadCount h.len, ?todo, ?legal⟩,
    fun hbusy => ?waits⟩
  case zero =>
    rw [exec_encode_of_ready hp hd, acceptEncode_of_zero h0]
    exact congrArg Host.Outcome.next (endCommand_of_idle .ok 0 hp)
  case refused =>
    rw [exec_encode_of_ready hp hd, acceptEncode_of_refused h1 h13]
    exact congrArg Host.Outcome.next (endCommand_of_idle .errLen 0 hp)
  case todo => exact payloadCount_toNat h14
  case legal => rw [exec_encode_of_ready hp hd, acceptEncode_of_legal h14]
  case waits =>
    refine congrArg Host.Outcome.next (offerEncode_of_busy ?_)
    rintro ⟨hp, hd⟩
    exact hbusy.elim (· hp) (by rw [hd]; nofun)

/-- Settles O10: an idle DEC with no response to make starts the session; otherwise the command waits. -/
theorem decodeStreamCommand : Obligations.DecodeStreamCommand := by
  intro s
  refine ⟨fun hp hd => congrArg Host.Outcome.next (offerDecode_of_ready ⟨hp, hd⟩), fun hbusy => ?_⟩
  refine congrArg Host.Outcome.next (offerDecode_of_busy ?_)
  rintro ⟨hp, hd⟩
  exact hbusy.elim (· hp) (by rw [hd]; nofun)

/-! ## When DEC's other steps are selected -/

section Selected
variable {s : State}

theorem exec_dDispatchHdr_of_header (hp : s.dec.phase = .dispatch) (hm : s.dec.mode = .awaitingHeader) :
    exec .dDispatchHdr s = .next (dispatchHdr Config.given s) :=
  whenSelected_pos ⟨hp, hm⟩

theorem exec_dStreamEnd_of_no_more (hp : s.dec.phase = .stream) (hm : ¬ s.dec.more) :
    exec .dStreamEnd s = .next (streamEnd Config.given s) :=
  whenSelected_pos ⟨hp, hm⟩

theorem exec_evtPacket_of_eventNow {valid : Bool} {h : PacketHeader} (he : s.dec.eventNow = some ⟨h, valid⟩) :
    exec (.evtPacket valid h) s = .next (makeEvent Config.given valid h s) :=
  whenSelected_pos he

/-- R73: a channel of moments alone is ready or answers nothing. -/
theorem peek_eq_none_of_not_ready {draw : Nat → Option Unit} {ch : Channel Unit} (h : ¬ ch.peek draw = some ()) :
    ch.peek draw = none :=
  Option.eq_none_iff_forall_ne_some.mpr fun _ => h

end Selected

/-- Settles O24: in each place the wait is the case of the operation in which its channel answers nothing. -/
theorem waitingChangesNothing : Obligations.WaitingChangesNothing := by
  intro s
  refine ⟨fun hp hi ht hs => ?fill, fun hp hi ht => ?emit, fun hp hr => ?sync, fun hp hi hr => ?body,
    fun hp hm hl he => ?header, fun hp hi hrem hr hs => ?stream, fun hp hi hrem hr he => ?refused,
    fun hp h0 he => ?streamEnd, fun valid h hnow he => ?event⟩
  case fill => rw [exec_eFill_of_fill hp, fillByte_of_wait ⟨hi, ht⟩ hs]
  case emit => rw [exec_eEmit_of_emit hp hi, emitByte_of_wait ht]
  case sync => rw [exec_dSync_of_sync hp, scanByte_of_wait hr]
  case body => rw [exec_dBody_of_body hp hi, readBody_of_wait hr]
  case header =>
    have hlen : (readPktHdr s.dec.fbuf).len.toNat < 14 := (of16_toNat _ _).trans_lt hl
    rw [exec_dDispatchHdr_of_header hp hm, dispatchHdr_of_wait hlen (peek_eq_none_of_not_ready he)]
  case stream => rw [exec_dStream_of_more hp ⟨hi, hrem⟩, streamByte_of_wait hr hs]
  case refused =>
    rw [exec_dStream_of_more hp ⟨hi, hrem⟩, streamByte_of_event_wait hr (peek_eq_none_of_not_ready he)]
  case streamEnd =>
    have hm : ¬ s.dec.more := fun hm => hm.2.ne' h0
    rw [exec_dStreamEnd_of_no_more hp hm, streamEnd_of_wait h0 (peek_eq_none_of_not_ready he)]
  case event => rw [exec_evtPacket_of_eventNow hnow, makeEvent_of_wait (peek_eq_none_of_not_ready he)]

/-- Settles O25: each pattern's bytes arrive; the fields of the headers stand written out in them. -/
theorem wirePatternsArrive : Obligations.WirePatternsArrive := by
  intro s v n h f
  refine ⟨rfl, rfl, rfl, rfl, ?_⟩
  have hbytes : (frameBytes f).map some =
      [some 0xAA#8, some 0x5A#8, some f.version, some (f.seq.extractLsb' 8 8), some (f.seq.extractLsb' 0 8)] ++
        f.data.map some ++ f.parity.map some := by
    simp only [frameBytes, List.map_append, List.map_cons]
    rfl
  rw [← hbytes]
  rfl

/-! ## The event -/

section EventNow
variable {d : Dec}

theorem eventNow_of_done (hp : d.phase = .stream) (hm : ¬ d.more) (h0 : d.rem.toNat = 0) :
    d.eventNow = some ⟨d.hdr, true⟩ := by
  rw [Dec.eventNow, hp]
  exact (if_neg hm).trans (if_pos h0)

theorem eventNow_of_refused (hp : d.phase = .stream) (hm : d.more) (hr : d.refused = true) :
    d.eventNow = some ⟨d.hdr, false⟩ := by
  rw [Dec.eventNow, hp]
  exact (if_pos hm).trans (if_pos hr)

theorem eventNow_of_bad_length (hp : d.phase = .dispatch) (hm : d.mode = .awaitingHeader)
    (hl : (readPktHdr d.fbuf).len.toNat < 14) : d.eventNow = some ⟨readPktHdr d.fbuf, false⟩ := by
  rw [Dec.eventNow, hp]
  exact if_pos ⟨hm, hl⟩

end EventNow

/-- R71: with EVT ready, the event that DEC's step makes is made and the packet is closed. -/
theorem exec_evtPacket_of_ready {valid : Bool} {h : PacketHeader} {s : State}
    (hnow : s.dec.eventNow = some ⟨h, valid⟩) (he : s.evtReady) :
    exec (.evtPacket valid h) s = .next (closePacket valid { s with dec := { s.dec with hdr := h } }) := by
  rw [exec_evtPacket_of_eventNow hnow, makeEvent_of_ready he]

/-- Settles O26: in the three places DEC's step makes this event; a word from outside on EVT is on a line that no one
outside drives. -/
theorem eventIsATransactionOfDec : Obligations.EventIsATransactionOfDec := by
  intro s h
  refine ⟨fun hp hm h0 hh he => ?done, fun hp hi hrem hr hh he => ?refused, fun hp hm hh hl he => ?badLength,
    fun w ht hw => ?outside⟩
  case done =>
    subst hh
    exact exec_evtPacket_of_ready (eventNow_of_done hp hm h0) he
  case refused =>
    subst hh
    exact exec_evtPacket_of_ready (eventNow_of_refused hp ⟨hi, hrem⟩ hr) he
  case badLength =>
    subst hh
    exact exec_evtPacket_of_ready (eventNow_of_bad_length hp hm hl) he
  case outside => exact step_of_not_driven ht (by rw [hw]; exact id)

end Sys2Proof.Machine
end

section
/-! The bytes of a frame buffer (R60, R62, R63, R65): byte strings written and read back, fields in their byte order,
and the canonical form as a normal form: what a buffer reads as determines its data. -/

namespace Sys2Proof.Machine

/-! ## Byte strings -/

/-- Two byte strings written one behind the other are one byte string written. -/
theorem Memory.writeBytes_append (m : Memory) (a : Nat) (bs cs : List Byte) :
    Memory.writeBytes m a (bs ++ cs) = Memory.writeBytes (Memory.writeBytes m a bs) (a + bs.length) cs := by
  induction bs generalizing m a with
  | nil => rfl
  | cons b bs ih =>
    rw [List.cons_append, Memory.writeBytes, ih, Memory.writeBytes, List.length_cons, Nat.add_assoc, Nat.add_comm 1]

/-- A byte string that every index of its length reads is what is read there. -/
theorem Memory.readBytes_eq {m : Memory} {a : Nat} {bs : List Byte}
    (h : ∀ k (hk : k < bs.length), Memory.read m (a + k) = bs[k]) : Memory.readBytes m a bs.length = bs :=
  List.ext_getElem (by simp [Memory.readBytes]) fun k _ hk => by simpa [Memory.readBytes] using h k hk

/-- A byte string written is read back. -/
theorem Memory.readBytes_writeBytes (m : Memory) (a : Nat) (bs : List Byte) :
    Memory.readBytes (Memory.writeBytes m a bs) a bs.length = bs :=
  Memory.readBytes_eq fun k hk => Memory.read_writeBytes_inside m a k bs hk

/-! ## Fields (R62, R107) -/

theorem Memory.read_write16 (m : Memory) (a k : Nat) (v : Half) (hk : k < (be16 v).length) :
    Memory.read (Memory.write16 m a v) (a + k) = (be16 v)[k] :=
  Memory.read_writeBytes_inside m a k (be16 v) hk

theorem Memory.read_write32 (m : Memory) (a k : Nat) (q : Quad) (hk : k < (be32 q).length) :
    Memory.read (Memory.write32 m a q) (a + k) = (be32 q)[k] :=
  Memory.read_writeBytes_inside m a k (be32 q) hk

theorem Memory.read16_write16 (m : Memory) (a : Nat) (v : Half) : Memory.read16 (Memory.write16 m a v) a = v := by
  have h0 := Memory.read_write16 m a 0 v (by simp)
  have h1 := Memory.read_write16 m a 1 v (by simp)
  exact (congrArg₂ of16 h0 h1).trans (of16_be16 v)

theorem Memory.read32_write32 (m : Memory) (a : Nat) (q : Quad) : Memory.read32 (Memory.write32 m a q) a = q := by
  have h0 : Memory.read (Memory.write32 m a q) a = _ := Memory.read_write32 m a 0 q (by simp)
  have h1 := Memory.read_write32 m a 1 q (by simp)
  have h2 := Memory.read_write32 m a 2 q (by simp)
  have h3 := Memory.read_write32 m a 3 q (by simp)
  rw [Memory.read32, h0, h1, h2, h3]
  exact of32_be32 q

/-- R62: the byte of a 32-bit field at a place counted from the most significant one. -/
theorem be32_getElem (q : Quad) {k : Nat} (hk : k < (be32 q).length) : (be32 q)[k] = q.extractLsb' (8 * (3 - k)) 8 := by
  match k, hk with
  | 0, _ | 1, _ | 2, _ | 3, _ => rfl

/-- Settles O54: a field is the byte string of its order written at the offset, and its reading puts the bytes together
again. -/
theorem bigEndianFields : Obligations.BigEndianFields := by
  intro m a v q
  refine ⟨Memory.read_write16 m a 0 v (by simp), Memory.read_write16 m a 1 v (by simp), fun x hx => ?_,
    Memory.read16_write16 m a v, of16_toNat _ _, fun k hk => ?_, fun x hx => ?_, Memory.read32_write32 m a q⟩
  · exact Memory.read_writeBytes_outside m a x (be16 v) hx
  · exact (Memory.read_write32 m a k q hk).trans (be32_getElem q hk)
  · exact Memory.read_writeBytes_outside m a x (be32 q) hx

/-! ## The canonical form (R65) -/

/-- No byte below the rising indices is listed. -/
theorem Memory.read_below_rising {lo a : Nat} {m : Memory} (h : Memory.rising lo m = true) (ha : a < lo) :
    Memory.read m a = Memory.blank := by
  induction m generalizing lo with
  | nil => rfl
  | cons cell m ih =>
    obtain ⟨x, b⟩ := cell
    simp only [Memory.rising, Bool.and_eq_true, decide_eq_true_eq] at h
    obtain ⟨hlo, hrising⟩ := h
    rw [Memory.read, if_neg (by omega)]
    exact ih hrising (by omega)

/-- No byte that is not listed reads as anything but the blank. -/
theorem Memory.read_unlisted {a : Nat} {m : Memory} (h : ∀ cell ∈ m, cell.1 ≠ a) : Memory.read m a = Memory.blank := by
  induction m with
  | nil => rfl
  | cons cell m ih =>
    obtain ⟨x, b⟩ := cell
    rw [Memory.read, if_neg (h (x, b) List.mem_cons_self)]
    exact ih fun cell hc => h cell (List.mem_cons_of_mem _ hc)

/-- A buffer whose indices rise and that lists no blank is determined by what it reads as: at the least index where two
of them list anything, both list the same byte. -/
theorem Memory.eq_of_rising_of_read_eq {lo : Nat} {m m' : Memory} (hm : Memory.rising lo m = true)
    (hm' : Memory.rising lo m' = true) (hb : ∀ cell ∈ m, cell.2 ≠ Memory.blank)
    (hb' : ∀ cell ∈ m', cell.2 ≠ Memory.blank) (h : ∀ a, Memory.read m a = Memory.read m' a) : m = m' := by
  induction m generalizing lo m' with
  | nil =>
    cases m' with
    | nil => rfl
    | cons cell' m' =>
      obtain ⟨y, d⟩ := cell'
      have hy : Memory.blank = d := (h y).trans (if_pos rfl)
      exact absurd hy.symm (hb' (y, d) List.mem_cons_self)
  | cons cell m ih =>
    obtain ⟨x, b⟩ := cell
    have hx : b = Memory.read m' x := (if_pos rfl).symm.trans (h x)
    have hbx : b ≠ Memory.blank := hb (x, b) List.mem_cons_self
    cases m' with
    | nil => exact absurd hx hbx
    | cons cell' m' =>
      obtain ⟨y, d⟩ := cell'
      have hy : Memory.read ((x, b) :: m) y = d := (h y).trans (if_pos rfl)
      have hby : d ≠ Memory.blank := hb' (y, d) List.mem_cons_self
      simp only [Memory.rising, Bool.and_eq_true, decide_eq_true_eq] at hm hm'
      obtain ⟨_, hrising⟩ := hm
      obtain ⟨_, hrising'⟩ := hm'
      obtain hlt | rfl | hgt := Nat.lt_trichotomy x y
      · rw [Memory.read, if_neg hlt.ne', Memory.read_below_rising hrising' (by omega)] at hx
        exact absurd hx hbx
      · rw [Memory.read, if_pos rfl] at hx
        have htail : m = m' := by
          refine ih hrising hrising' (fun c hc => hb c (List.mem_cons_of_mem _ hc))
            (fun c hc => hb' c (List.mem_cons_of_mem _ hc)) fun a => ?_
          by_cases ha : x = a
          · rw [Memory.read_below_rising hrising (by omega), Memory.read_below_rising hrising' (by omega)]
          · simpa [Memory.read, ha] using h a
        rw [hx, htail]
      · rw [Memory.read, if_neg hgt.ne', Memory.read_below_rising hrising (by omega)] at hy
        exact absurd hy.symm hby

/-- Settles O55: no byte stands behind index 255 in canonical form, so two such buffers read the same everywhere. -/
theorem canonicalBuffersAreEqual : Obligations.CanonicalBuffersAreEqual := by
  intro m m' hm hm' h
  simp only [Memory.wf, Bool.and_eq_true, List.all_eq_true, decide_eq_true_eq] at hm hm'
  obtain ⟨hrising, hcells⟩ := hm
  obtain ⟨hrising', hcells'⟩ := hm'
  refine Memory.eq_of_rising_of_read_eq hrising hrising' (fun c hc => (hcells c hc).2) (fun c hc => (hcells' c hc).2)
    fun a => ?_
  by_cases ha : a < 256
  · exact h a ha
  · rw [Memory.read_unlisted fun c hc => Nat.ne_of_lt (Nat.lt_of_lt_of_le (hcells c hc).1 (Nat.not_lt.mp ha)),
      Memory.read_unlisted fun c hc => Nat.ne_of_lt (Nat.lt_of_lt_of_le (hcells' c hc).1 (Nat.not_lt.mp ha))]

end Sys2Proof.Machine
end

section
/-! What is transferred and where an event is made (R64, R71, R168, R206 to R210, R280, R310). One inversion lemma says
what an operation of DEC hands to the sink or the host; what a step hands over, and on whose turn, follows from it. -/

namespace Sys2Proof.Machine

/-! ## What an operation of ENC transfers -/

section Wire
variable (c : Config) (s : State)

theorem offerEncode_wire (h : PacketHeader) : (offerEncode h s).wire = s.wire := by
  obtain ⟨_, e⟩ | ⟨_, _, e⟩ | ⟨_, _, _, e⟩ | ⟨_, _, e⟩ := offerEncode_cases h s <;> rw [e] <;> rfl

theorem fillByte_wire : (fillByte c s).wire = s.wire := by
  obtain ⟨_, _, e⟩ | ⟨_, _, e⟩ | ⟨_, _, _, e⟩ | ⟨_, e⟩ := fillByte_cases c s <;> rw [e]
  exact endCommand_wire _ _ _

/-- R164: `E.EMIT` puts one byte behind those on the wire, or none. -/
theorem emitByte_wire : s.wire <+: (emitByte c s).wire := by
  obtain ⟨_, e⟩ | ⟨_, e⟩ | ⟨_, _, e⟩ | ⟨_, _, _, e⟩ | ⟨_, _, _, e⟩ := emitByte_cases c s
  · rw [e]
  · rw [e, endCommand_wire]
  all_goals
    rw [e]
    exact List.prefix_append _ _

end Wire

/-- R168, R310: no operation takes a byte off the wire. -/
theorem exec_wire {i : Instr} {s t : State} (h : exec i s = .next t) : s.wire <+: t.wire := by
  cases hi : isEncOp i with
  | false =>
    have hwire : t.wire = s.wire := congrArg EncSide.wire (exec_encSide hi h)
    rw [hwire]
  | true =>
    cases i with
    | encode hd =>
      cases h
      rw [offerEncode_wire]
    | encReset =>
      cases h
      exact List.prefix_rfl
    | eBuild =>
      obtain ⟨_, rfl⟩ := execEBuild_next h
      exact List.prefix_rfl
    | eFill =>
      obtain ⟨_, rfl⟩ := execEFill_next h
      rw [fillByte_wire]
    | eParity =>
      obtain ⟨_, rfl⟩ := execEParity_next h
      exact List.prefix_rfl
    | eEmit =>
      obtain ⟨_, _, rfl⟩ := execEEmit_next h
      exact emitByte_wire _ s
    | _ => cases hi

/-! ## What an operation of DEC transfers -/

/-- R206 to R208: the three places where an event is made, by the step of DEC that stands there or by the event word
that is that step's transaction, with the bit and the header that each gives the event. -/
def EventPlace (i : Instr) (s t : State) (valid : Bool) : Prop :=
  (valid = true ∧ (i = .dStreamEnd ∨ i = .evtPacket true s.dec.hdr) ∧ s.dec.phase = .stream ∧
      s.dec.rem.toNat = 0 ∧ t.dec.hdr = s.dec.hdr) ∨
    (valid = false ∧ (i = .dStream ∨ i = .evtPacket false s.dec.hdr) ∧ s.dec.phase = .stream ∧
      s.dec.refused = true ∧ 0 < s.dec.rem.toNat ∧ t.dec.hdr = s.dec.hdr) ∨
    (valid = false ∧ (i = .dDispatchHdr ∨ i = .evtPacket false t.dec.hdr) ∧ s.dec.phase = .dispatch ∧
      s.dec.mode = .awaitingHeader ∧ t.dec.hdr = readPktHdr s.dec.fbuf ∧ t.dec.hdr.len.toNat < 14)

/-- What an operation hands to the sink and to the host: nothing, one byte, or one event that closes its packet (R7). -/
inductive DecTransfer (i : Instr) (s t : State) : Prop where
  | nothing (hsunk : t.sunk = s.sunk) (hevents : t.events = s.events) (hrsps : t.decRsps = s.decRsps)
  | byte (b : Byte) (hsunk : t.sunk = s.sunk ++ [b]) (hevents : t.events = s.events) (hrsps : t.decRsps = s.decRsps)
  | event (valid : Bool) (hplace : EventPlace i s t valid) (u : State) (ht : t = closePacket valid u)
      (hsunk : u.sunk = s.sunk) (hevents : u.events = s.events) (hrsps : u.decRsps = s.decRsps)

section Transfers
variable (c : Config) {s : State}

theorem decTransfer_offerDecode (s : State) : DecTransfer .decodeStream s (offerDecode s) := by
  obtain ⟨_, e⟩ | ⟨_, e⟩ := offerDecode_cases s <;> (rw [e]; exact .nothing rfl rfl rfl)

theorem decTransfer_scanByte (s : State) : DecTransfer .dSync s (scanByte c s) := by
  obtain ⟨_, e⟩ | ⟨_, e⟩ | ⟨_, _, _, e⟩ | ⟨_, _, _, _, e⟩ := scanByte_cases c s <;> rw [e] <;>
    exact .nothing rfl rfl rfl

theorem decTransfer_readBody (s : State) : DecTransfer .dBody s (readBody c s) := by
  obtain ⟨_, e⟩ | ⟨_, e⟩ | ⟨_, _, e⟩ := readBody_cases c s <;> rw [e] <;> exact .nothing rfl rfl rfl

theorem decTransfer_validate (s : State) : DecTransfer .dValidate s (validate c s) := by
  obtain ⟨_, e⟩ | ⟨_, _, _, e⟩ | ⟨_, _, _, e⟩ := validate_cases c s <;> rw [e] <;> exact .nothing rfl rfl rfl

theorem decTransfer_dispatchHdr (hp : s.dec.phase = .dispatch) (hm : s.dec.mode = .awaitingHeader) :
    DecTransfer .dDispatchHdr s (dispatchHdr c s) := by
  obtain ⟨_, _, e⟩ | ⟨hl, _, e⟩ | ⟨_, e⟩ := dispatchHdr_cases c s <;> rw [e]
  · exact .nothing rfl rfl rfl
  · exact .event false (.inr (.inr ⟨rfl, .inl rfl, hp, hm, rfl, hl⟩)) _ rfl rfl rfl rfl
  · exact .nothing rfl rfl rfl

theorem decTransfer_streamByte (hp : s.dec.phase = .stream) (hm : s.dec.more) :
    DecTransfer .dStream s (streamByte c s) := by
  obtain ⟨_, _, e⟩ | ⟨hr, _, e⟩ | ⟨_, _, e⟩ | ⟨_, _, e⟩ | ⟨_, _, e⟩ := streamByte_cases c s <;> rw [e]
  · exact .nothing rfl rfl rfl
  · exact .event false (.inr (.inl ⟨rfl, .inl rfl, hp, hr, hm.2, rfl⟩)) s rfl rfl rfl rfl
  · exact .nothing rfl rfl rfl
  · exact .nothing rfl rfl rfl
  · exact .byte _ rfl rfl rfl

theorem decTransfer_streamEnd (hp : s.dec.phase = .stream) : DecTransfer .dStreamEnd s (streamEnd c s) := by
  obtain ⟨_, _, e⟩ | ⟨h0, _, e⟩ | ⟨_, e⟩ := streamEnd_cases c s <;> rw [e]
  · exact .nothing rfl rfl rfl
  · exact .event true (.inl ⟨rfl, .inl rfl, hp, h0, rfl⟩) s rfl rfl rfl rfl
  · exact .nothing rfl rfl rfl

/-- R71: the event word makes its event in the place where DEC's step makes it. -/
theorem eventPlace_of_eventNow {valid : Bool} {h : PacketHeader} {t : State} (hnow : s.dec.eventNow = some ⟨h, valid⟩)
    (hhdr : t.dec.hdr = h) : EventPlace (.evtPacket valid h) s t valid := by
  subst hhdr
  obtain ⟨hp, hm, hl, e⟩ | ⟨hp, hm, hr, e⟩ | ⟨hp, _, h0, e⟩ := eventNow_cases hnow <;>
    obtain ⟨hhdr, rfl⟩ := Event.mk.inj e
  · exact .inr (.inr ⟨rfl, .inr rfl, hp, hm, hhdr, hhdr ▸ hl⟩)
  · exact .inr (.inl ⟨rfl, .inr (by rw [hhdr]), hp, hr, hm.2, hhdr⟩)
  · exact .inl ⟨rfl, .inr (by rw [hhdr]), hp, h0, hhdr⟩

theorem decTransfer_makeEvent {valid : Bool} {h : PacketHeader} (hnow : s.dec.eventNow = some ⟨h, valid⟩) :
    DecTransfer (.evtPacket valid h) s (makeEvent c valid h s) := by
  obtain ⟨_, e⟩ | ⟨_, e⟩ := makeEvent_cases c valid h s <;> rw [e]
  · exact .nothing rfl rfl rfl
  · exact .event valid (eventPlace_of_eventNow hnow rfl) _ rfl rfl rfl rfl

end Transfers

/-- R69, R71: everything an operation can hand to the sink and to the host. -/
theorem exec_decTransfer {i : Instr} {s t : State} (h : exec i s = .next t) : DecTransfer i s t := by
  cases hi : isEncOp i with
  | true =>
    have hside := exec_decSide hi h
    exact .nothing (congrArg DecSide.sunk hside) (congrArg DecSide.events hside) (congrArg DecSide.decRsps hside)
  | false =>
    cases i with
    | decodeStream =>
      cases h
      exact decTransfer_offerDecode s
    | decReset | syncPrefix | syncCont | frameHdr _ _ | pktHdr _ _ | frame _ =>
      cases h
      exact .nothing rfl rfl rfl
    | dSync =>
      obtain ⟨_, rfl⟩ := execDSync_next h
      exact decTransfer_scanByte _ s
    | dBody =>
      obtain ⟨_, _, rfl⟩ := execDBody_next h
      exact decTransfer_readBody _ s
    | dValidate =>
      obtain ⟨_, rfl⟩ := execDValidate_next h
      exact decTransfer_validate _ s
    | dDispatchHdr =>
      obtain ⟨⟨hp, hm⟩, rfl⟩ := execDDispatchHdr_next h
      exact decTransfer_dispatchHdr _ hp hm
    | dDispatchData =>
      obtain ⟨_, rfl⟩ := execDDispatchData_next h
      exact .nothing rfl rfl rfl
    | dStream =>
      obtain ⟨⟨hp, hm⟩, rfl⟩ := execDStream_next h
      exact decTransfer_streamByte _ hp hm
    | dStreamEnd =>
      obtain ⟨⟨hp, _⟩, rfl⟩ := execDStreamEnd_next h
      exact decTransfer_streamEnd _ hp
    | evtPacket valid hd =>
      obtain ⟨hnow, rfl⟩ := execEvtPacket_next h
      exact decTransfer_makeEvent _ hnow
    | _ => cases hi

theorem DecTransfer.sunk {i : Instr} {s t : State} (h : DecTransfer i s t) : s.sunk <+: t.sunk := by
  cases h with
  | nothing hsunk _ _ => rw [hsunk]
  | byte b hsunk _ _ =>
    rw [hsunk]
    exact List.prefix_append _ _
  | event _ _ u ht hsunk _ _ => rw [ht, closePacket_sunk, hsunk]

theorem DecTransfer.events {i : Instr} {s t : State} (h : DecTransfer i s t) : s.events <+: t.events := by
  cases h with
  | nothing _ hevents _ => rw [hevents]
  | byte _ _ hevents _ => rw [hevents]
  | event valid _ u ht _ hevents _ =>
    rw [ht, closePacket_events, hevents]
    exact List.prefix_append _ _

/-- R72: no operation makes a response of DEC. -/
theorem DecTransfer.decRsps {i : Instr} {s t : State} (h : DecTransfer i s t) : t.decRsps = s.decRsps := by
  cases h with
  | nothing _ _ hrsps | byte _ _ _ hrsps => exact hrsps
  | event _ _ u ht _ _ hrsps => rw [ht, closePacket_decRsps, hrsps]

/-! ## What a step transfers -/

/-- All that was transferred, but for ENC's responses, stays transferred. -/
def TransfersKept (s t : State) : Prop :=
  s.wire <+: t.wire ∧ s.sunk <+: t.sunk ∧ s.events <+: t.events ∧ s.decRsps <+: t.decRsps

theorem transfersKept_of_eq {s t : State} (hwire : t.wire = s.wire) (hside : t.decSide = s.decSide) :
    TransfersKept s t := by
  have hsunk : t.sunk = s.sunk := congrArg DecSide.sunk hside
  have hevents : t.events = s.events := congrArg DecSide.events hside
  have hrsps : t.decRsps = s.decRsps := congrArg DecSide.decRsps hside
  rw [TransfersKept, hwire, hsunk, hevents, hrsps]
  exact ⟨List.prefix_rfl, List.prefix_rfl, List.prefix_rfl, List.prefix_rfl⟩

section Steps
variable (c : Config) (s : State)

theorem respondEnc_decSide : (respondEnc c s).decSide = s.decSide := by
  obtain ⟨_, e⟩ | ⟨_, e⟩ := respondEnc_cases c s <;> rw [e] <;> rfl

theorem respondEnc_wire : (respondEnc c s).wire = s.wire := by
  obtain ⟨_, e⟩ | ⟨_, e⟩ := respondEnc_cases c s <;> rw [e]

/-- R72: a response of DEC goes behind those already made. -/
theorem respondDec_transfersKept : TransfersKept s (respondDec c s) := by
  obtain ⟨_, e⟩ | ⟨_, e⟩ := respondDec_cases c s <;> rw [e]
  · exact ⟨List.prefix_rfl, List.prefix_rfl, List.prefix_rfl, List.prefix_rfl⟩
  · exact ⟨List.prefix_rfl, List.prefix_rfl, List.prefix_rfl, List.prefix_append _ _⟩

theorem noOperation_transfersKept (w : OpWord) : TransfersKept s (noOperation w s) := by
  unfold noOperation
  split <;> exact ⟨List.prefix_rfl, List.prefix_rfl, List.prefix_rfl, List.prefix_rfl⟩

end Steps

theorem exec_transfersKept {i : Instr} {s t : State} (h : exec i s = .next t) : TransfersKept s t := by
  have htransfer := exec_decTransfer h
  exact ⟨exec_wire h, htransfer.sunk, htransfer.events, htransfer.decRsps ▸ List.prefix_rfl⟩

theorem step_transfersKept {s t : State} (h : step s = .next t) : TransfersKept s t := by
  obtain ⟨u, hf, e⟩ | ⟨w, u, i, hf, _, e⟩ | ⟨w, u, _, hf, _, e⟩ := step_cases s <;> rw [e] at h
  · cases h
    obtain rfl | ⟨_, _, _, rfl⟩ | ⟨_, _, _, rfl⟩ := fetch_noOp hf
    · exact transfersKept_of_eq rfl rfl
    · exact transfersKept_of_eq (respondEnc_wire _ _) (respondEnc_decSide _ _)
    · exact respondDec_transfersKept _ { s with turns := s.turns.pop }
  · obtain ⟨_, _, rfl⟩ := fetch_word hf
    exact (exec_transfersKept h :)
  · obtain ⟨cmds, n, rfl⟩ := fetch_word hf
    cases h
    exact noOperation_transfersKept { s with turns := s.turns.pop, encCmd := cmds, decCmd := n } w

/-- Settles O35: an operation or a response of DEC only appends, and a response of ENC goes behind those made. -/
theorem transfersStay : Obligations.TransfersStay := by
  intro s t h
  obtain ⟨hwire, hsunk, hevents, hdecRsps⟩ := step_transfersKept h
  refine ⟨hwire, hsunk, hevents, ?_, hdecRsps⟩
  obtain ⟨_, _, _, hmade, _⟩ | ⟨hkept, _⟩ := step_response_cases h
  · rw [hmade]
    exact List.prefix_append _ _
  · rw [hkept]

/-! ## Whose turn it is when an event is made -/

/-- R111: `ENC.PHASE` selects operations of ENC. -/
theorem decode_encSelector_isEncOp {e : Enc} (hp : e.phase ≠ .idle) :
    ∃ i, decode e.selector = .ok i ∧ isEncOp i = true := by
  cases hphase : e.phase with
  | idle => exact absurd hphase hp
  | build => exact ⟨_, decode_encSelector_build hphase, rfl⟩
  | fill => exact ⟨_, decode_encSelector_fill hphase, rfl⟩
  | parity => exact ⟨_, decode_encSelector_parity hphase, rfl⟩
  | emit => exact ⟨_, decode_encSelector_emit hphase, rfl⟩

/-- R20, R75: a turn of ENC leaves everything on DEC's side as it is. -/
theorem step_decSide_of_encTurn {s t : State} (ht : s.turnNow = some .enc) (h : step s = .next t) :
    t.decSide = s.decSide := by
  by_cases hp : s.enc.phase = .idle
  · cases hd : s.enc.rspDue with
    | true =>
      rw [step_of_enc_due ht hp hd] at h
      cases h
      exact respondEnc_decSide _ _
    | false =>
      obtain ⟨_, _, _, _, hnone, hcommand⟩ := encPhaseSelectsStep s ht
      cases hq : s.encCmd with
      | nil =>
        rw [hnone hp hd hq] at h
        cases h
        rfl
      | cons hdr hs =>
        rw [hcommand hdr hs hp hd hq] at h
        exact (exec_decSide rfl h :)
  · obtain ⟨i, hdec, hi⟩ := decode_encSelector_isEncOp hp
    rw [step_of_encSelector ht hp hdec] at h
    exact (exec_decSide hi h :)

/-- R71: no word that someone outside drives makes an event. -/
theorem exec_events_of_outside {w : OpWord} {i : Instr} {s t : State} (hw : drivenFromOutside w.sel)
    (hd : decode w = .ok i) (h : exec i s = .next t) : t.events = s.events := by
  obtain ⟨sel, bs⟩ := w
  cases sel with
  | encPhase | decPhase _ | evt => exact hw.elim
  | wire =>
    obtain ⟨arriving, he⟩ := exec_of_decodeWire hd s
    rw [he] at h
    cases h
    rfl
  | encCmd | decCmd | encReset | decReset =>
    simp only [decode] at hd
    split at hd
    all_goals cases hd
    cases exec_decTransfer h with
    | nothing _ hevents _ | byte _ _ hevents _ => exact hevents
    | event _ hplace => simp [EventPlace] at hplace

theorem step_events_of_line {w : OpWord} {s t : State} (ht : s.turnNow = some (.line w)) (h : step s = .next t) :
    t.events = s.events := by
  by_cases hw : drivenFromOutside w.sel
  · cases hd : decode w with
    | error e =>
      rw [step_of_no_operation_from_outside ht hw hd] at h
      cases h
      unfold noOperation
      split <;> rfl
    | ok i =>
      rw [step_of_operation_from_outside ht hw hd] at h
      exact (exec_events_of_outside hw hd h :)
  · rw [step_of_not_driven ht hw] at h
    cases h
    rfl

/-- Settles O48: the one case of an operation's transfers that changes the events closes the packet; on a turn of
nobody, of ENC or of someone outside no event is made. -/
theorem eventsClosePackets : Obligations.EventsClosePackets := by
  refine ⟨fun i s t h hchanged => ?operation, fun s t h hchanged => ?turn⟩
  case operation =>
    cases exec_decTransfer h with
    | nothing _ hevents _ | byte _ _ hevents _ => exact absurd hevents hchanged
    | event valid hplace u ht hsunk hevents _ =>
      refine ⟨valid, ?_, ?_, ?_, ?_, ?_, hplace⟩
      · rw [ht, closePacket_events, closePacket_dec_hdr, hevents]
      · rw [ht, closePacket_dec_phase]
      · rw [ht, closePacket_dec_mode]
      · rw [ht, closePacket_dec_scan]
      · rw [ht, closePacket_sunk, hsunk]
  case turn =>
    rcases ht : s.turnNow with _ | _ | _ | w
    · rw [step_of_noOp (fetch_of_nobody ht)] at h
      cases h
      exact absurd rfl hchanged
    · exact absurd (congrArg DecSide.events (step_decSide_of_encTurn ht h)) hchanged
    · rfl
    · exact absurd (step_events_of_line ht h) hchanged

end Sys2Proof.Machine
end

section
/-! Runs over a whole frame: the 257 steps in which ENC emits one (R61, R164), and the 257 in which DEC finds and reads
one that arrives (R142, R201). Each run is an induction on how many bytes it moves. -/

namespace Sys2Proof.Machine

/-! ## Channels with fixed answers -/

section FixedAnswers
variable {α : Type} {ch : Channel α} {a : Option α} {q : List (Option α)}

theorem Channel.peek_of_queue (draw : Nat → Option α) (h : ch.queue = a :: q) : ch.peek draw = a := by
  rw [Channel.peek, h]

theorem Channel.pop_of_queue (h : ch.queue = a :: q) : ch.pop = ⟨q, ch.tail⟩ := by
  rw [Channel.pop, h]

theorem peek_acceptAll {ch : Channel Bool} (draw : Nat → Option Bool) (h : ch = acceptAll) :
    ch.peek draw = some true := by
  rw [h]; rfl

theorem pop_acceptAll {ch : Channel Bool} (h : ch = acceptAll) : ch.pop = ch := by
  rw [h]; rfl

end FixedAnswers

/-- One more and then `k` more, counted in the bits of a register. -/
theorem add_one_add_ofNat {w : Nat} (x : BitVec w) (k : Nat) :
    x + 1#w + BitVec.ofNat w k = x + BitVec.ofNat w (k + 1) := by
  rw [Nat.add_comm k 1, BitVec.ofNat_add, BitVec.add_assoc]

/-! ## ENC emits a frame -/

section Emit
variable {s : State}

/-- `k` more wire bytes of the frame in the buffer are on the wire. -/
def State.emitted (k : Nat) (s : State) : State :=
  { s with
    wire := s.wire ++ (List.range' s.enc.idx.toNat k).map (wireByte s.enc.fbuf)
    enc := { s.enc with idx := s.enc.idx + BitVec.ofNat 9 k } }

theorem emitted_zero : s.emitted 0 = s := by
  simp [State.emitted]

theorem emitted_succ (k : Nat) (hi : s.enc.idx.toNat < 256) : (s.emitted 1).emitted k = s.emitted (k + 1) := by
  have hidx : (s.enc.idx + 1#9).toNat = s.enc.idx.toNat + 1 := index_toNat_succ hi.le
  have hwire : s.wire ++ [wireByte s.enc.fbuf s.enc.idx.toNat] ++
      (List.range' (s.enc.idx + 1#9).toNat k).map (wireByte s.enc.fbuf) =
      s.wire ++ (List.range' s.enc.idx.toNat (k + 1)).map (wireByte s.enc.fbuf) := by
    rw [hidx, List.append_assoc, List.range'_succ, List.map_cons]
    rfl
  rw [State.emitted.eq_def (k + 1), ← hwire, ← add_one_add_ofNat]
  rfl

theorem step_emit_inner (hturns : s.turns = ⟨[], .always (some .enc)⟩) (hp : s.enc.phase = .emit)
    (htx : s.tx = acceptAll) (hi : s.enc.idx.toNat < 256) : step s = .next (s.emitted 1) := by
  rw [step_eEmit hturns hp, exec_eEmit_of_emit hp (by omega), emitByte_of_inner (peek_acceptAll _ htx) hi,
    pop_acceptAll htx]
  rfl

/-- R164: as long as the last byte of the buffer is not reached, each step puts the next wire byte on the wire. -/
theorem run_emit_inner (k : Nat) (hturns : s.turns = ⟨[], .always (some .enc)⟩) (hp : s.enc.phase = .emit)
    (htx : s.tx = acceptAll) (hi : s.enc.idx.toNat + k ≤ 256) : run k s = .next (s.emitted k) := by
  induction k generalizing s with
  | zero => rw [run_zero, emitted_zero]
  | succ k ih =>
    have hlt : s.enc.idx.toNat < 256 := by omega
    have hidx : (s.emitted 1).enc.idx.toNat = s.enc.idx.toNat + 1 := index_toNat_succ hlt.le
    rw [run_succ (step_emit_inner hturns hp htx hlt), ih (s := s.emitted 1) hturns hp htx (by omega),
      emitted_succ k hlt]

/-- R61: the wire bytes of the indices 0..n are the sync prefix and the first n bytes of the buffer. -/
theorem wireByte_range (m : Memory) (n : Nat) :
    (List.range (n + 1)).map (wireByte m) = 0xAA#8 :: Memory.readBytes m 0 n := by
  rw [List.range_succ_eq_map, List.map_cons, List.map_map, Memory.readBytes]
  refine congrArg _ (List.map_congr_left fun k _ => ?_)
  rw [Nat.zero_add]
  rfl

/-- R164: the last byte of the buffer completes the frame on the wire. -/
theorem emitted_whole (hi : s.enc.idx = 0#9) :
    (s.emitted 256).wire ++ [Memory.read s.enc.fbuf 255] = s.wire ++ 0xAA#8 :: Memory.readBytes s.enc.fbuf 0 256 := by
  rw [← wireByte_range, List.range_succ, List.map_append, ← List.append_assoc, List.range_eq_range']
  simp only [State.emitted, hi]
  rfl

theorem emitted_idx (hi : s.enc.idx = 0#9) : (s.emitted 256).enc.idx = 256#9 := by
  simp only [State.emitted, hi]
  rfl

theorem step_emit_next (hturns : s.turns = ⟨[], .always (some .enc)⟩) (hp : s.enc.phase = .emit)
    (htx : s.tx = acceptAll) (hi : s.enc.idx = 256#9) (htodo : 0 < s.enc.todo.toNat) :
    step s = .next { s with
      wire := s.wire ++ [Memory.read s.enc.fbuf 255]
      enc := { s.enc with count := s.enc.count + 1#16, phase := .build } } := by
  have hidx : s.enc.idx.toNat = 256 := by rw [hi]; rfl
  rw [step_eEmit hturns hp, exec_eEmit_of_emit hp hidx.le, emitByte_of_next (peek_acceptAll _ htx) hidx.ge htodo,
    pop_acceptAll htx, hidx, wireByte_256]

theorem step_emit_last (hturns : s.turns = ⟨[], .always (some .enc)⟩) (hp : s.enc.phase = .emit)
    (htx : s.tx = acceptAll) (hi : s.enc.idx = 256#9) (htodo : s.enc.todo.toNat = 0) :
    step s = .next (endCommand .ok (s.enc.count + 1#16) { s with
      wire := s.wire ++ [Memory.read s.enc.fbuf 255]
      enc := { s.enc with count := s.enc.count + 1#16 } }) := by
  have hidx : s.enc.idx.toNat = 256 := by rw [hi]; rfl
  rw [step_eEmit hturns hp, exec_eEmit_of_emit hp hidx.le, emitByte_of_last (peek_acceptAll _ htx) hidx.ge htodo,
    pop_acceptAll htx, hidx, wireByte_256]

/-- R164: behind the last byte of a frame of an unfinished packet the next frame is built. -/
theorem run_emit_frame (hturns : s.turns = ⟨[], .always (some .enc)⟩) (hp : s.enc.phase = .emit)
    (htx : s.tx = acceptAll) (hi : s.enc.idx = 0#9) (htodo : 0 < s.enc.todo.toNat) :
    run 257 s = .next { s with
      wire := s.wire ++ 0xAA#8 :: Memory.readBytes s.enc.fbuf 0 256
      enc := { s.enc with idx := 256#9, count := s.enc.count + 1#16, phase := .build } } := by
  have hinner := run_emit_inner 256 hturns hp htx (by rw [hi]; decide)
  have hlast := step_emit_next (s := s.emitted 256) hturns hp htx (emitted_idx hi) htodo
  rw [run_add (k := 1) hinner, run_succ hlast, run_zero, ← emitted_whole hi, ← emitted_idx hi]
  rfl

/-- R164, R165: behind the last byte of the last frame the command ends, with the frame counted in its result. -/
theorem run_emit_last_frame (hturns : s.turns = ⟨[], .always (some .enc)⟩) (hp : s.enc.phase = .emit)
    (htx : s.tx = acceptAll) (hi : s.enc.idx = 0#9) (htodo : s.enc.todo.toNat = 0) :
    run 257 s = .next (endCommand .ok (s.enc.count + 1#16) { s with
      wire := s.wire ++ 0xAA#8 :: Memory.readBytes s.enc.fbuf 0 256
      enc := { s.enc with idx := 256#9, count := s.enc.count + 1#16 } }) := by
  have hinner := run_emit_inner 256 hturns hp htx (by rw [hi]; decide)
  have hlast := step_emit_last (s := s.emitted 256) hturns hp htx (emitted_idx hi) htodo
  rw [run_add (k := 1) hinner, run_succ hlast, run_zero, ← emitted_whole hi, ← emitted_idx hi]
  rfl

end Emit

/-- Settles O41: 256 steps inside the frame and the one behind its last byte. -/
theorem emitsWholeFrame : Obligations.EmitsWholeFrame :=
  fun _ hp hi htodo htx hturns => run_emit_frame hturns hp htx hi htodo

/-! ## DEC reads a frame -/

section Read
variable {s : State} {b : Byte} {q : List (Option (Option Byte))}

/-- One byte more of the body is in the buffer, and `q` is left of what RX answers. -/
def State.bodyRead (b : Byte) (q : List (Option (Option Byte))) (s : State) : State :=
  { s with
    rx := ⟨q, s.rx.tail⟩
    dec := { s.dec with fbuf := Memory.write s.dec.fbuf s.dec.idx.toNat b, idx := s.dec.idx + 1#9 } }

theorem step_readBody_inner (hturns : s.turns = ⟨[], .always (some .dec)⟩) (hp : s.dec.phase = .body)
    (hi : s.dec.idx.toNat < 255) (hq : s.rx.queue = some (some b) :: q) : step s = .next (s.bodyRead b q) := by
  rw [step_dBody hturns hp, exec_dBody_of_body hp hi.le, readBody_of_byte (Channel.peek_of_queue _ hq),
    Channel.pop_of_queue hq, if_neg hi.ne, ← hp]
  rfl

theorem step_readBody_last (hturns : s.turns = ⟨[], .always (some .dec)⟩) (hp : s.dec.phase = .body)
    (hi : s.dec.idx.toNat = 255) (hq : s.rx.queue = some (some b) :: q) :
    step s = .next { s with
      rx := ⟨q, s.rx.tail⟩
      dec := { s.dec with
        fbuf := Memory.write s.dec.fbuf s.dec.idx.toNat b, idx := 256#9, phase := .validate } } := by
  have hidx : s.dec.idx + 1#9 = 256#9 := BitVec.eq_of_toNat_eq (by rw [index_toNat_succ (by omega), hi]; rfl)
  rw [step_dBody hturns hp, exec_dBody_of_body hp hi.le, readBody_of_byte (Channel.peek_of_queue _ hq),
    Channel.pop_of_queue hq, if_pos hi, hidx]

/-- R201: with the rest of a body at hand, DEC reads it up to the end of the buffer, in order, and VALIDATE is next. -/
theorem run_readBody (bs : List Byte) (hturns : s.turns = ⟨[], .always (some .dec)⟩) (hp : s.dec.phase = .body)
    (hi : s.dec.idx.toNat + bs.length = 255)
    (hq : s.rx.queue = (b :: bs).map (fun b => some (some b)) ++ q) :
    run (bs.length + 1) s = .next { s with
      rx := ⟨q, s.rx.tail⟩
      dec := { s.dec with
        fbuf := Memory.writeBytes s.dec.fbuf s.dec.idx.toNat (b :: bs), idx := 256#9, phase := .validate } } := by
  induction bs generalizing s b with
  | nil => exact run_succ (step_readBody_last hturns hp hi hq)
  | cons b' bs ih =>
    rw [List.length_cons] at hi ⊢
    have hstep := step_readBody_inner hturns hp (by omega) hq
    have hidx := index_toNat_succ (x := s.dec.idx) (by omega)
    have hrest := ih (s := s.bodyRead b ((b' :: bs).map (fun b => some (some b)) ++ q)) hturns hp
      ((congrArg (· + bs.length) hidx).trans (by omega)) rfl
    refine (run_succ hstep).trans (hrest.trans ?_)
    rw [State.bodyRead, hidx]
    rfl

theorem step_scanByte_stay {t : Scan} (hturns : s.turns = ⟨[], .always (some .dec)⟩) (hp : s.dec.phase = .sync)
    (hq : s.rx.queue = some (some b) :: q) (hscan : scan s.dec.scan b = .stay t) :
    step s = .next { s with rx := ⟨q, s.rx.tail⟩, dec := { s.dec with scan := t } } := by
  rw [step_dSync hturns hp, exec_dSync_of_sync hp, scanByte_of_stay (Channel.peek_of_queue _ hq) hscan,
    Channel.pop_of_queue hq]

theorem step_scanByte_match (hturns : s.turns = ⟨[], .always (some .dec)⟩) (hp : s.dec.phase = .sync)
    (hq : s.rx.queue = some (some b) :: q) (hscan : scan s.dec.scan b = .matched) :
    step s = .next { s with
      rx := ⟨q, s.rx.tail⟩
      dec := { s.dec with
        fbuf := Memory.write s.dec.fbuf 0 syncContByte, idx := 1#9, scan := .hunt, phase := .body } } := by
  rw [step_dSync hturns hp, exec_dSync_of_sync hp, scanByte_of_match (Channel.peek_of_queue _ hq) hscan,
    Channel.pop_of_queue hq]

/-- R142: a hunting DEC that finds the sync pair has its second byte in the buffer and reads the body next. -/
theorem run_syncPair (hturns : s.turns = ⟨[], .always (some .dec)⟩) (hp : s.dec.phase = .sync)
    (hscan : s.dec.scan = .hunt) (hq : s.rx.queue = some (some syncPrefixByte) :: some (some syncContByte) :: q) :
    run 2 s = .next { s with
      rx := ⟨q, s.rx.tail⟩
      dec := { s.dec with
        fbuf := Memory.write s.dec.fbuf 0 syncContByte, idx := 1#9, scan := .hunt, phase := .body } } := by
  have hstay : scan s.dec.scan syncPrefixByte = .stay .gotAA := by
    rw [hscan]
    rfl
  rw [run_succ (step_scanByte_stay hturns hp hq hstay)]
  refine run_succ ?_
  exact step_scanByte_match hturns hp rfl rfl

end Read

/-- What follows the version byte in a wire frame (R101). -/
def bytesAfterVersion (f : Frame) : List Byte := be16 f.seq ++ (f.data ++ f.parity)

theorem bytesAfterVersion_length {f : Frame} (hf : f.wellFormed = true) : (bytesAfterVersion f).length = 254 := by
  simp only [Frame.wellFormed, Bool.and_eq_true, beq_iff_eq] at hf
  simp [bytesAfterVersion, hf]

/-- R101: what RX answers once a frame has arrived with nothing before it: the sync pair and then the body. -/
theorem arrive_frameBytes_queue {s : State} (f : Frame) (hq : s.rx.queue = []) :
    (arrive (frameBytes f) s).rx.queue =
      some (some syncPrefixByte) :: some (some syncContByte) ::
        ((f.version :: bytesAfterVersion f).map (fun b => some (some b)) ++ []) := by
  simp [Channel.supply, hq, frameBytes, frameHdrBytes, bytesAfterVersion, Function.comp_def]

/-- Behind a frame that was all of what RX held, RX and the scanner are as they were before it. -/
theorem rx_scan_restored {s : State} (hq : s.rx.queue = []) (hscan : s.dec.scan = .hunt) (m : Memory) :
    ({ s with
      rx := ⟨[], s.rx.tail⟩
      dec := { s.dec with fbuf := m, idx := 256#9, scan := .hunt, phase := .validate } } : State) =
    { s with dec := { s.dec with fbuf := m, idx := 256#9, phase := .validate } } := by
  have hrx : (⟨[], s.rx.tail⟩ : Channel (Option Byte)) = s.rx := by rw [← hq]
  rw [hrx, ← hscan]

/-- Settles O50: the sync pair takes two steps and the body 255; the buffer is then the string `0x5A` and the body
written from index 0. -/
theorem arrivingFrameIsRead : Obligations.ArrivingFrameIsRead := by
  intro s f hf hp hscan hq hturns
  have hlen := bytesAfterVersion_length hf
  refine ⟨arrive (frameBytes f) s, Memory.writeBytes s.dec.fbuf 0 (syncContByte :: f.version :: bytesAfterVersion f),
    rfl, ?run, ?buffer⟩
  case run =>
    have hpair := run_syncPair (s := arrive (frameBytes f) s) hturns hp hscan (arrive_frameBytes_queue f hq)
    have hsteps : 257 = 2 + ((bytesAfterVersion f).length + 1) := by rw [hlen]
    rw [hsteps, run_add hpair]
    refine (run_readBody (b := f.version) (q := []) (bytesAfterVersion f) ?turns ?body ?idx ?queue).trans ?after
    case turns => exact hturns
    case body => rfl
    case idx => exact congrArg (1 + ·) hlen
    case queue => rfl
    case after => exact congrArg Host.Outcome.next (rx_scan_restored hq hscan _)
  case buffer =>
    have hread := Memory.readBytes_writeBytes s.dec.fbuf 0 (syncContByte :: f.version :: bytesAfterVersion f)
    rw [List.length_cons, List.length_cons, hlen] at hread
    exact hread

end Sys2Proof.Machine
end

section
/-! The buffer of a frame that carries given bytes (R102, R103, R105, R106, R161, R169): what it reads as, and that with
its parity its wire bytes are those of the frame. -/

namespace Sys2Proof.Machine

/-- R161, R169: what `E.BUILD` itself writes of the packet string: in a first frame the secondary header. -/
def leadingBytes (c : Config) (e : Enc) : List Byte := if e.first then pktHdrBytes c.protocolVersion e.hdr else []

/-- A cleared buffer with the frame header and the bytes that the frame carries. -/
def carryingBuffer (c : Config) (seq : Half) (bs : List Byte) : Memory :=
  Memory.writeBytes Memory.cleared 0 (frameHdrBytes c.protocolVersion seq ++ bs)

/-- The buffer with the parity of its message (R163). -/
def withParity (c : Config) (m : Memory) : Memory := writeParity m (c.fecEncode (messageOf m))

section Buffer
variable {c : Config} {e : Enc} {seq : Half} {bs : List Byte}

theorem leadingBytes_of_first (h : e.first = true) : leadingBytes c e = pktHdrBytes c.protocolVersion e.hdr :=
  if_pos h

theorem leadingBytes_of_not_first (h : e.first = false) : leadingBytes c e = [] := by
  rw [leadingBytes, h]
  rfl

theorem leadingBytes_length_le (c : Config) (e : Enc) : (leadingBytes c e).length ≤ 14 := by
  cases h : e.first with
  | true => rw [leadingBytes_of_first h]; exact le_rfl
  | false => rw [leadingBytes_of_not_first h]; exact Nat.zero_le _

/-- R161: `E.BUILD` leaves the index behind what it wrote. -/
theorem buildFrame_idx (c : Config) (s : State) :
    (buildFrame c s).enc.idx.toNat = 4 + (leadingBytes c s.enc).length := by
  cases h : s.enc.first with
  | true => rw [leadingBytes_of_first h]; simp [buildFrame, h, pktHdrBytes]
  | false => rw [leadingBytes_of_not_first h]; simp [buildFrame, h]

theorem builtBuffer_eq_carryingBuffer (c : Config) (e : Enc) :
    builtBuffer c e = carryingBuffer c e.seq (leadingBytes c e) := by
  rw [carryingBuffer, Memory.writeBytes_append]
  cases h : e.first with
  | true => rw [leadingBytes_of_first h, builtBuffer, h]; rfl
  | false => rw [leadingBytes_of_not_first h, builtBuffer, h]; rfl

theorem carryingBuffer_append (c : Config) (seq : Half) (bs cs : List Byte) :
    carryingBuffer c seq (bs ++ cs) = Memory.writeBytes (carryingBuffer c seq bs) (4 + bs.length) cs := by
  rw [carryingBuffer, ← List.append_assoc, Memory.writeBytes_append, List.length_append, Nat.zero_add]
  rfl

/-- R105: what a region carries, and zeros behind it. -/
theorem region_of_le (h : bs.length ≤ 220) : region bs = bs ++ List.replicate (220 - bs.length) 0x00#8 := by
  rw [region, List.take_of_length_le h]

theorem region_length (bs : List Byte) : (region bs).length = 220 := by
  simp only [region, List.length_append, List.length_take, List.length_replicate, dataRegionSize]
  omega

/-- A full region is not changed by what follows. -/
theorem region_append {cs : List Byte} (h : bs.length = 220) : region (bs ++ cs) = region bs := by
  simp [region, h]

/-- A byte string reads the same with zeros behind it. -/
theorem getD_append_zeros (bs : List Byte) (n a : Nat) :
    (bs ++ List.replicate n 0x00#8).getD a 0x00#8 = bs.getD a 0x00#8 := by
  by_cases h : a < bs.length
  · exact List.getD_append _ _ _ _ h
  · rw [List.getD_append_right _ _ _ _ (Nat.not_lt.mp h), List.getD_eq_default _ _ (Nat.not_lt.mp h),
      List.getD_eq_getElem?_getD, List.getElem?_getD_replicate_default_eq]

/-- R105: before the parity a buffer reads as its header and its data region. -/
theorem read_carryingBuffer (h : bs.length ≤ 220) (a : Nat) :
    Memory.read (carryingBuffer c seq bs) a =
      (frameHdrBytes c.protocolVersion seq ++ region bs).getD a 0x00#8 := by
  rw [carryingBuffer, Memory.read_writeBytes, if_pos (Nat.zero_le a), region_of_le h, ← List.append_assoc,
    getD_append_zeros]
  rfl

/-- R106, R250: the message of the buffer is the version, the sequence number and the data region. -/
theorem messageOf_carryingBuffer (h : bs.length ≤ 220) :
    messageOf (carryingBuffer c seq bs) =
      fun i => (c.protocolVersion :: be16 seq ++ region bs).getD i.val 0x00#8 := by
  funext i
  rw [messageOf, read_carryingBuffer h, Nat.add_comm]
  rfl

/-- R106: the parity stands behind the 224 bytes in front of it. -/
theorem readBytes_writeParity {m : Memory} {d : List Byte} (q : Parity) (hlen : d.length = 224)
    (hd : ∀ a (h : a < d.length), Memory.read m a = d[a]) :
    Memory.readBytes (writeParity m q) 0 256 = d ++ List.ofFn q := by
  have hsize : (d ++ List.ofFn q).length = 256 := by rw [List.length_append, hlen, List.length_ofFn]
  rw [← hsize]
  refine Memory.readBytes_eq fun k hk => ?_
  rw [Nat.zero_add, read_writeParity]
  by_cases hk' : k < d.length
  · rw [dif_neg (by omega), List.getElem_append_left hk', hd k hk']
  · rw [dif_pos (by omega), List.getElem_append_right (by omega), List.getElem_ofFn]
    simp only [hlen]

/-- R101, R169: the wire bytes of the buffer with its parity are those of the frame that carries the bytes. -/
theorem frameBytes_of_buffer (c : Config) (seq : Half) (h : bs.length ≤ 220) :
    0xAA#8 :: Memory.readBytes (withParity c (carryingBuffer c seq bs)) 0 256 =
      frameBytes (frameWith c seq (region bs)) := by
  have hlen : (frameHdrBytes c.protocolVersion seq ++ region bs).length = 224 := by
    rw [List.length_append, region_length]
    rfl
  rw [withParity, readBytes_writeParity _ hlen fun a ha => by rw [read_carryingBuffer h, List.getD_eq_getElem _ _ ha],
    messageOf_carryingBuffer h]
  rfl

end Buffer

end Sys2Proof.Machine
end

section
/-! A whole command of ENC (R162 to R165, R169, R170, R172): the run of one frame from `E.BUILD` to the wire, and by
induction on the frames the run of a packet. -/

namespace Sys2Proof.Machine

/-! ## ENC fills and closes a buffer -/

section Fill
variable {s : State} {b : Byte} {p : List Byte} {q : List (Option (Option Byte))}

/-- The bytes `p` are pulled into the buffer, and `q` is left of what SRC answers. -/
def State.filled (p : List Byte) (q : List (Option (Option Byte))) (s : State) : State :=
  { s with
    src := ⟨q, s.src.tail⟩
    enc := { s.enc with
      fbuf := Memory.writeBytes s.enc.fbuf s.enc.idx.toNat p
      idx := s.enc.idx + BitVec.ofNat 9 p.length
      todo := s.enc.todo - BitVec.ofNat 16 p.length } }

theorem filled_nil (hq : s.src.queue = q) : s.filled [] q = s := by
  subst hq
  simp [State.filled, Memory.writeBytes]

theorem filled_cons (q' : List (Option (Option Byte))) (hi : s.enc.idx.toNat < 224) :
    (s.filled [b] q').filled p q = s.filled (b :: p) q := by
  have hidx : (s.enc.idx + 1#9).toNat = s.enc.idx.toNat + 1 := index_toNat_succ (by omega)
  have hbuf : Memory.writeBytes (Memory.write s.enc.fbuf s.enc.idx.toNat b) (s.enc.idx + 1#9).toNat p =
      Memory.writeBytes s.enc.fbuf s.enc.idx.toNat (b :: p) := by
    rw [hidx]
    rfl
  have htodo : s.enc.todo - 1#16 - BitVec.ofNat 16 p.length = s.enc.todo - BitVec.ofNat 16 (p.length + 1) := by
    rw [Nat.add_comm, BitVec.ofNat_add, sub_sub]
  rw [State.filled.eq_def (b :: p), ← hbuf, List.length_cons, ← add_one_add_ofNat, ← htodo]
  rfl

theorem filled_idx (hi : s.enc.idx.toNat + p.length ≤ 224) :
    (s.filled p q).enc.idx.toNat = s.enc.idx.toNat + p.length := by
  rw [State.filled, BitVec.toNat_add, BitVec.toNat_ofNat]
  omega

theorem filled_todo (h : p.length ≤ s.enc.todo.toNat) :
    (s.filled p q).enc.todo.toNat = s.enc.todo.toNat - p.length := by
  have hlt := s.enc.todo.isLt
  rw [State.filled, BitVec.toNat_sub, BitVec.toNat_ofNat]
  omega

theorem step_fillByte (hturns : s.turns = ⟨[], .always (some .enc)⟩) (hp : s.enc.phase = .fill)
    (hpulls : s.enc.pulls) (hq : s.src.queue = some (some b) :: q) : step s = .next (s.filled [b] q) := by
  rw [step_eFill hturns hp, exec_eFill_of_fill hp, fillByte_of_byte hpulls (Channel.peek_of_queue _ hq),
    Channel.pop_of_queue hq]
  rfl

theorem step_fill_over (hturns : s.turns = ⟨[], .always (some .enc)⟩) (hp : s.enc.phase = .fill)
    (hover : ¬ s.enc.pulls) : step s = .next { s with enc := { s.enc with phase := .parity } } := by
  rw [step_eFill hturns hp, exec_eFill_of_fill hp, fillByte_of_full hover]

/-- R162: with the bytes at hand, as many as the region takes and the packet has, ENC pulls them in order. -/
theorem run_fill (p : List Byte) (hturns : s.turns = ⟨[], .always (some .enc)⟩) (hp : s.enc.phase = .fill)
    (hi : s.enc.idx.toNat + p.length ≤ 224) (htodo : p.length ≤ s.enc.todo.toNat)
    (hq : s.src.queue = p.map (fun b => some (some b)) ++ q) : run p.length s = .next (s.filled p q) := by
  induction p generalizing s with
  | nil => exact (run_zero s).trans (congrArg Host.Outcome.next (filled_nil hq).symm)
  | cons b p ih =>
    rw [List.length_cons] at hi htodo ⊢
    have hlt : s.enc.idx.toNat < 224 := by omega
    have hrest := ih (s := s.filled [b] (p.map (fun b => some (some b)) ++ q)) hturns hp
      (by rw [filled_idx (p := [b]) hlt, List.length_singleton]; omega)
      (by rw [filled_todo (p := [b]) (Nat.le_of_add_left_le htodo), List.length_singleton]; omega) rfl
    exact (run_succ (step_fillByte hturns hp ⟨hlt, by omega⟩ hq)).trans
      (hrest.trans (congrArg Host.Outcome.next (filled_cons _ hlt)))

end Fill

/-! ## ENC builds a frame -/

section Build
variable {s : State} {p : List Byte} {q : List (Option (Option Byte))}

/-- The next frame of the packet is ready to be emitted: it carries what `E.BUILD` writes of the packet string and
the payload bytes `p`. -/
def State.framed (c : Config) (p : List Byte) (q : List (Option (Option Byte))) (s : State) : State :=
  { s with
    src := ⟨q, s.src.tail⟩
    enc := { s.enc with
      fbuf := withParity c (carryingBuffer c s.enc.seq (leadingBytes c s.enc ++ p))
      seq := s.enc.seq + 1#16
      idx := 0#9
      first := false
      todo := s.enc.todo - BitVec.ofNat 16 p.length
      phase := .emit } }

theorem framed_eq_addParity (c : Config) (s : State) (p : List Byte) (q : List (Option (Option Byte))) :
    s.framed c p q =
      addParity c { (buildFrame c s).filled p q with
        enc := { ((buildFrame c s).filled p q).enc with phase := .parity } } := by
  rw [State.framed, carryingBuffer_append, ← builtBuffer_eq_carryingBuffer, ← buildFrame_idx]
  rfl

theorem step_addParity (hturns : s.turns = ⟨[], .always (some .enc)⟩) (hp : s.enc.phase = .parity) :
    step s = .next (addParity Config.given s) :=
  (step_eParity hturns hp).trans (whenSelected_pos hp)

/-- R161 to R163: one step builds the frame, one each pulls a byte, one finds the region full or the packet exhausted,
and one writes the parity. -/
theorem run_build (hturns : s.turns = ⟨[], .always (some .enc)⟩) (hp : s.enc.phase = .build)
    (hroom : (leadingBytes Config.given s.enc ++ p).length ≤ 220) (htodo : p.length ≤ s.enc.todo.toNat)
    (hfull : (leadingBytes Config.given s.enc ++ p).length = 220 ∨ p.length = s.enc.todo.toNat)
    (hq : s.src.queue = p.map (fun b => some (some b)) ++ q) :
    run (p.length + 3) s = .next (s.framed Config.given p q) := by
  rw [List.length_append] at hroom hfull
  have hidx := buildFrame_idx Config.given s
  have hsize : (buildFrame Config.given s).enc.idx.toNat + p.length ≤ 224 := by omega
  have hbuild : step s = .next (buildFrame Config.given s) := (step_eBuild hturns hp).trans (whenSelected_pos hp)
  have hfill : run p.length (buildFrame Config.given s) = .next ((buildFrame Config.given s).filled p q) :=
    run_fill p hturns rfl hsize htodo hq
  have hover : ¬ ((buildFrame Config.given s).filled p q).enc.pulls := by
    have hleft : ((buildFrame Config.given s).filled p q).enc.todo.toNat = s.enc.todo.toNat - p.length :=
      filled_todo htodo
    rw [Enc.pulls, filled_idx hsize, hleft]
    omega
  have hclose := step_fill_over (s := (buildFrame Config.given s).filled p q) hturns rfl hover
  rw [run_succ (k := p.length + 2) hbuild, run_add hfill, run_succ hclose, framed_eq_addParity]
  exact run_succ (step_addParity hturns rfl)

end Build

/-! ## ENC sends the frames of a packet -/

section Send
variable {s : State} {p : List Byte} {q : List (Option (Option Byte))}

/-- The bytes of the packet string that the next frame carries, on the wire with their header and parity. -/
def nextFrameBytes (s : State) (p : List Byte) : List Byte :=
  frameBytes (frameWith Config.given s.enc.seq (region (leadingBytes Config.given s.enc ++ p)))

/-- What the steps from `E.BUILD` to the last byte on the wire start from: ENC alone acts, in BUILD, with the payload
bytes `p` at hand, `q` behind them, and a transport that accepts. -/
structure ReadyToSend (p : List Byte) (q : List (Option (Option Byte))) (s : State) : Prop where
  turns : s.turns = ⟨[], .always (some .enc)⟩
  phase : s.enc.phase = .build
  tx : s.tx = acceptAll
  queue : s.src.queue = p.map (fun b => some (some b)) ++ q

/-- A full frame of an unfinished packet is on the wire, and the next one is built. -/
def State.frameSent (p : List Byte) (q : List (Option (Option Byte))) (s : State) : State :=
  { s with
    wire := s.wire ++ nextFrameBytes s p
    src := ⟨q, s.src.tail⟩
    enc := { (s.framed Config.given p q).enc with idx := 256#9, count := s.enc.count + 1#16, phase := .build } }

theorem framed_todo (h : p.length ≤ s.enc.todo.toNat) :
    (s.framed Config.given p q).enc.todo.toNat = s.enc.todo.toNat - p.length :=
  filled_todo (q := q) h

theorem frameSent_todo (h : p.length ≤ s.enc.todo.toNat) :
    (s.frameSent p q).enc.todo.toNat = s.enc.todo.toNat - p.length :=
  framed_todo (q := q) h

/-- R161 to R164: a full frame of an unfinished packet, from `E.BUILD` to the next `E.BUILD`. -/
theorem run_full_frame (hs : ReadyToSend p q s) (hfull : (leadingBytes Config.given s.enc ++ p).length = 220)
    (htodo : p.length < s.enc.todo.toNat) : run (p.length + 260) s = .next (s.frameSent p q) := by
  have hleft : 0 < (s.framed Config.given p q).enc.todo.toNat := by
    rw [framed_todo htodo.le]
    omega
  rw [run_add (j := p.length + 3) (k := 257) (run_build hs.turns hs.phase hfull.le htodo.le (.inl hfull) hs.queue),
    run_emit_frame (s := s.framed Config.given p q) hs.turns rfl hs.tx rfl hleft, State.frameSent, nextFrameBytes,
    ← frameBytes_of_buffer _ _ hfull.le]
  rfl

/-- R161 to R165: the last frame of a packet, from `E.BUILD` to the end of the command. -/
theorem run_last_frame (hs : ReadyToSend p q s) (hroom : (leadingBytes Config.given s.enc ++ p).length ≤ 220)
    (htodo : p.length = s.enc.todo.toNat) :
    run (p.length + 260) s = .next { s with
      wire := s.wire ++ nextFrameBytes s p
      src := ⟨q, s.src.tail⟩
      enc := { (s.framed Config.given p q).enc with
        idx := 256#9
        count := s.enc.count + 1#16
        res := ⟨.ok, s.enc.count + 1#16⟩
        phase := .idle
        rspDue := true } } := by
  have hleft : (s.framed Config.given p q).enc.todo.toNat = 0 := by
    rw [framed_todo htodo.le]
    omega
  rw [run_add (j := p.length + 3) (k := 257) (run_build hs.turns hs.phase hroom htodo.le (.inr htodo) hs.queue),
    run_emit_last_frame (s := s.framed Config.given p q) hs.turns rfl hs.tx rfl hleft, nextFrameBytes,
    ← frameBytes_of_buffer _ _ hroom]
  rfl

/-- What ENC's registers hold once a command has ended with `n` more frames sent (R165, R166). -/
def EndedAfter (n : Nat) (e e' : Enc) : Prop :=
  e'.phase = .idle ∧ e'.rspDue = true ∧ e'.res = ⟨.ok, e.count + BitVec.ofNat 16 n⟩ ∧
    e'.seq = e.seq + BitVec.ofNat 16 n

theorem endedAfter_frameSent {n : Nat} {e : Enc} (h : EndedAfter n (s.frameSent p q).enc e) :
    EndedAfter (n + 1) s.enc e := by
  obtain ⟨hphase, hdue, hres, hseq⟩ := h
  refine ⟨hphase, hdue, hres.trans (congrArg _ ?_), hseq.trans ?_⟩
  · exact add_one_add_ofNat s.enc.count n
  · exact add_one_add_ofNat s.enc.seq n

/-- R169: the frames of a string whose first 220 bytes fill a region. -/
theorem framesOf_full {c : Config} {seq : Half} {bs cs : List Byte} (n : Nat) (h : bs.length = 220) :
    framesOf c (n + 1) seq (bs ++ cs) = frameWith c seq (region bs) :: framesOf c n (seq + 1#16) cs := by
  rw [framesOf, region_append h, List.drop_left' h]

theorem wireImage_cons (f : Frame) (fs : List Frame) : wireImage (f :: fs) = frameBytes f ++ wireImage fs := rfl

/-- R108: of a packet string longer than a region, the payload bytes that fill the region and those behind them. -/
theorem exists_split_at_region {e : Enc} (h : 220 ≤ (leadingBytes Config.given e ++ p).length) :
    ∃ p₁ p₂, p = p₁ ++ p₂ ∧ (leadingBytes Config.given e ++ p₁).length = 220 := by
  have hlead := leadingBytes_length_le Config.given e
  refine ⟨_, _, (List.take_append_drop (220 - (leadingBytes Config.given e).length) p).symm, ?_⟩
  rw [List.length_append] at h ⊢
  rw [List.length_take]
  omega

/-- R165, R169: from `E.BUILD` on, the frames that carry what is left of the packet string go out one after another. -/
theorem run_packet (n : Nat) (hs : ReadyToSend p q s) (htodo : p.length = s.enc.todo.toNat)
    (hmore : 220 * n < (leadingBytes Config.given s.enc ++ p).length)
    (hfit : (leadingBytes Config.given s.enc ++ p).length ≤ 220 * (n + 1)) :
    ∃ k e, k ≤ 480 * (n + 1) ∧ EndedAfter (n + 1) s.enc e ∧
      run k s = .next { s with
        wire := s.wire ++
          wireImage (framesOf Config.given (n + 1) s.enc.seq (leadingBytes Config.given s.enc ++ p))
        src := ⟨q, s.src.tail⟩
        enc := e } := by
  induction n generalizing s p with
  | zero =>
    have hwire : wireImage (framesOf Config.given 1 s.enc.seq (leadingBytes Config.given s.enc ++ p)) =
        nextFrameBytes s p := List.append_nil _
    refine ⟨p.length + 260, _, ?_, ⟨rfl, rfl, rfl, rfl⟩, hwire ▸ run_last_frame hs hfit htodo⟩
    rw [List.length_append] at hfit
    omega
  | succ n ih =>
    obtain ⟨p₁, p₂, rfl, hfull⟩ := exists_split_at_region (e := s.enc) (p := p) (by omega)
    rw [← List.append_assoc, List.length_append, hfull] at hmore hfit
    rw [List.length_append] at htodo
    have hs₁ : ReadyToSend p₁ (p₂.map (fun b => some (some b)) ++ q) s :=
      ⟨hs.turns, hs.phase, hs.tx, by rw [hs.queue, List.map_append, List.append_assoc]⟩
    have hfirst := run_full_frame hs₁ hfull (by omega)
    have hs₂ : ReadyToSend p₂ q (s.frameSent p₁ (p₂.map (fun b => some (some b)) ++ q)) :=
      ⟨hs.turns, rfl, hs.tx, rfl⟩
    have hleft : p₂.length = (s.frameSent p₁ (p₂.map (fun b => some (some b)) ++ q)).enc.todo.toNat := by
      rw [frameSent_todo (by omega)]
      omega
    obtain ⟨k, e, hk, hended, hrun⟩ := ih hs₂ hleft (show 220 * n < p₂.length by omega)
      (show p₂.length ≤ 220 * (n + 1) by omega)
    refine ⟨p₁.length + 260 + k, e, ?_, endedAfter_frameSent hended, (run_add hfirst).trans (hrun.trans ?_)⟩
    · rw [List.length_append] at hfull
      omega
    · rw [← List.append_assoc, framesOf_full _ hfull, wireImage_cons, ← List.append_assoc s.wire]
      rfl

end Send

/-! ## A command, from its acceptance to its response -/

section Command
variable {s : State}

/-- A legal command of ENC is accepted, and `cmds` still wait (R160). -/
def State.accepted (h : PacketHeader) (cmds : List PacketHeader) (s : State) : State :=
  { s with
    encCmd := cmds
    enc := { s.enc with
      hdr := h, res := ⟨.none, 0⟩, todo := payloadCount h.len, first := true, count := 0, phase := .build } }

theorem turnNow_of_encOnly (hturns : s.turns = ⟨[], .always (some .enc)⟩) : s.turnNow = some .enc := by
  rw [State.turnNow, hturns]
  rfl

theorem pop_turns_of_encOnly (hturns : s.turns = ⟨[], .always (some .enc)⟩) : s.turns.pop = s.turns := by
  rw [hturns]
  rfl

theorem step_command {h : PacketHeader} {cmds : List PacketHeader} (hturns : s.turns = ⟨[], .always (some .enc)⟩)
    (hp : s.enc.phase = .idle) (hd : s.enc.rspDue = false) (hcmd : s.encCmd = h :: cmds) (hlen : 14 ≤ h.len.toNat) :
    step s = .next (s.accepted h cmds) := by
  obtain ⟨_, _, _, _, _, hcommand⟩ := encPhaseSelectsStep s (turnNow_of_encOnly hturns)
  rw [hcommand h cmds hp hd hcmd, pop_turns_of_encOnly hturns]
  exact (exec_encode_of_ready (s := { s with encCmd := cmds }) hp hd).trans
    (congrArg Host.Outcome.next (acceptEncode_of_legal hlen))

theorem step_response (hturns : s.turns = ⟨[], .always (some .enc)⟩) (hp : s.enc.phase = .idle)
    (hd : s.enc.rspDue = true) (hrsp : s.encRsp = alwaysReady) :
    step s = .next { s with enc := { s.enc with rspDue := false }, encRsps := s.encRsps ++ [s.enc.res] } := by
  have hready : s.encRspReady := by
    rw [State.encRspReady, hrsp]
    rfl
  have hpop : s.encRsp.pop = s.encRsp := by
    rw [hrsp]
    rfl
  obtain ⟨hmade, _⟩ := dueResponsesAreMade s
  rw [hmade (turnNow_of_encOnly hturns) hp hd hready, pop_turns_of_encOnly hturns, hpop]

end Command

/-- R170: the number of frames is that of the regions which a packet string of this length begins. -/
theorem frameCount_eq_succ {len : Nat} (h : 0 < len) :
    ∃ n, frameCount len = n + 1 ∧ 220 * n < len ∧ len ≤ 220 * (n + 1) := by
  refine ⟨(len - 1) / 220, ?_, ?_, ?_⟩
  · rw [frameCount]
    omega
  · omega
  · omega

/-- Settles O42: the command is accepted in one step, its frames go out, and one step makes the response. -/
theorem encoderSendsFrames : Obligations.EncoderSendsFrames := by
  intro s h cmds payload more hlen hp hd hcmd hq htx hrsp hturns
  have h14 : 14 ≤ h.len.toNat := by omega
  obtain ⟨n, hcount, hmore, hfit⟩ := frameCount_eq_succ (len := h.len.toNat) (by omega)
  have hready : ReadyToSend payload more (s.accepted h cmds) := ⟨hturns, rfl, htx, hq⟩
  have htodo : payload.length = (s.accepted h cmds).enc.todo.toNat := by
    rw [State.accepted, payloadCount_toNat h14]
    omega
  have hstring : (leadingBytes Config.given (s.accepted h cmds).enc ++ payload).length = h.len.toNat := by
    rw [List.length_append, hlen, Nat.add_comm]
    rfl
  obtain ⟨k, e, hk, ⟨hphase, hdue, hres, hseq⟩, hrun⟩ :=
    run_packet n hready htodo (hstring.symm ▸ hmore) (hstring.symm ▸ hfit)
  have hframes : frames Config.given h payload s.enc.seq =
      framesOf Config.given (n + 1) s.enc.seq (leadingBytes Config.given (s.accepted h cmds).enc ++ payload) := by
    rw [frames, hcount]
    rfl
  have hwhole : run (k + 1 + 1) s = .next { s with
      wire := s.wire ++ wireImage (frames Config.given h payload s.enc.seq)
      src := ⟨more, s.src.tail⟩
      encCmd := cmds
      enc := { e with rspDue := false }
      encRsps := s.encRsps ++ [e.res] } := by
    rw [run_succ (step_command hturns hp hd hcmd h14), run_add hrun, hframes]
    exact run_succ (step_response hturns hphase hdue hrsp)
  have hres' : e.res = ⟨.ok, BitVec.ofNat 16 (n + 1)⟩ := hres.trans (congrArg _ (BitVec.zero_add _))
  rw [hcount]
  exact ⟨k + 1 + 1, _, by omega, hwhole, hphase, rfl, rfl, rfl, by rw [hres'], hseq, rfl, rfl⟩

end Sys2Proof.Machine
end

section
/-! Words and operations (R101 to R103, R109 to R115): each reader of a word, on its own lines, reads an operation
exactly from that operation's own bytes. From this the two directions of the decoder follow, and the words that the spec
writes out. -/

namespace Sys2Proof

/-! ## What the readers of bytes accept -/

/-- R100, R101: there is one frame length. -/
theorem frame_wellFormed_iff (f : Frame) : f.wellFormed = true ↔ f.data.length = 220 ∧ f.parity.length = 32 := by
  simp [Frame.wellFormed]

/-- R101: the word of a well-formed frame is the 257 bytes of its wire frame. -/
theorem frameBytes_length {f : Frame} (hf : f.wellFormed = true) : (frameBytes f).length = 257 :=
  Laws.EncodedSize.frame f hf

/-- R101: a wire frame is read back from its bytes. -/
theorem frameOf_frameBytes {f : Frame} (hf : f.wellFormed = true) : frameOf (frameBytes f) = some f := by
  obtain ⟨hdata, hparity⟩ := (frame_wellFormed_iff f).mp hf
  simp [frameBytes, frameHdrBytes, be16, frameOf, hdata, hparity]

/-- R101: a frame that was read is well formed, and its wire bytes are those it was read from. -/
theorem frameBytes_of_frameOf {bs : List Byte} {f : Frame} (hbs : frameOf bs = some f) :
    f.wellFormed = true ∧ frameBytes f = bs := by
  unfold frameOf at hbs
  split at hbs
  next p k v s1 s0 rest =>
    split at hbs
    next hpat =>
      obtain ⟨rfl, rfl, hlen⟩ := hpat
      cases hbs
      refine ⟨?_, ?_⟩
      · simp [frame_wellFormed_iff, hlen]
      · simp [frameBytes, frameHdrBytes, be16_of16]
    next => cases hbs
  next => cases hbs

/-- R100, R101: bytes of any other number are no wire frame. -/
theorem frameOf_of_length_ne {bs : List Byte} (hlen : bs.length ≠ 257) : frameOf bs = none := by
  cases hf : frameOf bs with
  | none => rfl
  | some f =>
    obtain ⟨hwf, rfl⟩ := frameBytes_of_frameOf hf
    exact absurd (frameBytes_length hwf) hlen

/-! ## The wire patterns (R101 to R103) -/

theorem decodeWire_frameBytes {f : Frame} (hf : f.wellFormed = true) :
    decodeWire (frameBytes f) = .ok (.frame f) := by
  have hlen := frameBytes_length hf
  unfold decodeWire
  split
  next h => simp [h] at hlen
  next h => simp [h] at hlen
  next => rw [frameOf_frameBytes hf]

theorem decodeWire_pktHdrBytes (v : Byte) (h : PacketHeader) :
    decodeWire (pktHdrBytes v h) = .ok (.pktHdr v h) := by
  have hlen : (pktHdrBytes v h).length = 14 := rfl
  unfold decodeWire
  split
  next hbs => simp [hbs] at hlen
  next hbs => simp [hbs] at hlen
  next =>
    rw [frameOf_of_length_ne (by omega)]
    simp only [pktHdrBytes, headerOf_headerBytes]

/-- R109: a pattern that was read from wire bytes is well formed, and its own word is those bytes on the wire. -/
theorem encode_of_decodeWire {bs : List Byte} {i : Instr} (hd : decodeWire bs = .ok i) :
    i.wellFormed = true ∧ encode i = ⟨.wire, bs⟩ := by
  unfold decodeWire at hd
  split at hd
  case h_1 b =>
    split at hd
    next hb => cases hd; cases hb; exact ⟨rfl, rfl⟩
    next =>
      split at hd
      next hb => cases hd; cases hb; exact ⟨rfl, rfl⟩
      next => cases hd
  case h_2 k v s1 s0 =>
    split at hd
    next hk =>
      cases hd
      cases hk
      exact ⟨rfl, by rw [encode, frameHdrBytes, be16_of16]⟩
    next => cases hd
  case h_3 =>
    split at hd
    next f hf =>
      cases hd
      obtain ⟨hwf, hbytes⟩ := frameBytes_of_frameOf hf
      exact ⟨hwf, congrArg _ hbytes⟩
    next =>
      split at hd
      next => cases hd
      next v rest =>
        split at hd
        next h hh =>
          cases hd
          exact ⟨rfl, by rw [encode, pktHdrBytes, headerBytes_of_headerOf hh]⟩
        next => cases hd

/-! ## The control codes (R111) -/

theorem encode_of_decodeEncPhase {code : Nat} {i : Instr} (hd : decodeEncPhase code = .ok i) :
    i.wellFormed = true ∧ encode i = ⟨.encPhase, [BitVec.ofNat 8 code]⟩ := by
  unfold decodeEncPhase at hd
  split at hd
  case h_5 => cases hd
  all_goals
    cases hd
    exact ⟨rfl, rfl⟩

/-- R115: the condition on `DEC.IDX` and `DEC.REM` stands in the word of `D.STREAM` alone. -/
theorem encode_of_decodeDecPhase {more : Bool} {code : Nat} {i : Instr} (hd : decodeDecPhase more code = .ok i) :
    i.wellFormed = true ∧ encode i = ⟨.decPhase (decide (i = .dStream)), [BitVec.ofNat 8 code]⟩ := by
  unfold decodeDecPhase at hd
  split at hd
  case h_4 => cases more <;> cases hd <;> exact ⟨rfl, rfl⟩
  case h_7 => cases hd
  all_goals
    cases hd
    exact ⟨rfl, rfl⟩

/-! ## The event word (R113) -/

theorem decodeEvent_of_valid (valid : Bool) (h : PacketHeader) :
    decodeEvent (BitVec.ofNat 8 valid.toNat :: headerBytes h) = .ok (.evtPacket valid h) := by
  cases valid <;> simp [decodeEvent]

theorem encode_of_decodeEvent {bs : List Byte} {i : Instr} (hd : decodeEvent bs = .ok i) :
    i.wellFormed = true ∧ encode i = ⟨.evt, bs⟩ := by
  unfold decodeEvent at hd
  split at hd
  next => cases hd
  next d rest =>
    split at hd
    next => cases hd
    next h hh =>
      rw [← headerBytes_of_headerOf hh]
      split at hd
      next hd0 => cases hd; cases hd0; exact ⟨rfl, rfl⟩
      next =>
        split at hd
        next hd1 => cases hd; cases hd1; exact ⟨rfl, rfl⟩
        next => cases hd

/-! ## The statements about words -/

/-- Settles O2, by the operation: one without operands has one word, and the others are read back by the reader of their
lines. -/
theorem decodeOfEncode : Obligations.DecodeOfEncode := by
  intro i hwf
  cases i with
  | encode h => exact Machine.decode_command h
  | decodeStream | encReset | decReset => rfl
  | eBuild | eFill | eParity | eEmit => rfl
  | dSync | dBody | dValidate | dDispatchHdr | dDispatchData | dStream | dStreamEnd => rfl
  | syncPrefix | syncCont => rfl
  | frameHdr v n => simp [encode, frameHdrBytes, be16, decode, decodeWire]
  | pktHdr v h => exact decodeWire_pktHdrBytes v h
  | frame f => exact decodeWire_frameBytes hwf
  | evtPacket valid h => exact decodeEvent_of_valid valid h

/-- On every line but DEC's phase register, an operation's own word is the word it was read from. -/
theorem encode_of_decode {w : OpWord} {i : Instr} (hsel : ∀ more, w.sel ≠ .decPhase more) (hd : decode w = .ok i) :
    i.wellFormed = true ∧ encode i = w := by
  obtain ⟨sel, bs⟩ := w
  cases sel with
  | encCmd =>
    simp only [decode] at hd
    split at hd
    next h hh =>
      cases hd
      exact ⟨rfl, congrArg _ (headerBytes_of_headerOf hh)⟩
    next => cases hd
  | decCmd | encReset | decReset =>
    simp only [decode] at hd
    split at hd
    next hbs => cases hd; cases hbs; exact ⟨rfl, rfl⟩
    next => cases hd
  | encPhase =>
    simp only [decode] at hd
    split at hd
    next => simpa using encode_of_decodeEncPhase hd
    next => cases hd
  | decPhase more => exact absurd rfl (hsel more)
  | wire => exact encode_of_decodeWire hd
  | evt => exact encode_of_decodeEvent hd

/-- On DEC's phase register the bytes are the same, and the condition bit is the operation's own. -/
theorem encode_of_decode_decPhase {more : Bool} {bs : List Byte} {i : Instr}
    (hd : decode ⟨.decPhase more, bs⟩ = .ok i) :
    i.wellFormed = true ∧ encode i = ⟨.decPhase (decide (i = .dStream)), bs⟩ := by
  simp only [decode] at hd
  split at hd
  next => simpa using encode_of_decodeDecPhase hd
  next => cases hd

/-- Settles O3: the condition bit of DEC's phase register is the one part of a word that its operation may change. -/
theorem encodeOfDecode : Obligations.EncodeOfDecode := by
  rintro ⟨sel, bs⟩ i hd
  by_cases hsel : ∃ more, sel = .decPhase more
  · obtain ⟨more, rfl⟩ := hsel
    obtain ⟨hwf, hword⟩ := encode_of_decode_decPhase hd
    exact ⟨hwf, by rw [hword], .inr ⟨more, _, rfl, congrArg OpWord.sel hword⟩⟩
  · obtain ⟨hwf, hword⟩ := encode_of_decode (fun more hmore => hsel ⟨more, hmore⟩) hd
    exact ⟨hwf, congrArg OpWord.bytes hword, .inl (congrArg OpWord.sel hword)⟩

/-- Settles O1: but for the code that is refused, each word is the word of its operation, so it is read back. -/
theorem knownWordsDecode : Obligations.KnownWordsDecode :=
  ⟨decodeOfEncode .eBuild rfl, decodeOfEncode .eEmit rfl, rfl, decodeOfEncode .dSync rfl,
    decodeOfEncode .dDispatchHdr rfl, decodeOfEncode .dDispatchData rfl, decodeOfEncode .dStream rfl,
    decodeOfEncode .dStreamEnd rfl, decodeOfEncode .syncPrefix rfl, decodeOfEncode .syncCont rfl,
    decodeOfEncode (.frameHdr 0x01#8 0x1234#16) rfl,
    decodeOfEncode (.encode ⟨0x07#8, 17#16, 0xFFFFFFFF#32, 1#32, 0x1234#16⟩) rfl⟩

/-- Settles O58: the codes of the tables of R111, R112 and R270, one table a part. -/
theorem controlCodes : Obligations.ControlCodes :=
  ⟨rfl, rfl, rfl, rfl, rfl, rfl, rfl⟩

end Sys2Proof
end

section
/-! The frames of a packet (R100 to R102, R108, R169, R170): how many there are, and what each of them looks like. -/

namespace Sys2Proof.Machine

/-- Settles O57: the least number of regions, and the corners of R170 by their values. -/
theorem frameCountLaw : Obligations.FrameCountLaw := by
  refine ⟨fun len => ?_, rfl, rfl, rfl, rfl, rfl, rfl, rfl, rfl⟩
  rcases Nat.eq_zero_or_pos len with rfl | hpos
  · exact ⟨Nat.zero_le _, fun h => absurd h (Nat.lt_irrefl 0)⟩
  · obtain ⟨n, hcount, hmore, hfit⟩ := frameCount_eq_succ hpos
    rw [hcount]
    exact ⟨hfit, fun _ => hmore⟩

section Frames
variable {c : Config} {seq : Half} {d : List Byte}

/-- R100, R106: a region and the parity over it make a frame of the one length. -/
theorem frameWith_region_wellFormed (c : Config) (seq : Half) (d : List Byte) :
    (frameWith c seq (region d)).wellFormed = true := by
  rw [frame_wellFormed_iff]
  exact ⟨region_length d, List.length_ofFn⟩

/-- R101, R102: the sync pair and the frame header. -/
theorem take_frameBytes (f : Frame) : (frameBytes f).take 5 =
    [0xAA#8, 0x5A#8, f.version, f.seq.extractLsb' 8 8, f.seq.extractLsb' 0 8] := rfl

theorem framesOf_length (c : Config) (n : Nat) (seq : Half) (d : List Byte) : (framesOf c n seq d).length = n := by
  induction n generalizing seq d with
  | zero => rfl
  | succ n ih => rw [framesOf, List.length_cons, ih]

/-- R169: frame `k` carries the `k`-th region of the string, under the `k`-th number. -/
theorem framesOf_getElem? {n k : Nat} (hk : k < n) : (framesOf c n seq d)[k]? =
    some (frameWith c (seq + BitVec.ofNat 16 k) (region (d.drop (220 * k)))) := by
  induction n generalizing k seq d with
  | zero => omega
  | succ n ih =>
    rw [framesOf]
    cases k with
    | zero => simp
    | succ k =>
      have hnumber : seq + 1#16 + BitVec.ofNat 16 k = seq + BitVec.ofNat 16 (k + 1) := add_one_add_ofNat seq k
      have hplace : dataRegionSize + 220 * k = 220 * (k + 1) := by rw [Nat.mul_succ, Nat.add_comm]
      rw [List.getElem?_cons_succ, ih (by omega), hnumber, List.drop_drop, hplace]

/-- R169: every frame carries some region, under the number of its place. -/
theorem exists_eq_frameWith {n k : Nat} {f : Frame} (hf : (framesOf c n seq d)[k]? = some f) :
    ∃ g, f = frameWith c (seq + BitVec.ofNat 16 k) (region g) := by
  obtain ⟨hk, -⟩ := List.getElem?_eq_some_iff.mp hf
  rw [framesOf_length] at hk
  rw [framesOf_getElem? hk] at hf
  exact ⟨_, (Option.some.inj hf).symm⟩

/-- R61, R100: well-formed frames are 257 bytes each on the wire. -/
theorem wireImage_length {fs : List Frame} (h : ∀ f ∈ fs, f.wellFormed = true) :
    (wireImage fs).length = 257 * fs.length := by
  induction fs with
  | nil => rfl
  | cons f fs ih =>
    obtain ⟨hf, hfs⟩ := List.forall_mem_cons.mp h
    rw [wireImage_cons, List.length_append, frameBytes_length hf, ih hfs, List.length_cons]
    omega

end Frames

/-- Settles O56: every frame of a packet is made of a region under its number, and so has the one length. -/
theorem frameGeometry : Obligations.FrameGeometry := by
  intro c h payload seq
  have hcount : (frames c h payload seq).length = frameCount h.len.toNat := framesOf_length _ _ _ _
  refine ⟨hcount, ?_, fun k f hf => ?_⟩
  · rw [wireImage_length, hcount]
    intro f hf
    obtain ⟨k, hk⟩ := List.mem_iff_getElem?.mp hf
    obtain ⟨g, rfl⟩ := exists_eq_frameWith hk
    exact frameWith_region_wellFormed _ _ g
  · obtain ⟨g, rfl⟩ := exists_eq_frameWith hf
    have hwf := frameWith_region_wellFormed c (seq + BitVec.ofNat 16 k) g
    exact ⟨hwf, frameBytes_length hwf, take_frameBytes _⟩

end Sys2Proof.Machine
end

section
/-! Frame synchronisation (R140, R141, R145, R147): the scanner on one byte, on a run of `0xAA` bytes, and behind it. -/

namespace Sys2Proof.Machine

/-- Settles O16: the one pair that matches, and where every other pair goes on. -/
theorem scannerTable : Obligations.ScannerTable := by
  intro b
  refine ⟨?lead, ?noise, ?pattern, ?secondLead, ?broken⟩
  case lead => rintro rfl; exact scan_of_no_match (by decide)
  case noise => intro hb; simpa [hb] using scan_of_no_match (t := .hunt) (b := b) (by simp)
  case pattern => exact fun hb => scan_eq_matched_iff.mpr ⟨rfl, hb⟩
  case secondLead => rintro rfl; exact scan_of_no_match (by decide)
  case broken => intro hb; simpa using scan_of_no_match (t := .gotAA) (b := b) (fun h => hb h.2)

section Run
variable {t t' : Scan} {n : Nat} {b : Byte} {bs : List Byte}

theorem syncFrom_cons_of_match (h : scan t b = .matched) : syncFrom t n (b :: bs) = some (n + 1, bs) := by
  rw [syncFrom, h]

theorem syncFrom_cons_of_stay (h : scan t b = .stay t') : syncFrom t n (b :: bs) = syncFrom t' (n + 1) bs := by
  rw [syncFrom, h]

/-- R145: the state behind a run of `k` bytes `0xAA` is told by the parity of `k`. The run grows at its end, where the
scanner has read the rest of it. -/
theorem syncFrom_hunt_replicate_append (k n : Nat) (bs : List Byte) :
    syncFrom .hunt n (List.replicate k 0xAA#8 ++ bs) =
      syncFrom (if k % 2 = 1 then .gotAA else .hunt) (n + k) bs := by
  induction k generalizing bs with
  | zero => rfl
  | succ k ih =>
    obtain ⟨lead, -, -, secondLead, -⟩ := scannerTable 0xAA#8
    rw [List.replicate_succ', List.append_assoc, List.singleton_append, ih]
    rcases Nat.mod_two_eq_zero_or_one k with heven | hodd
    · have hnext : (k + 1) % 2 = 1 := by omega
      rw [if_neg (by omega), if_pos hnext, syncFrom_cons_of_stay (lead rfl), Nat.add_assoc]
    · have hnext : (k + 1) % 2 ≠ 1 := by omega
      rw [if_pos hodd, if_neg hnext, syncFrom_cons_of_stay (secondLead rfl), Nat.add_assoc]

end Run

/-- Settles O43: behind the run the scanner is in GOT_AA or in HUNT, by the parity, and then reads one byte more. -/
theorem syncNeedsOddRun : Obligations.SyncNeedsOddRun := by
  intro k n b rest hb
  obtain ⟨-, noise, pattern, -, broken⟩ := scannerTable b
  rw [syncFrom_hunt_replicate_append]
  by_cases hodd : k % 2 = 1
  · by_cases h5A : b = 0x5A#8
    · rw [if_pos hodd, if_pos ⟨hodd, h5A⟩, syncFrom_cons_of_match (pattern h5A)]
    · rw [if_pos hodd, if_neg (fun h => h5A h.2), syncFrom_cons_of_stay (broken h5A)]
  · rw [if_neg hodd, if_neg (fun h => hodd h.1), syncFrom_cons_of_stay (noise hb)]

/-- Settles O44: the examples are literal byte strings, so the scanner is run on each of them. -/
theorem syncFindValues : Obligations.SyncFindValues :=
  ⟨rfl, rfl, rfl, rfl, rfl, rfl, rfl, rfl, rfl⟩

end Sys2Proof.Machine
end

section
/-! The round trip (R169, R214, R215, R253): DEC takes a clean frame back to the region it carries, the regions of a
packet back to its payload, and so the wire image of a packet to its payload and one event. -/

namespace Sys2Proof.Machine

/-! ## A clean frame -/

/-- R106, R250: the bytes that the parity of a frame is computed over: version, sequence number and data region. -/
def messageBytes (c : Config) (seq : Half) (g : List Byte) : List Byte := c.protocolVersion :: be16 seq ++ g

/-- The FEC message of 223 bytes (R250). -/
def messageFrom (bs : List Byte) : Message := fun i => bs.getD i.val 0x00#8

section CleanFrame
variable {c : Config} {seq : Half} {g bs rest : List Byte}

/-- R101, R106: a frame on the wire is the sync pair, the message and the parity of the message. -/
theorem frameBytes_frameWith (c : Config) (seq : Half) (g : List Byte) :
    frameBytes (frameWith c seq g) =
      0xAA#8 :: 0x5A#8 :: (messageBytes c seq g ++ List.ofFn (c.fecEncode (messageFrom (messageBytes c seq g)))) := rfl

theorem messageBytes_length (hg : g.length = 220) : (messageBytes c seq g).length = 223 := by
  rw [messageBytes, List.length_append, hg]
  rfl

theorem ofFn_messageFrom (hbs : bs.length = 223) : List.ofFn (messageFrom bs) = bs :=
  List.ext_getElem (by rw [List.length_ofFn, hbs]) fun i _ hi => by
    rw [List.getElem_ofFn, messageFrom, List.getD_eq_getElem _ _ hi]

/-- R250: the codeword read from a message and its parity is theirs, whatever follows. -/
theorem getD_read_eq_codewordOf (hbs : bs.length = 223) (q : Parity) :
    (fun j : Fin 255 => (bs ++ List.ofFn q ++ rest).getD j.val 0x00#8) = codewordOf (messageFrom bs) q := by
  funext j
  have hj := j.isLt
  have hlen : (bs ++ List.ofFn q).length = 255 := by rw [List.length_append, hbs, List.length_ofFn]
  rw [List.getD_append _ _ _ _ (by omega), codewordOf]
  by_cases hm : j.val < 223
  · rw [dif_pos hm, List.getD_append _ _ _ _ (by omega), messageFrom]
  · rw [dif_neg hm, List.getD_append_right _ _ _ _ (by omega),
      List.getD_eq_getElem _ _ (by rw [List.length_ofFn]; omega), List.getElem_ofFn]
    exact congrArg q (Fin.ext (congrArg (j.val - ·) hbs))

/-- R147: in HUNT the sync pair is found at once. -/
theorem syncFrom_hunt_syncPair (n : Nat) (bs : List Byte) :
    syncFrom .hunt n (0xAA#8 :: 0x5A#8 :: bs) = some (n + 2, bs) := rfl

/-- R214, R253: with a codec that has P1, a clean frame is found, corrected to itself and accepted, and its data region
is taken in. -/
theorem decodeFrames_cleanFrame (hc : c.CleanCodeword) (hg : g.length = 220) (fuel : Nat) (d : Decoded)
    (sink : List Bool) :
    decodeFrames c (fuel + 1) d sink (frameBytes (frameWith c seq g) ++ rest) =
      decodeFrames c fuel (takeRegion d sink g).1 (takeRegion d sink g).2 rest := by
  have hm := messageBytes_length (c := c) (seq := seq) hg
  have hbody : (messageBytes c seq g ++ List.ofFn (c.fecEncode (messageFrom (messageBytes c seq g)))).length = 255 := by
    rw [List.length_append, hm, List.length_ofFn]
  have hversion : messageFrom (messageBytes c seq g) 0 = c.protocolVersion := rfl
  have hregion : (List.ofFn (messageFrom (messageBytes c seq g))).drop 3 = g := by
    rw [ofFn_messageFrom hm]
    rfl
  rw [frameBytes_frameWith, List.cons_append, List.cons_append, decodeFrames, syncFrom_hunt_syncPair]
  simp only [getD_read_eq_codewordOf hm, hc (messageFrom (messageBytes c seq g)), hversion, hregion, if_true]
  rw [if_neg (by rw [List.length_append, hbody]; exact Nat.not_lt.mpr (Nat.le_add_right _ _)), List.drop_left' hbody]

end CleanFrame

/-! ## The regions of a packet -/

section Regions
variable {h : PacketHeader} {lead p : List Byte}

/-- A sink that accepts everything takes every byte (R205). -/
theorem deliver_all (bs : List Byte) : deliver [] bs = (bs, [], true) := by
  cases bs <;> rfl

/-- R206: a frame that holds all that is left of a packet closes it. -/
theorem reassemble_closes (d : Decoded) {part : List Byte} {rem : Nat} (hrem : rem ≤ part.length) :
    reassemble d [] h rem part = (⟨d.sunk ++ part.take rem, d.events ++ [⟨h, true⟩], none⟩, []) := by
  simp only [reassemble, deliver_all, if_true, if_pos hrem]

/-- R205, R206: a frame that holds less is delivered whole, and the rest is awaited. -/
theorem reassemble_continues (d : Decoded) {part : List Byte} {rem : Nat} (hrem : part.length < rem) :
    reassemble d [] h rem part = (⟨d.sunk ++ part, d.events, some (h, rem - part.length)⟩, []) := by
  simp only [reassemble, deliver_all, if_true, if_neg (Nat.not_le.mpr hrem), List.take_of_length_le hrem.le]

/-- A region begins with what it is to carry, as far as that fits. -/
theorem take_region (hlead : lead.length ≤ 220) (p : List Byte) : (region (lead ++ p)).take lead.length = lead := by
  have hfit : lead.length ≤ ((lead ++ p).take 220).length := by
    rw [List.length_take, List.length_append]
    omega
  rw [region, List.take_append_of_le_length hfit, List.take_take, Nat.min_eq_left hlead, List.take_left]

/-- R103, R203: the header that DEC reads from the first region of a packet is the packet's. -/
theorem headerOf_region (v : Byte) (h : PacketHeader) (p : List Byte) :
    headerOf (((region (pktHdrBytes v h ++ p)).drop 1).take 13) = some h := by
  have hlead := take_region (lead := pktHdrBytes v h) (by decide : 14 ≤ 220) p
  rw [List.take_drop, show 1 + 13 = (pktHdrBytes v h).length from rfl, hlead]
  exact headerOf_headerBytes h

/-- The next region carries a lead that DEC does not deliver (the secondary header, or nothing) and then payload, of
which DEC awaits the whole. -/
def Expects (h : PacketHeader) (lead p : List Byte) (d : Decoded) : Prop :=
  takeRegion d [] (region (lead ++ p)) = reassemble d [] h p.length ((region (lead ++ p)).drop lead.length)

/-- R203: awaiting no payload, DEC expects the secondary header and the payload that it declares. -/
theorem expects_packet (hlen : h.len.toNat = p.length + 14) (v : Byte) (sunk : List Byte) (events : List Event) :
    Expects h (pktHdrBytes v h) p ⟨sunk, events, none⟩ := by
  have hlegal : ¬ h.len.toNat < 14 := by omega
  simp only [Expects, takeRegion, headerOf_region, if_neg hlegal]
  rw [hlen, Nat.add_sub_cancel]
  rfl

/-- R204: awaiting payload, DEC expects it from the first byte of the region. -/
theorem expects_payload (h : PacketHeader) (p sunk : List Byte) (events : List Event) :
    Expects h [] p ⟨sunk, events, some (h, p.length)⟩ := rfl

/-- R105: in a region that holds all of it, what follows the lead begins with it. -/
theorem take_drop_region (hfit : (lead ++ p).length ≤ 220) :
    ((region (lead ++ p)).drop lead.length).take p.length = p := by
  rw [region_of_le hfit, List.append_assoc, List.drop_left, List.take_left]

/-- A string longer than a region begins with one that fills it, and the region carries that one alone. -/
theorem exists_prefix_fills_region (hlead : lead.length ≤ 220) (h : 220 ≤ (lead ++ p).length) :
    ∃ p₁ p₂, p = p₁ ++ p₂ ∧ (lead ++ p₁).length = 220 ∧ (region (lead ++ p₁)).drop lead.length = p₁ := by
  have hfull : (lead ++ p.take (220 - lead.length)).length = 220 := by
    rw [List.length_append] at h ⊢
    rw [List.length_take]
    omega
  refine ⟨_, _, (List.take_append_drop (220 - lead.length) p).symm, hfull, ?_⟩
  rw [region_of_le hfull.le, hfull, List.append_assoc, List.drop_left]
  exact List.append_nil _

end Regions

/-! ## A packet -/

section Packet
variable {c : Config} {h : PacketHeader} {seq : Half} {lead p : List Byte} {d : Decoded}

/-- R214: a session whose input is over is over. -/
theorem decodeFrames_nil (c : Config) (fuel : Nat) (d : Decoded) (sink : List Bool) :
    decodeFrames c fuel d sink [] = (d, .endEosSync) := by
  cases fuel <;> rfl

/-- R205, R206, R214: the frames that carry a packet string deliver its payload, and the last of them closes the packet.
The frames behind the first carry the rest of the payload, without a lead. -/
theorem decodeFrames_framesOf (hc : c.CleanCodeword) (n : Nat) {fuel : Nat} (hfuel : n < fuel)
    (hlead : lead.length ≤ 220) (hd : Expects h lead p d) (hmore : 220 * n < (lead ++ p).length)
    (hfit : (lead ++ p).length ≤ 220 * (n + 1)) :
    decodeFrames c fuel d [] (wireImage (framesOf c (n + 1) seq (lead ++ p))) =
      (⟨d.sunk ++ p, d.events ++ [⟨h, true⟩], none⟩, .endEosSync) := by
  induction n generalizing fuel seq lead p d with
  | zero =>
    obtain ⟨fuel, rfl⟩ := Nat.exists_eq_add_one.mpr hfuel
    have hroom : p.length ≤ ((region (lead ++ p)).drop lead.length).length := by
      rw [List.length_drop, region_length]
      rw [List.length_append] at hfit
      omega
    rw [framesOf, wireImage_cons, decodeFrames_cleanFrame hc (region_length _), hd, reassemble_closes d hroom,
      take_drop_region hfit]
    exact decodeFrames_nil _ _ _ _
  | succ n ih =>
    obtain ⟨fuel, rfl⟩ := Nat.exists_eq_add_one.mpr (Nat.zero_lt_of_lt hfuel)
    obtain ⟨p₁, p₂, rfl, hfull, hpart⟩ := exists_prefix_fills_region (p := p) hlead (by omega)
    rw [Expects, ← List.append_assoc, region_append hfull, hpart] at hd
    rw [← List.append_assoc, List.length_append, hfull] at hmore hfit
    have hleft : p₁.length < (p₁ ++ p₂).length := by rw [List.length_append]; omega
    have hrest : (p₁ ++ p₂).length - p₁.length = p₂.length := by rw [List.length_append, Nat.add_sub_cancel_left]
    rw [← List.append_assoc, framesOf_full _ hfull, wireImage_cons, decodeFrames_cleanFrame hc (region_length _), hd,
      reassemble_continues d hleft, hrest, ← List.append_assoc]
    exact ih (lead := []) (Nat.lt_of_succ_lt_succ hfuel) (Nat.zero_le _) (expects_payload h p₂ _ _)
      (show 220 * n < p₂.length by omega) (show p₂.length ≤ 220 * (n + 1) by omega)

end Packet

/-- Settles O52: the packet string is the secondary header and the payload, and its frames are decoded one after
another; of a packet of length 0 there is no frame. -/
theorem roundTrip : Obligations.RoundTrip := by
  intro c hc h payload seq
  refine ⟨fun hlen => ?_, fun hzero => ?_⟩
  · obtain ⟨n, hcount, hmore, hfit⟩ := frameCount_eq_succ (len := h.len.toNat) (by omega)
    have hstring : (pktHdrBytes c.protocolVersion h ++ payload).length = h.len.toNat := by
      rw [List.length_append, hlen, Nat.add_comm]
      rfl
    have hframes : frames c h payload seq = framesOf c (n + 1) seq (pktHdrBytes c.protocolVersion h ++ payload) := by
      rw [frames, hcount, packetString]
    have hfuel : n < (wireImage (frames c h payload seq)).length + 1 := by
      obtain ⟨-, hbytes, -⟩ := frameGeometry c h payload seq
      rw [hbytes, hcount]
      omega
    rw [decodeSession]
    rw [hframes] at hfuel ⊢
    exact decodeFrames_framesOf hc n hfuel (by decide : 14 ≤ 220) (expects_packet hlen _ _ _)
      (hstring.symm ▸ hmore) (hstring.symm ▸ hfit)
  · rw [frames, hzero]
    rfl

end Sys2Proof.Machine
end

section
/-! The encoder's own laws: the buffer that `E.BUILD` leaves and the parity that `E.PARITY` appends (R161, R163), the
frames that a command reports (R165, R170), and the edges of its control flow (R172). -/

namespace Sys2Proof.Machine

/-! ## BUILD and PARITY -/

section BuildParity
variable {c : Config} {s : State}

theorem exec_eBuild_of_build (hp : s.enc.phase = .build) : exec .eBuild s = .next (buildFrame Config.given s) :=
  whenSelected_pos hp

theorem exec_eParity_of_parity (hp : s.enc.phase = .parity) : exec .eParity s = .next (addParity Config.given s) :=
  whenSelected_pos hp

/-- R102: the frame header stands at the front of the buffer. -/
theorem read_carryingBuffer_header (seq : Half) (bs : List Byte) {a : Nat} (ha : a < 4) :
    Memory.read (carryingBuffer c seq bs) a = (frameHdrBytes c.protocolVersion seq)[a] := by
  have hread := Memory.read_writeBytes_inside Memory.cleared 0 a (frameHdrBytes c.protocolVersion seq ++ bs)
    (by rw [List.length_append]; exact Nat.lt_add_right _ ha)
  rw [Nat.zero_add, List.getElem_append_left] at hread
  exact hread

/-- R105: the bytes that the frame carries stand behind its header. -/
theorem readBytes_carryingBuffer (seq : Half) (bs : List Byte) :
    Memory.readBytes (carryingBuffer c seq bs) 4 bs.length = bs := by
  have happend := carryingBuffer_append c seq [] bs
  rw [List.nil_append] at happend
  rw [happend]
  exact Memory.readBytes_writeBytes _ 4 bs

/-- R161: everything behind the bytes that the frame carries is `0x00`. -/
theorem read_carryingBuffer_behind (seq : Half) {bs : List Byte} {a : Nat} (ha : 4 + bs.length ≤ a) :
    Memory.read (carryingBuffer c seq bs) a = 0x00#8 :=
  Memory.read_writeBytes_outside _ 0 a _ (.inr (by rw [List.length_append, Nat.zero_add]; exact ha))

/-- R161: where the zeros of a built buffer begin. -/
theorem leadingBytes_end (c : Config) (e : Enc) :
    4 + (leadingBytes c e).length = if e.first = true then 18 else 4 := by
  cases h : e.first with
  | true => rw [leadingBytes_of_first h]; rfl
  | false => rw [leadingBytes_of_not_first h]; rfl

end BuildParity

/-- Settles O12: the built buffer is the one that carries the leading bytes of the frame, and nothing yet of the
payload. -/
theorem buildStep : Obligations.BuildStep := by
  intro s hp
  refine ⟨builtBuffer Config.given s.enc, exec_eBuild_of_build hp, ?_⟩
  rw [builtBuffer_eq_carryingBuffer, ← leadingBytes_end Config.given s.enc]
  have hheader := @read_carryingBuffer_header Config.given s.enc.seq (leadingBytes Config.given s.enc)
  refine ⟨hheader (a := 0) (by decide), hheader (a := 1) (by decide), hheader (a := 2) (by decide),
    hheader (a := 3) (by decide), fun hfirst => ?_, fun a => read_carryingBuffer_behind _⟩
  rw [leadingBytes_of_first hfirst]
  exact readBytes_carryingBuffer s.enc.seq (pktHdrBytes Config.given.protocolVersion s.enc.hdr)

/-- Settles O14: the 32 parity bytes are what one write puts behind the message. -/
theorem parityStep : Obligations.ParityStep := by
  intro s hp
  refine ⟨_, exec_eParity_of_parity hp, fun k => ?_, fun a ha => ?_⟩
  · have hk := k.isLt
    rw [read_writeParity, dif_pos (by omega)]
    exact congrArg _ (Fin.ext (Nat.add_sub_cancel_left 224 k.val))
  · rw [read_writeParity, dif_neg (by omega)]

/-! ## The frames a command reports -/

/-- R164, R165: `E.EMIT` ends a command with OK only behind the last byte of its last frame, and counts that frame. -/
theorem emitByte_ok {c : Config} {s : State} (hp : s.enc.phase = .emit) (hidle : (emitByte c s).enc.phase = .idle)
    (hok : (emitByte c s).enc.res.status = .ok) :
    s.enc.todo.toNat = 0 ∧ (emitByte c s).enc.res.count = s.enc.count + 1#16 := by
  obtain ⟨_, e⟩ | ⟨_, e⟩ | ⟨_, _, e⟩ | ⟨_, _, h0, e⟩ | ⟨_, _, _, e⟩ := emitByte_cases c s <;> rw [e] at hidle hok ⊢
  · exact nomatch hp.symm.trans hidle
  · exact nomatch hok
  · exact nomatch hp.symm.trans hidle
  · exact ⟨h0, rfl⟩
  · exact nomatch hidle

/-- Settles O39: the invariant bounds the length by the frames counted before the last one. -/
theorem resultCountsFrames : Obligations.ResultCountsFrames := by
  intro s t hinv h hidle hok
  obtain ⟨hp, _, rfl⟩ := execEEmit_next h
  obtain ⟨htodo, hcount⟩ := emitByte_ok hp hidle hok
  obtain ⟨_, _, _, _, hlast⟩ := hinv.atEmit hp
  obtain ⟨hmore, hfit⟩ := hlast htodo
  rw [hcount, half_toNat_succ hinv.countRange]
  exact ⟨hmore, hfit, Nat.le_add_left 1 _⟩

/-! ## The control flow (R172) -/

section ControlFlow
variable {c : Config} {s : State}

/-- R160: a command of a legal length that is accepted starts a frame; every other leaves the phase. -/
theorem offerEncode_phase (h : PacketHeader) (s : State) :
    (offerEncode h s).enc.phase = s.enc.phase ∨
      (14 ≤ h.len.toNat ∧ s.enc.phase = .idle ∧ (offerEncode h s).enc.phase = .build) := by
  obtain ⟨_, e⟩ | ⟨⟨hp, _⟩, _, e⟩ | ⟨⟨hp, _⟩, _, _, e⟩ | ⟨⟨hp, _⟩, h14, e⟩ := offerEncode_cases h s <;> rw [e]
  · exact .inl rfl
  · exact .inl hp.symm
  · exact .inl hp.symm
  · exact .inr ⟨h14, hp, rfl⟩

/-- R162, R271: FILL goes on, is over, or fails with the source. -/
theorem fillByte_phase (c : Config) (s : State) :
    (fillByte c s).enc.phase = s.enc.phase ∨
      ((fillByte c s).enc.phase = .parity ∧ (224 ≤ s.enc.idx.toNat ∨ s.enc.todo.toNat = 0)) ∨
      ((fillByte c s).enc.phase = .idle ∧ s.src.peek c.srcDraw = some none) := by
  obtain ⟨_, _, e⟩ | ⟨_, hnone, e⟩ | ⟨_, _, _, e⟩ | ⟨hfull, e⟩ := fillByte_cases c s <;> rw [e]
  · exact .inl rfl
  · exact .inr (.inr ⟨rfl, hnone⟩)
  · exact .inl rfl
  · rw [Enc.pulls] at hfull
    exact .inr (.inl ⟨rfl, by omega⟩)

/-- R164, R272: EMIT goes on, starts the next frame, ends the command, or fails with the transport. -/
theorem emitByte_phase (hi : s.enc.idx.toNat ≤ 256) :
    (emitByte c s).enc.phase = s.enc.phase ∨
      ((emitByte c s).enc.phase = .build ∧ s.tx.peek c.txDraw = some true ∧ s.enc.idx.toNat = 256 ∧
        0 < s.enc.todo.toNat) ∨
      ((emitByte c s).enc.phase = .idle ∧ s.tx.peek c.txDraw = some true ∧ s.enc.idx.toNat = 256 ∧
        s.enc.todo.toNat = 0) ∨
      ((emitByte c s).enc.phase = .idle ∧ s.tx.peek c.txDraw = some false) := by
  obtain ⟨_, e⟩ | ⟨ht, e⟩ | ⟨_, _, e⟩ | ⟨ht, hi', h0, e⟩ | ⟨ht, hi', h0, e⟩ := emitByte_cases c s <;> rw [e]
  · exact .inl rfl
  · exact .inr (.inr (.inr ⟨rfl, ht⟩))
  · exact .inl rfl
  · exact .inr (.inr (.inl ⟨rfl, ht, hi.antisymm hi', h0⟩))
  · exact .inr (.inl ⟨rfl, ht, hi.antisymm hi', h0⟩)

end ControlFlow

/-- Settles O40: no other agent's operation changes the phase, and each of ENC's own takes its edges of R172 alone. -/
theorem encoderControlFlow : Obligations.EncoderControlFlow := by
  intro i s t h
  cases hi : isEncOp i with
  | false =>
    have hsame : t.enc.phase = s.enc.phase := congrArg (fun side => side.enc.phase) (exec_encSide hi h)
    simp [hsame]
  | true =>
    cases i with
    | encode hd =>
      cases h
      obtain hsame | hstart := offerEncode_phase hd s
      · simp [hsame]
      · simp [hstart]
    | encReset => exact .inl rfl
    | eBuild =>
      obtain ⟨hp, rfl⟩ := execEBuild_next h
      simp [hp, buildFrame]
    | eFill =>
      obtain ⟨hp, rfl⟩ := execEFill_next h
      obtain hsame | hover | hfailed := fillByte_phase Config.given s
      · simp [hsame]
      · simp [hp, hover]
      · simp [hp, hfailed]
    | eParity =>
      obtain ⟨hp, rfl⟩ := execEParity_next h
      simp [hp, addParity]
    | eEmit =>
      obtain ⟨hp, hidx, rfl⟩ := execEEmit_next h
      obtain hsame | hnext | hdone | hfailed := emitByte_phase (c := Config.given) hidx
      · simp [hsame]
      · simp [hp, hnext]
      · simp [hp, hdone]
      · simp [hp, hfailed]
    | _ => cases hi

end Sys2Proof.Machine
end

section
/-! The decoder's own laws: dispatch and the end of the stream (R203, R204, R206, R208), the edges of its control flow
and of its reassembly mode (R211), the four ends of a session (R209), and the run that reads a body (R201). -/

namespace Sys2Proof.Machine

/-! ## DISPATCH and the end of STREAM -/

theorem exec_dDispatchData_of_data {s : State} (hp : s.dec.phase = .dispatch) (hm : s.dec.mode = .awaitingData) :
    exec .dDispatchData s = .next (dispatchData s) :=
  whenSelected_pos ⟨hp, hm⟩

/-- Settles O20: the header given by its bytes is the one that is read, and its length decides. -/
theorem dispatchHdrStep : Obligations.DispatchHdrStep := by
  rintro s ⟨pid, len, lat, lon, alt⟩ hp hm rfl rfl rfl rfl rfl
  rw [exec_dDispatchHdr_of_header hp hm]
  refine ⟨fun h14 => ⟨_, payloadCount_toNat h14, ?payload⟩, fun hlt hready => ?badLength⟩
  case payload =>
    rw [dispatchHdr_of_payload h14]
    rfl
  case badLength =>
    rw [dispatchHdr_of_bad_length hlt hready]
    rfl

/-- Settles O21: the step is selected, and writes the index and the phase. -/
theorem dispatchDataStep : Obligations.DispatchDataStep :=
  fun _ hp hm => exec_dDispatchData_of_data hp hm

/-- Settles O23: what is outstanding decides between the event and the wait for the next frame. -/
theorem streamEndStep : Obligations.StreamEndStep := by
  intro s hp hm
  rw [exec_dStreamEnd_of_no_more hp hm]
  refine ⟨fun h0 hready => ?done, fun hrest => ?more⟩
  case done =>
    rw [streamEnd_of_done h0 hready]
    rfl
  case more => rw [streamEnd_of_more hrest]

/-! ## The control flow (R211) -/

section PhaseFlow
variable (c : Config) (s : State)

/-- R200: a session starts from IDLE, in AwaitingHeader; a command that waits leaves DEC as it is. -/
theorem offerDecode_phase_mode :
    ((offerDecode s).dec.phase = s.dec.phase ∧ (offerDecode s).dec.mode = s.dec.mode) ∨
      (s.dec.phase = .idle ∧ (offerDecode s).dec.phase = .sync ∧ (offerDecode s).dec.mode = .awaitingHeader) := by
  obtain ⟨_, e⟩ | ⟨⟨hp, _⟩, e⟩ := offerDecode_cases s <;> rw [e]
  · exact .inl ⟨rfl, rfl⟩
  · exact .inr ⟨hp, rfl, rfl⟩

/-- R142, R274: SYNC goes on, finds the sync pair, or ends the session with the input. -/
theorem scanByte_phase :
    (scanByte c s).dec.phase = s.dec.phase ∨
      ((scanByte c s).dec.phase = .body ∧ s.dec.scan = .gotAA ∧ s.rx.peek c.rxDraw = some (some 0x5A#8)) ∨
      ((scanByte c s).dec.phase = .idle ∧ s.rx.peek c.rxDraw = some none) := by
  obtain ⟨_, e⟩ | ⟨hnone, e⟩ | ⟨b, hb, hmatch, e⟩ | ⟨_, _, _, _, e⟩ := scanByte_cases c s <;> rw [e]
  · exact .inl rfl
  · exact .inr (.inr ⟨rfl, hnone⟩)
  · obtain ⟨hscan, rfl⟩ := scan_eq_matched_iff.mp hmatch
    exact .inr (.inl ⟨rfl, hscan, hb⟩)
  · exact .inl rfl

/-- R201, R275: BODY goes on, has read the last byte of the buffer, or ends the session with the input. -/
theorem readBody_phase (hp : s.dec.phase = .body) :
    (readBody c s).dec.phase = .body ∨
      ((readBody c s).dec.phase = .validate ∧ s.dec.idx.toNat = 255 ∧ ∃ b, s.rx.peek c.rxDraw = some (some b)) ∨
      ((readBody c s).dec.phase = .idle ∧ s.rx.peek c.rxDraw = some none) := by
  obtain ⟨_, e⟩ | ⟨hnone, e⟩ | ⟨b, hb, e⟩ := readBody_cases c s <;> rw [e]
  · exact .inl hp
  · exact .inr (.inr ⟨rfl, hnone⟩)
  · by_cases hlast : s.dec.idx.toNat + 1 = 256
    · exact .inr (.inl ⟨if_pos hlast, Nat.succ.inj hlast, b, hb⟩)
    · exact .inl (if_neg hlast)

/-- R250: the codeword of a buffer, byte by byte. -/
theorem codewordIn_eq (m : Memory) : codewordIn m = fun j => Memory.read m (1 + j.val) := rfl

/-- R202, R276, R277: VALIDATE accepts a frame that is corrected to one of the right version, and ends the session with
every other. -/
theorem validate_phase :
    ((validate c s).dec.phase = .dispatch ∧
        ∃ m, c.fecDecode (codewordIn s.dec.fbuf) = some m ∧ m 0 = c.protocolVersion) ∨
      ((validate c s).dec.phase = .idle ∧
        ∀ m, c.fecDecode (codewordIn s.dec.fbuf) = some m → m 0 ≠ c.protocolVersion) := by
  obtain ⟨hnone, e⟩ | ⟨m, hm, hv, e⟩ | ⟨m, hm, hv, e⟩ := validate_cases c s <;> rw [e]
  · exact .inr ⟨rfl, fun m hm => nomatch hnone.symm.trans hm⟩
  · refine .inr ⟨rfl, fun m' hm' => ?_⟩
    rwa [Option.some.inj (hm'.symm.trans hm)]
  · exact .inl ⟨rfl, m, hm, hv⟩

/-- R203, R208: DISPATCH of a first frame waits for EVT, aborts the packet, or goes on to its payload. -/
theorem dispatchHdr_phase :
    (dispatchHdr c s).dec.phase = s.dec.phase ∨
      ((dispatchHdr c s).dec.phase = .sync ∧ (dispatchHdr c s).dec.hdr.len.toNat < 14) ∨
      ((dispatchHdr c s).dec.phase = .stream ∧ 14 ≤ (dispatchHdr c s).dec.hdr.len.toNat) := by
  obtain ⟨_, _, e⟩ | ⟨hlt, _, e⟩ | ⟨h14, e⟩ := dispatchHdr_cases c s <;> rw [e]
  · exact .inl rfl
  · exact .inr (.inl ⟨rfl, hlt⟩)
  · exact .inr (.inr ⟨rfl, h14⟩)

/-- R205, R207: STREAM goes on, or the packet of a refused byte is aborted. -/
theorem streamByte_phase_mode :
    ((streamByte c s).dec.phase = s.dec.phase ∧ (streamByte c s).dec.mode = s.dec.mode) ∨
      ((streamByte c s).dec.phase = .sync ∧ (streamByte c s).dec.mode = .awaitingHeader ∧ s.dec.refused = true) := by
  obtain ⟨_, _, e⟩ | ⟨hr, _, e⟩ | ⟨_, _, e⟩ | ⟨_, _, e⟩ | ⟨_, _, e⟩ := streamByte_cases c s <;> rw [e]
  · exact .inl ⟨rfl, rfl⟩
  · exact .inr ⟨rfl, rfl, hr⟩
  · exact .inl ⟨rfl, rfl⟩
  · exact .inl ⟨rfl, rfl⟩
  · exact .inl ⟨rfl, rfl⟩

/-- R206: the end of STREAM waits for EVT, completes the packet, or awaits the rest of it. -/
theorem streamEnd_phase_mode :
    ((streamEnd c s).dec.phase = s.dec.phase ∧ (streamEnd c s).dec.mode = s.dec.mode) ∨
      ((streamEnd c s).dec.phase = .sync ∧ (streamEnd c s).dec.mode = .awaitingHeader ∧ s.dec.rem.toNat = 0) ∨
      ((streamEnd c s).dec.phase = .sync ∧ (streamEnd c s).dec.mode = .awaitingData ∧ 0 < s.dec.rem.toNat) := by
  obtain ⟨_, _, e⟩ | ⟨h0, _, e⟩ | ⟨hrest, e⟩ := streamEnd_cases c s <;> rw [e]
  · exact .inl ⟨rfl, rfl⟩
  · exact .inr (.inl ⟨rfl, rfl, h0⟩)
  · exact .inr (.inr ⟨rfl, rfl, hrest⟩)

/-- R71: an event waits for EVT, or closes its packet. -/
theorem makeEvent_phase_mode (valid : Bool) (h : PacketHeader) :
    ((makeEvent c valid h s).dec.phase = s.dec.phase ∧ (makeEvent c valid h s).dec.mode = s.dec.mode) ∨
      ((makeEvent c valid h s).dec.phase = .sync ∧ (makeEvent c valid h s).dec.mode = .awaitingHeader) := by
  obtain ⟨_, e⟩ | ⟨_, e⟩ := makeEvent_cases c valid h s <;> rw [e]
  · exact .inl ⟨rfl, rfl⟩
  · exact .inr ⟨rfl, rfl⟩

end PhaseFlow

/-- R206 to R208: an event is made in DISPATCH or in STREAM. -/
theorem phase_of_eventNow {d : Dec} {e : Event} (h : d.eventNow = some e) :
    d.phase = .dispatch ∨ d.phase = .stream := by
  obtain ⟨hp, _⟩ | ⟨hp, _⟩ | ⟨hp, _⟩ := eventNow_cases h
  · exact .inl hp
  · exact .inr hp
  · exact .inr hp

/-- Settles O45: no operation of ENC changes the phase, and each of DEC's own takes its edges of R211 alone. -/
theorem decoderControlFlow : Obligations.DecoderControlFlow := by
  intro i s t h
  cases hi : isEncOp i with
  | true => exact .inr (.inl (congrArg (fun side => side.dec.phase) (exec_decSide hi h)))
  | false =>
    cases i with
    | decodeStream =>
      cases h
      obtain ⟨hsame, _⟩ | hstart := offerDecode_phase_mode s
      · simp [hsame]
      · simp [hstart]
    | decReset => exact .inl rfl
    | syncPrefix | syncCont | frameHdr _ _ | pktHdr _ _ | frame _ =>
      cases h
      exact .inr (.inl rfl)
    | dSync =>
      obtain ⟨hp, rfl⟩ := execDSync_next h
      obtain hsame | hfound | hover := scanByte_phase Config.given s
      · simp [hsame]
      · simp [hp, hfound]
      · simp [hp, hover]
    | dBody =>
      obtain ⟨hp, _, rfl⟩ := execDBody_next h
      obtain hsame | hread | hover := readBody_phase Config.given s hp
      · simp [hp, hsame]
      · simp [hp, hread]
      · simp [hp, hover]
    | dValidate =>
      obtain ⟨hp, rfl⟩ := execDValidate_next h
      obtain ⟨hnext, haccepted⟩ | ⟨hnext, hrejected⟩ := validate_phase Config.given s
      · simpa [hp, hnext, codewordIn_eq] using haccepted
      · simpa [hp, hnext, codewordIn_eq] using hrejected
    | dDispatchHdr =>
      obtain ⟨⟨hp, _⟩, rfl⟩ := execDDispatchHdr_next h
      obtain hsame | haborted | hpayload := dispatchHdr_phase Config.given s
      · simp [hsame]
      · simp [hp, haborted]
      · simp [hp, hpayload]
    | dDispatchData =>
      obtain ⟨⟨hp, _⟩, rfl⟩ := execDDispatchData_next h
      simp [hp, dispatchData]
    | dStream =>
      obtain ⟨⟨hp, _⟩, rfl⟩ := execDStream_next h
      obtain ⟨hsame, _⟩ | haborted := streamByte_phase_mode Config.given s
      · simp [hsame]
      · simp [hp, haborted]
    | dStreamEnd =>
      obtain ⟨⟨hp, hm⟩, rfl⟩ := execDStreamEnd_next h
      obtain ⟨hsame, _⟩ | ⟨hnext, _⟩ | ⟨hnext, _⟩ := streamEnd_phase_mode Config.given s
      · simp [hsame]
      · simp [hp, hnext, hm]
      · simp [hp, hnext, hm]
    | evtPacket valid hd =>
      obtain ⟨hnow, rfl⟩ := execEvtPacket_next h
      obtain ⟨hsame, _⟩ | ⟨hnext, _⟩ := makeEvent_phase_mode Config.given s valid hd
      · simp [hsame]
      · simp [hnow, phase_of_eventNow hnow, hnext]
    | _ => cases hi

/-! ## The reassembly mode -/

section ModeKept
variable (c : Config) (s : State)

theorem scanByte_mode : (scanByte c s).dec.mode = s.dec.mode := by
  obtain ⟨_, e⟩ | ⟨_, e⟩ | ⟨_, _, _, e⟩ | ⟨_, _, _, _, e⟩ := scanByte_cases c s <;> rw [e]
  exact endSession_dec_mode _ _

theorem readBody_mode : (readBody c s).dec.mode = s.dec.mode := by
  obtain ⟨_, e⟩ | ⟨_, e⟩ | ⟨_, _, e⟩ := readBody_cases c s <;> rw [e]
  exact endSession_dec_mode _ _

theorem validate_mode : (validate c s).dec.mode = s.dec.mode := by
  obtain ⟨_, e⟩ | ⟨_, _, _, e⟩ | ⟨_, _, _, e⟩ := validate_cases c s <;> rw [e]
  all_goals exact endSession_dec_mode _ _

/-- R203, R208: a first frame is dispatched in AwaitingHeader, and its packet is aborted to AwaitingHeader. -/
theorem dispatchHdr_mode (hm : s.dec.mode = .awaitingHeader) : (dispatchHdr c s).dec.mode = s.dec.mode := by
  obtain ⟨_, _, e⟩ | ⟨_, _, e⟩ | ⟨_, e⟩ := dispatchHdr_cases c s <;> rw [e]
  exact hm.symm

end ModeKept

/-- R206, R207: outside AwaitingHeader an event is that of a packet which is complete or had a byte refused. -/
theorem eventNow_of_awaitingData {d : Dec} {valid : Bool} {h : PacketHeader} (hnow : d.eventNow = some ⟨h, valid⟩)
    (hm : d.mode ≠ .awaitingHeader) :
    h = d.hdr ∧ ((valid = true ∧ d.rem.toNat = 0) ∨ (valid = false ∧ d.refused = true)) := by
  obtain ⟨_, hm', _⟩ | ⟨_, _, hr, e⟩ | ⟨_, _, h0, e⟩ := eventNow_cases hnow
  · exact absurd hm' hm
  · obtain ⟨rfl, rfl⟩ := Event.mk.inj e
    exact ⟨rfl, .inr ⟨rfl, hr⟩⟩
  · obtain ⟨rfl, rfl⟩ := Event.mk.inj e
    exact ⟨rfl, .inl ⟨rfl, h0⟩⟩

/-- Settles O46: every operation but a reset, the start of a session, the end of a frame and the end of a packet leaves
the mode. -/
theorem reassemblyModeFlow : Obligations.ReassemblyModeFlow := by
  intro i s t h hchanged
  cases hi : isEncOp i with
  | true => exact absurd (congrArg (fun side => side.dec.mode) (exec_decSide hi h)) hchanged
  | false =>
    cases i with
    | decodeStream =>
      cases h
      obtain ⟨_, hsame⟩ | ⟨hp, _, hstart⟩ := offerDecode_phase_mode s
      · exact absurd hsame hchanged
      · simp [hp, hstart]
    | decReset =>
      cases h
      exact .inl ⟨rfl, rfl⟩
    | syncPrefix | syncCont | frameHdr _ _ | pktHdr _ _ | frame _ =>
      cases h
      exact absurd rfl hchanged
    | dSync =>
      obtain ⟨_, rfl⟩ := execDSync_next h
      exact absurd (scanByte_mode _ s) hchanged
    | dBody =>
      obtain ⟨_, _, rfl⟩ := execDBody_next h
      exact absurd (readBody_mode _ s) hchanged
    | dValidate =>
      obtain ⟨_, rfl⟩ := execDValidate_next h
      exact absurd (validate_mode _ s) hchanged
    | dDispatchHdr =>
      obtain ⟨⟨_, hm⟩, rfl⟩ := execDDispatchHdr_next h
      exact absurd (dispatchHdr_mode _ s hm) hchanged
    | dDispatchData =>
      obtain ⟨_, rfl⟩ := execDDispatchData_next h
      exact absurd rfl hchanged
    | dStream =>
      obtain ⟨_, rfl⟩ := execDStream_next h
      obtain ⟨_, hsame⟩ | ⟨_, haborted⟩ := streamByte_phase_mode Config.given s
      · exact absurd hsame hchanged
      · simp [haborted]
    | dStreamEnd =>
      obtain ⟨_, rfl⟩ := execDStreamEnd_next h
      obtain ⟨_, hsame⟩ | ⟨_, hdone⟩ | ⟨_, hmore⟩ := streamEnd_phase_mode Config.given s
      · exact absurd hsame hchanged
      · simp [hdone]
      · simp [hmore]
    | evtPacket valid hd =>
      obtain ⟨hnow, rfl⟩ := execEvtPacket_next h
      obtain ⟨_, hsame⟩ | ⟨_, hclosed⟩ := makeEvent_phase_mode Config.given s valid hd
      · exact absurd hsame hchanged
      · rw [hclosed] at hchanged
        obtain ⟨rfl, ⟨rfl, h0⟩ | ⟨rfl, hr⟩⟩ := eventNow_of_awaitingData hnow (Ne.symm hchanged)
        · simp [hclosed, h0]
        · simp [hclosed, hr]
    | _ => cases hi

/-! ## The end of a session -/

/-- R209: from `s` to `t` a session ended with a status: one response is to be made, none was, no event was, and the
bytes delivered and the reassembly state are as they were. -/
def SessionEndedWith (st : DecStatus) (s t : State) : Prop :=
  t.dec.status = st ∧ t.dec.rspDue = true ∧ t.decRsps = s.decRsps ∧ t.events = s.events ∧ t.sunk = s.sunk ∧
    t.dec.mode = s.dec.mode ∧ t.dec.rem = s.dec.rem ∧ t.dec.hdr = s.dec.hdr

theorem sessionEndedWith_endSession (st : DecStatus) (s : State) : SessionEndedWith st s (endSession st s) :=
  ⟨rfl, rfl, rfl, rfl, rfl, rfl, rfl, rfl⟩

/-- R202, R209: a frame that is rejected ends the session with one of two statuses, and nothing is read from RX. -/
theorem validate_ends {c : Config} {s : State} (hidle : (validate c s).dec.phase = .idle) :
    (SessionEndedWith .endFec s (validate c s) ∨ SessionEndedWith .endVersion s (validate c s)) ∧
      (validate c s).rx = s.rx := by
  obtain ⟨_, e⟩ | ⟨_, _, _, e⟩ | ⟨_, _, _, e⟩ := validate_cases c s <;> rw [e] at hidle ⊢
  · exact ⟨.inl (sessionEndedWith_endSession _ s), rfl⟩
  · exact ⟨.inr (sessionEndedWith_endSession _ _), rfl⟩
  · exact nomatch hidle

/-- R209, R211: of the edges of the control flow, those to IDLE are the ends of a session. -/
theorem exec_ends_session {i : Instr} {s t : State} (h : exec i s = .next t) (hreset : i ≠ .decReset)
    (hbusy : s.dec.phase ≠ .idle) (hidle : t.dec.phase = .idle) :
    (i = .dSync ∧ s.rxNow = some none) ∨ (i = .dBody ∧ s.rxNow = some none) ∨ i = .dValidate := by
  have hflow := decoderControlFlow i s t h
  rw [hidle] at hflow
  simp only [hreset, hbusy.symm, reduceCtorEq, false_and, and_false, false_or, or_false, exists_const,
    true_and] at hflow
  obtain ⟨hi, _, hnone⟩ | ⟨hi, _, hnone⟩ | ⟨hi, _⟩ := hflow
  · exact .inl ⟨hi, hnone⟩
  · exact .inr (.inl ⟨hi, hnone⟩)
  · exact .inr (.inr hi)

/-- Settles O47: the operations that reach IDLE are known from the control flow, and each of them ends the session. -/
theorem sessionEnds : Obligations.SessionEnds := by
  intro i s t h hreset hbusy hidle
  obtain ⟨rfl, hnone⟩ | ⟨rfl, hnone⟩ | rfl := exec_ends_session h hreset hbusy hidle
  · obtain ⟨_, rfl⟩ := execDSync_next h
    rw [scanByte_of_none hnone]
    exact ⟨.inl ⟨rfl, rfl⟩, rfl, rfl, rfl, rfl, rfl, rfl, rfl, nofun⟩
  · obtain ⟨_, _, rfl⟩ := execDBody_next h
    rw [readBody_of_none hnone]
    exact ⟨.inr (.inl ⟨rfl, rfl⟩), rfl, rfl, rfl, rfl, rfl, rfl, rfl, nofun⟩
  · obtain ⟨_, rfl⟩ := execDValidate_next h
    obtain ⟨⟨hst, hrest⟩ | ⟨hst, hrest⟩, hrx⟩ := validate_ends hidle
    · simp [hst, hrest, hrx]
    · simp [hst, hrest, hrx]

/-! ## The body of a frame -/

/-- Settles O49: the run that reads the rest of a body, from its first index. -/
theorem bodyReadsWholeFrame : Obligations.BodyReadsWholeFrame := by
  intro s bytes more hp hidx hlen hq hturns
  obtain ⟨b, bs, rfl⟩ := List.exists_cons_of_length_pos (l := bytes) (by omega)
  have hbs : bs.length + 1 = 255 := hlen
  have hrun := run_readBody bs hturns hp (by rw [hidx, Nat.add_comm]; exact hbs) hq
  rw [hbs, hidx] at hrun
  refine ⟨_, hrun, ?_, Memory.read_writeBytes_outside _ 1 0 _ (.inl Nat.one_pos)⟩
  rw [← hlen]
  exact Memory.readBytes_writeBytes _ 1 (b :: bs)

end Sys2Proof.Machine
end

section
/-! The function `decode` of R214, one case at a time: the bytes of a buffer as a data region, one byte offered to the
sink, one region taken in, one frame decoded. -/

namespace Sys2Proof.Machine

/-! ## The bytes of a region -/

section Bytes
variable (m : Memory) (a n k : Nat)

theorem Memory.readBytes_succ : Memory.readBytes m a (n + 1) = Memory.read m a :: Memory.readBytes m (a + 1) n := by
  rw [Memory.readBytes, List.range_succ_eq_map, List.map_cons, List.map_map, Memory.readBytes]
  refine congrArg _ (List.map_congr_left fun j _ => ?_)
  exact congrArg (Memory.read m) (by rw [Nat.succ_eq_add_one]; omega)

theorem Memory.drop_readBytes : (Memory.readBytes m a (k + n)).drop k = Memory.readBytes m (a + k) n := by
  induction k generalizing a with
  | zero => rw [Nat.zero_add, List.drop_zero, Nat.add_zero]
  | succ k ih =>
    rw [Nat.add_right_comm, Memory.readBytes_succ, List.drop_succ_cons, ih, Nat.add_right_comm, Nat.add_assoc]

theorem Memory.take_readBytes : (Memory.readBytes m a (k + n)).take k = Memory.readBytes m a k := by
  induction k generalizing a with
  | zero => rfl
  | succ k ih => rw [Nat.add_right_comm, Memory.readBytes_succ, List.take_succ_cons, ih, Memory.readBytes_succ]

end Bytes

/-- R103, R203: the header that `decode` reads from a region is the one that stands at `FBUF[5..17]`. -/
theorem headerOf_readBytes (m : Memory) :
    headerOf (((Memory.readBytes m 4 220).drop 1).take 13) = some (readPktHdr m) := by
  rw [Memory.drop_readBytes m 4 219 1, Memory.take_readBytes m 5 206 13]
  rfl

/-- R250: the codeword in a buffer is the 255 bytes that were read into it. -/
theorem codewordIn_of_readBytes {m : Memory} {bs : List Byte} (h : Memory.readBytes m 1 255 = bs) (rest : List Byte) :
    codewordIn m = fun j => (bs ++ rest).getD j.val 0x00#8 := by
  subst h
  funext j
  have hlen : (Memory.readBytes m 1 255).length = 255 := by rw [Memory.readBytes, List.length_map, List.length_range]
  rw [List.getD_append _ _ _ _ (hlen.symm ▸ j.isLt), List.getD_eq_getElem _ _ (hlen.symm ▸ j.isLt)]
  simp [codewordIn, Memory.readBytes]

/-- R202: the data region behind validation is what the corrected message holds behind the frame header. -/
theorem readBytes_writeMessage (m : Memory) (msg : Message) :
    Memory.readBytes (writeMessage m msg) 4 220 = (List.ofFn msg).drop 3 := by
  have hread := Memory.readBytes_writeBytes m 1 (List.ofFn msg)
  rw [List.length_ofFn] at hread
  rw [← hread]
  exact (Memory.drop_readBytes _ 1 220 3).symm

/-! ## One region -/

section Region
variable {d : Decoded} {sink : List Bool} {h : PacketHeader} {rem : Nat} {b : Byte} {part g : List Byte}

/-- R206: with nothing outstanding the packet is complete. -/
theorem reassemble_zero (d : Decoded) (sink : List Bool) (h : PacketHeader) (part : List Byte) :
    reassemble d sink h 0 part = (⟨d.sunk, d.events ++ [⟨h, true⟩], none⟩, sink) := by
  cases sink <;> simp [reassemble, deliver]

/-- R206: at the end of the region what is outstanding is awaited. -/
theorem reassemble_nil (d : Decoded) (sink : List Bool) (h : PacketHeader) (hrem : 0 < rem) :
    reassemble d sink h rem [] = (⟨d.sunk, d.events, some (h, rem)⟩, sink) := by
  cases sink <;> simp [reassemble, deliver, hrem.ne']

/-- R205: a byte that the sink takes is delivered and counted. -/
theorem reassemble_taken (hrem : 0 < rem) (hs : sink.headD true = true) :
    reassemble d sink h rem (b :: part) =
      reassemble ⟨d.sunk ++ [b], d.events, d.awaiting⟩ sink.tail h (rem - 1) part := by
  obtain ⟨rem, rfl⟩ := Nat.exists_eq_add_one.mpr hrem
  cases sink with
  | nil => simp [reassemble, deliver_all]
  | cons x sink =>
    obtain rfl : x = true := hs
    simp [reassemble, deliver]

/-- R207: a byte that the sink refuses aborts the packet. -/
theorem reassemble_refused (hrem : 0 < rem) (hs : sink.headD true = false) :
    reassemble d sink h rem (b :: part) = (⟨d.sunk, d.events ++ [⟨h, false⟩], none⟩, sink.tail) := by
  obtain ⟨rem, rfl⟩ := Nat.exists_eq_add_one.mpr hrem
  cases sink with
  | nil => cases hs
  | cons x sink =>
    obtain rfl : x = false := hs
    simp [reassemble, deliver]

/-- R204: a region that continues a packet is payload as a whole. -/
theorem takeRegion_of_awaiting (hd : d.awaiting = some (h, rem)) (sink : List Bool) (g : List Byte) :
    takeRegion d sink g = reassemble d sink h rem g := by
  rw [takeRegion, hd]

/-- R208: a region that declares a length below 14 is the whole of its packet, which is aborted. -/
theorem takeRegion_of_bad_length (hd : d.awaiting = none) (hh : headerOf ((g.drop 1).take 13) = some h)
    (hlt : h.len.toNat < 14) (sink : List Bool) :
    takeRegion d sink g = (⟨d.sunk, d.events ++ [⟨h, false⟩], none⟩, sink) := by
  simp only [takeRegion, hd, hh, if_pos hlt]

/-- R203: a region that begins a packet is payload behind the secondary header. -/
theorem takeRegion_of_payload (hd : d.awaiting = none) (hh : headerOf ((g.drop 1).take 13) = some h)
    (h14 : 14 ≤ h.len.toNat) (sink : List Bool) :
    takeRegion d sink g = reassemble d sink h (h.len.toNat - 14) (g.drop 14) := by
  simp only [takeRegion, hd, hh, if_neg (Nat.not_lt.mpr h14)]

end Region

/-! ## One frame -/

section Frame
variable {c : Config} {fuel n : Nat} {d : Decoded} {sink : List Bool} {bytes body : List Byte} {m : Message}

/-- R147: what follows the sync pair is no longer than the input. -/
theorem syncFrom_length {t : Scan} {k : Nat} (h : syncFrom t k bytes = some (n, body)) :
    body.length ≤ bytes.length := by
  induction bytes generalizing t k with
  | nil => cases h
  | cons b bs ih =>
    refine le_trans ?_ (Nat.le_succ bs.length)
    rcases hs : scan t b with t' | _
    · rw [syncFrom_cons_of_stay hs] at h
      exact ih h
    · rw [syncFrom_cons_of_match hs] at h
      cases h
      exact le_rfl

theorem decodeFrames_of_no_sync (hs : syncFrom .hunt 0 bytes = none) :
    decodeFrames c (fuel + 1) d sink bytes = (d, .endEosSync) := by
  simp only [decodeFrames, hs]

theorem decodeFrames_of_short_body (hs : syncFrom .hunt 0 bytes = some (n, body)) (hlen : body.length < 255) :
    decodeFrames c (fuel + 1) d sink bytes = (d, .endEosBody) := by
  simp only [decodeFrames, hs, if_pos hlen]

theorem decodeFrames_of_uncorrectable (hs : syncFrom .hunt 0 bytes = some (n, body)) (hlen : 255 ≤ body.length)
    (hf : (c.fecDecode fun j => body.getD j.val 0x00#8) = none) :
    decodeFrames c (fuel + 1) d sink bytes = (d, .endFec) := by
  simp only [decodeFrames, hs, if_neg (Nat.not_lt.mpr hlen), hf]

theorem decodeFrames_of_badVersion (hs : syncFrom .hunt 0 bytes = some (n, body)) (hlen : 255 ≤ body.length)
    (hf : (c.fecDecode fun j => body.getD j.val 0x00#8) = some m) (hv : m 0 ≠ c.protocolVersion) :
    decodeFrames c (fuel + 1) d sink bytes = (d, .endVersion) := by
  simp only [decodeFrames, hs, if_neg (Nat.not_lt.mpr hlen), hf, if_neg hv]

theorem decodeFrames_of_version (hs : syncFrom .hunt 0 bytes = some (n, body)) (hlen : 255 ≤ body.length)
    (hf : (c.fecDecode fun j => body.getD j.val 0x00#8) = some m) (hv : m 0 = c.protocolVersion) :
    decodeFrames c (fuel + 1) d sink bytes =
      decodeFrames c fuel (takeRegion d sink ((List.ofFn m).drop 3)).1 (takeRegion d sink ((List.ofFn m).drop 3)).2
        (body.drop 255) := by
  simp only [decodeFrames, hs, if_neg (Nat.not_lt.mpr hlen), hf, if_pos hv]

end Frame

end Sys2Proof.Machine
end

section
/-! A whole session of DEC (R200 to R209, R214): the run of each phase, then of one frame, and by induction on the
frames the run of the session. Each run is compared with the case of `decode` that it follows. -/

namespace Sys2Proof.Machine

/-! ## A session in progress -/

/-- What changes while DEC alone acts in a session: its registers, the bytes that RX still holds, and what the session
has produced together with the answers that the sink still gives, in the form in which `decode` has them (R214). -/
structure Progress where
  dec : Dec
  bytes : List Byte
  out : Decoded × List Bool

/-- R69, R214: a sink that answers as listed and accepts everything after that. -/
def sinkAnswers (sink : List Bool) : Channel Bool := ⟨sink.map some, .always (some true)⟩

/-- The machine at a moment of a session in which DEC alone acts, with everything else as in `base`. -/
def Progress.state (base : State) (p : Progress) : State :=
  { base with
    dec := p.dec
    rx := bytesThenNone p.bytes
    snk := sinkAnswers p.out.2
    sunk := base.sunk ++ p.out.1.sunk
    evt := alwaysReady
    events := base.events ++ p.out.1.events
    decRsp := alwaysReady
    turns := ⟨[], .always (some .dec)⟩ }

/-- Some steps lead from one moment of a session to another. -/
def Leads (base : State) (p q : Progress) : Prop := ∃ k, run k (p.state base) = .next (q.state base)

/-- R28: the reassembly state that DEC carries from frame to frame, in the form in which `decode` has it (R214). -/
def Dec.awaiting (d : Dec) : Option (PacketHeader × Nat) :=
  match d.mode with
  | .awaitingHeader => none
  | .awaitingData => some (d.hdr, d.rem.toNat)

/-- DEC looks for the next frame, and carries a reassembly state. -/
structure Hunting (awaiting : Option (PacketHeader × Nat)) (d : Dec) : Prop where
  phase : d.phase = .sync
  scan : d.scan = .hunt
  taken : d.refused = false
  carries : d.awaiting = awaiting

/-- From this moment on the rest of the frame is taken in, with the result that `takeRegion` gives, and DEC looks for
the next frame. -/
def TakesIn (base : State) (p : Progress) (r : Decoded × List Bool) : Prop :=
  ∃ d, Hunting r.1.awaiting d ∧ Leads base p ⟨d, p.bytes, r⟩

/-- From this moment on the session ends with this product and status. -/
def Ends (base : State) (p : Progress) (r : Decoded × DecStatus) : Prop :=
  ∃ q : Progress, Leads base p q ∧ q.dec.phase = .idle ∧ q.dec.rspDue = true ∧ q.dec.status = r.2 ∧ q.out.1 = r.1

section Leading
variable {base : State} {p p' q : Progress}

theorem Leads.of_step (h : step (p.state base) = .next (q.state base)) : Leads base p q :=
  ⟨1, run_succ h⟩

theorem Leads.trans (h : Leads base p p') (h' : Leads base p' q) : Leads base p q := by
  obtain ⟨j, hj⟩ := h
  obtain ⟨k, hk⟩ := h'
  exact ⟨j + k, (run_add hj).trans hk⟩

theorem TakesIn.after {r : Decoded × List Bool} (h : TakesIn base p' r) (hp : Leads base p p')
    (hbytes : p'.bytes = p.bytes) : TakesIn base p r := by
  obtain ⟨d, hd, hrun⟩ := h
  exact ⟨d, hd, hbytes ▸ hp.trans hrun⟩

theorem Ends.after {r : Decoded × DecStatus} (h : Ends base p' r) (hp : Leads base p p') : Ends base p r := by
  obtain ⟨q, hrun, hq⟩ := h
  exact ⟨q, hp.trans hrun, hq⟩

/-- R209: the step that ends the session. -/
theorem ends_of_endSession {st : DecStatus} (h : step (p.state base) = .next (endSession st (q.state base))) :
    Ends base p (q.out.1, st) :=
  ⟨{ q with dec := { q.dec with status := st, phase := .idle, rspDue := true } }, .of_step h, rfl, rfl, rfl, rfl⟩

end Leading

/-! ## SYNC -/

section Sync
variable {base : State} {d : Dec} {bytes body : List Byte} {o : Decoded × List Bool} {n m : Nat}

theorem leads_scan_stay {b : Byte} {t : Scan} (hp : d.phase = .sync) (hs : scan d.scan b = .stay t) :
    Leads base ⟨d, b :: bytes, o⟩ ⟨{ d with scan := t }, bytes, o⟩ :=
  .of_step (step_scanByte_stay (s := Progress.state base ⟨d, b :: bytes, o⟩) rfl hp rfl hs)

/-- R142, R274: without a sync pair the input ends in SYNC. -/
theorem ends_of_no_sync (hp : d.phase = .sync) (hs : syncFrom d.scan n bytes = none) :
    Ends base ⟨d, bytes, o⟩ (o.1, .endEosSync) := by
  induction bytes generalizing d n with
  | nil =>
    refine ends_of_endSession (q := ⟨d, [], o⟩) ?_
    rw [step_dSync rfl hp, exec_dSync_of_sync hp, scanByte_of_none rfl]
    rfl
  | cons b bs ih =>
    rcases hscan : scan d.scan b with t | _
    · rw [syncFrom_cons_of_stay hscan] at hs
      exact (ih (d := { d with scan := t }) hp hs).after (leads_scan_stay hp hscan)
    · rw [syncFrom_cons_of_match hscan] at hs
      cases hs

/-- R142: the first sync pair leads to BODY, with what follows it in RX. -/
theorem leads_to_body (hp : d.phase = .sync) (hs : syncFrom d.scan n bytes = some (m, body)) :
    Leads base ⟨d, bytes, o⟩
      ⟨{ d with fbuf := Memory.write d.fbuf 0 syncContByte, idx := 1#9, scan := .hunt, phase := .body }, body, o⟩ := by
  induction bytes generalizing d n with
  | nil => cases hs
  | cons b bs ih =>
    rcases hscan : scan d.scan b with t | _
    · rw [syncFrom_cons_of_stay hscan] at hs
      exact (leads_scan_stay hp hscan).trans (ih (d := { d with scan := t }) hp hs)
    · rw [syncFrom_cons_of_match hscan] at hs
      cases hs
      exact .of_step (step_scanByte_match (s := Progress.state base ⟨d, b :: body, o⟩) rfl hp rfl hscan)

end Sync

/-! ## BODY and VALIDATE -/

section Body
variable {base : State} {d : Dec} {bytes : List Byte} {o : Decoded × List Bool}

/-- R201, R275: an input shorter than the body ends in BODY. -/
theorem ends_of_short_body (hp : d.phase = .body) (hlen : d.idx.toNat + bytes.length ≤ 255) :
    Ends base ⟨d, bytes, o⟩ (o.1, .endEosBody) := by
  induction bytes generalizing d with
  | nil =>
    refine ends_of_endSession (q := ⟨d, [], o⟩) ?_
    rw [step_dBody rfl hp, exec_dBody_of_body hp hlen, readBody_of_none rfl]
    rfl
  | cons b bs ih =>
    rw [List.length_cons] at hlen
    have hidx : (d.idx + 1#9).toNat = d.idx.toNat + 1 := index_toNat_succ (by omega)
    have hrest := ih (d := { d with fbuf := Memory.write d.fbuf d.idx.toNat b, idx := d.idx + 1#9 }) hp
      (show (d.idx + 1#9).toNat + bs.length ≤ 255 by omega)
    exact hrest.after (.of_step
      (step_readBody_inner (s := Progress.state base ⟨d, b :: bs, o⟩) rfl hp (show d.idx.toNat < 255 by omega) rfl))

/-- R201: an input that holds the body leads to VALIDATE, with the body in the buffer. -/
theorem leads_to_validate (hp : d.phase = .body) (hi : d.idx = 1#9) (hlen : 255 ≤ bytes.length) :
    ∃ m, Memory.readBytes m 1 255 = bytes.take 255 ∧
      Leads base ⟨d, bytes, o⟩ ⟨{ d with fbuf := m, idx := 256#9, phase := .validate }, bytes.drop 255, o⟩ := by
  have hq : (Progress.state base ⟨d, bytes, o⟩).rx.queue =
      (bytes.take 255).map (fun b => some (some b)) ++ (bytes.drop 255).map (fun b => some (some b)) := by
    rw [← List.map_append, List.take_append_drop]
    rfl
  obtain ⟨m, hrun, hread, _⟩ := bodyReadsWholeFrame _ _ _ hp hi (List.length_take_of_le hlen) hq rfl
  exact ⟨m, hread, 255, hrun⟩

theorem step_validate (hp : d.phase = .validate) :
    step (Progress.state base ⟨d, bytes, o⟩) =
      .next (validate Config.given (Progress.state base ⟨d, bytes, o⟩)) :=
  (step_dValidate rfl hp).trans (exec_dValidate_of_validate hp)

/-- R202, R276: a frame that the codec gives up ends the session. -/
theorem ends_of_uncorrectable (hp : d.phase = .validate) (hf : Config.given.fecDecode (codewordIn d.fbuf) = none) :
    Ends base ⟨d, bytes, o⟩ (o.1, .endFec) := by
  refine ends_of_endSession (q := ⟨d, bytes, o⟩) ?_
  rw [step_validate hp, validate_of_uncorrectable hf]

/-- R202, R277: a frame of another version ends the session. -/
theorem ends_of_badVersion {m : Message} (hp : d.phase = .validate)
    (hf : Config.given.fecDecode (codewordIn d.fbuf) = some m) (hv : m 0 ≠ Config.given.protocolVersion) :
    Ends base ⟨d, bytes, o⟩ (o.1, .endVersion) := by
  refine ends_of_endSession (q := ⟨{ d with fbuf := writeMessage d.fbuf m }, bytes, o⟩) ?_
  rw [step_validate hp, validate_of_badVersion hf hv]
  rfl

/-- R202: an accepted frame leads to DISPATCH, with the corrected message in the buffer. -/
theorem leads_to_dispatch {m : Message} (hp : d.phase = .validate)
    (hf : Config.given.fecDecode (codewordIn d.fbuf) = some m) (hv : m 0 = Config.given.protocolVersion) :
    Leads base ⟨d, bytes, o⟩
      ⟨{ d with fbuf := writeMessage d.fbuf m, seqRx := of16 (m 1) (m 2), phase := .dispatch }, bytes, o⟩ := by
  refine .of_step ?_
  rw [step_validate hp, validate_of_version hf hv]
  rfl

end Body

/-! ## STREAM -/

/-- R69: what the sink answers next. -/
theorem peek_sinkAnswers (draw : Nat → Option Bool) (sink : List Bool) :
    (sinkAnswers sink).peek draw = some (sink.headD true) := by
  cases sink <;> rfl

theorem pop_sinkAnswers (sink : List Bool) : (sinkAnswers sink).pop = sinkAnswers sink.tail := by
  cases sink <;> rfl

section Stream
variable {base : State} {d : Dec} {bytes : List Byte} {o : Decoded × List Bool}

/-- R71, R206 to R208: what closing a packet does to the progress of a session. -/
theorem closePacket_state (valid : Bool) (base : State) (d : Dec) (bytes : List Byte) (o : Decoded × List Bool) :
    closePacket valid (Progress.state base ⟨d, bytes, o⟩) =
      Progress.state base ⟨{ d with mode := .awaitingHeader, scan := .hunt, phase := .sync, refused := false }, bytes,
        (⟨o.1.sunk, o.1.events ++ [⟨d.hdr, valid⟩], none⟩, o.2)⟩ := by
  simp only [Progress.state, ← List.append_assoc]
  rfl

/-- R206 to R208: the step that makes the event of a packet closes it. -/
theorem takesIn_of_closePacket {valid : Bool} (h : PacketHeader)
    (hstep : step (Progress.state base ⟨d, bytes, o⟩) =
      .next (closePacket valid (Progress.state base ⟨{ d with hdr := h }, bytes, o⟩))) :
    TakesIn base ⟨d, bytes, o⟩ (⟨o.1.sunk, o.1.events ++ [⟨h, valid⟩], none⟩, o.2) := by
  rw [closePacket_state] at hstep
  exact ⟨_, ⟨rfl, rfl, rfl, rfl⟩, .of_step hstep⟩

/-- R206: with nothing outstanding the packet is complete. -/
theorem takesIn_of_done (hp : d.phase = .stream) (h0 : d.rem.toNat = 0) :
    TakesIn base ⟨d, bytes, o⟩ (⟨o.1.sunk, o.1.events ++ [⟨d.hdr, true⟩], none⟩, o.2) := by
  have hm : ¬ d.more := fun hm => hm.2.ne' h0
  refine takesIn_of_closePacket d.hdr ?_
  rw [step_dStreamEnd rfl hp hm, exec_dStreamEnd_of_no_more hp hm, streamEnd_of_done h0 rfl]

/-- R206: with the region at its end and bytes outstanding, the rest is awaited. -/
theorem takesIn_of_region_end (hp : d.phase = .stream) (hr : d.refused = false) (hi : d.idx.toNat = 224)
    (hrem : 0 < d.rem.toNat) :
    TakesIn base ⟨d, bytes, o⟩ (⟨o.1.sunk, o.1.events, some (d.hdr, d.rem.toNat)⟩, o.2) := by
  have hm : ¬ d.more := fun hm => hm.1.ne hi
  refine ⟨{ d with mode := .awaitingData, scan := .hunt, phase := .sync }, ⟨rfl, rfl, hr, rfl⟩, .of_step ?_⟩
  rw [step_dStreamEnd rfl hp hm, exec_dStreamEnd_of_no_more hp hm, streamEnd_of_more hrem]
  rfl

/-- R205: a byte that the sink takes. -/
theorem leads_of_taken (hp : d.phase = .stream) (hr : d.refused = false) (hm : d.more)
    (hs : o.2.headD true = true) :
    Leads base ⟨d, bytes, o⟩
      ⟨{ d with idx := d.idx + 1#9, rem := d.rem - 1#16 }, bytes,
        (⟨o.1.sunk ++ [Memory.read d.fbuf d.idx.toNat], o.1.events, o.1.awaiting⟩, o.2.tail)⟩ := by
  have hpeek := (peek_sinkAnswers Config.given.snkDraw o.2).trans (congrArg some hs)
  refine .of_step ?_
  rw [step_dStream rfl hp hm, exec_dStream_of_more hp hm, streamByte_of_taken hr hpeek]
  simp only [Progress.state, pop_sinkAnswers, List.append_assoc]

/-- R207: a byte that the sink refuses, and then the event of its packet. -/
theorem takesIn_of_refused (hp : d.phase = .stream) (hr : d.refused = false) (hm : d.more)
    (hs : o.2.headD true = false) :
    TakesIn base ⟨d, bytes, o⟩ (⟨o.1.sunk, o.1.events ++ [⟨d.hdr, false⟩], none⟩, o.2.tail) := by
  have hpeek := (peek_sinkAnswers Config.given.snkDraw o.2).trans (congrArg some hs)
  have hrefusal : Leads base ⟨d, bytes, o⟩ ⟨{ d with refused := true }, bytes, (o.1, o.2.tail)⟩ := by
    refine .of_step ?_
    rw [step_dStream rfl hp hm, exec_dStream_of_more hp hm, streamByte_of_refusal hr hpeek]
    simp only [Progress.state, pop_sinkAnswers]
  refine TakesIn.after (takesIn_of_closePacket d.hdr ?_) hrefusal rfl
  rw [step_dStream rfl hp hm, exec_dStream_of_more hp hm, streamByte_of_refused rfl rfl]

/-- R205 to R207: DEC reassembles what is left of the region, from `DEC.IDX` on. -/
theorem takesIn_reassemble (k : Nat) (hp : d.phase = .stream) (hr : d.refused = false) (hi : d.idx.toNat + k = 224) :
    TakesIn base ⟨d, bytes, o⟩
      (reassemble o.1 o.2 d.hdr d.rem.toNat (Memory.readBytes d.fbuf d.idx.toNat k)) := by
  induction k generalizing d o with
  | zero =>
    rcases Nat.eq_zero_or_pos d.rem.toNat with h0 | hrem
    · rw [h0, reassemble_zero]
      exact takesIn_of_done hp h0
    · exact (reassemble_nil o.1 o.2 d.hdr hrem).symm ▸ takesIn_of_region_end hp hr hi hrem
  | succ k ih =>
    rcases Nat.eq_zero_or_pos d.rem.toNat with h0 | hrem
    · rw [h0, reassemble_zero]
      exact takesIn_of_done hp h0
    · have hm : d.more := ⟨by omega, hrem⟩
      have hidx : (d.idx + 1#9).toNat = d.idx.toNat + 1 := index_toNat_succ (by omega)
      rw [Memory.readBytes_succ]
      cases hs : o.2.headD true with
      | false =>
        rw [reassemble_refused hrem hs]
        exact takesIn_of_refused hp hr hm hs
      | true =>
        rw [reassemble_taken hrem hs, ← half_toNat_pred hrem, ← hidx]
        refine TakesIn.after (ih (d := { d with idx := d.idx + 1#9, rem := d.rem - 1#16 }) hp hr ?_)
          (leads_of_taken hp hr hm hs) rfl
        exact (congrArg (· + k) hidx).trans (by omega)

end Stream

/-! ## DISPATCH -/

section Dispatch
variable {base : State} {d : Dec} {bytes : List Byte} {o : Decoded × List Bool}

/-- R203, R208: a frame that begins a packet. -/
theorem takesIn_first_region (hp : d.phase = .dispatch) (hr : d.refused = false) (hm : d.mode = .awaitingHeader)
    (ho : o.1.awaiting = none) :
    TakesIn base ⟨d, bytes, o⟩ (takeRegion o.1 o.2 (Memory.readBytes d.fbuf 4 220)) := by
  have hstep : step (Progress.state base ⟨d, bytes, o⟩) =
      .next (dispatchHdr Config.given (Progress.state base ⟨d, bytes, o⟩)) :=
    (step_dDispatchHdr rfl hp hm).trans (exec_dDispatchHdr_of_header hp hm)
  have hh := headerOf_readBytes d.fbuf
  by_cases hlt : (readPktHdr d.fbuf).len.toNat < 14
  · rw [takeRegion_of_bad_length ho hh hlt]
    refine takesIn_of_closePacket _ ?_
    rw [hstep, dispatchHdr_of_bad_length (s := Progress.state base ⟨d, bytes, o⟩) hlt rfl]
    rfl
  · have h14 := Nat.not_lt.mp hlt
    rw [takeRegion_of_payload ho hh h14, Memory.drop_readBytes _ 4 206 14, ← payloadCount_toNat h14]
    refine TakesIn.after (takesIn_reassemble (d := { d with
      hdr := readPktHdr d.fbuf, rem := payloadCount (readPktHdr d.fbuf).len, idx := 18#9, phase := .stream })
      206 rfl hr rfl) (.of_step ?_) rfl
    rw [hstep, dispatchHdr_of_payload (s := Progress.state base ⟨d, bytes, o⟩) h14]
    rfl

/-- R204: a frame that continues a packet. -/
theorem takesIn_next_region (hp : d.phase = .dispatch) (hr : d.refused = false) (hm : d.mode = .awaitingData)
    (ho : o.1.awaiting = some (d.hdr, d.rem.toNat)) :
    TakesIn base ⟨d, bytes, o⟩ (takeRegion o.1 o.2 (Memory.readBytes d.fbuf 4 220)) := by
  rw [takeRegion_of_awaiting ho]
  refine TakesIn.after (takesIn_reassemble (d := { d with idx := 4#9, phase := .stream }) 220 rfl hr rfl)
    (.of_step ?_) rfl
  exact (step_dDispatchData rfl hp hm).trans (exec_dDispatchData_of_data hp hm)

/-- R203 to R208: DEC takes in the region of a validated frame as its reassembly state says. -/
theorem takesIn_region (hp : d.phase = .dispatch) (hr : d.refused = false) (ho : d.awaiting = o.1.awaiting) :
    TakesIn base ⟨d, bytes, o⟩ (takeRegion o.1 o.2 (Memory.readBytes d.fbuf 4 220)) := by
  rw [Dec.awaiting] at ho
  cases hm : d.mode with
  | awaitingHeader => exact takesIn_first_region hp hr hm (by rw [← ho, hm])
  | awaitingData => exact takesIn_next_region hp hr hm (by rw [← ho, hm])

end Dispatch

/-! ## The session -/

section Session
variable {base : State} {d : Dec} {bytes : List Byte} {o : Decoded × List Bool}

/-- R142, R201: with a sync pair and a body behind it in the input, the frame comes to VALIDATE. -/
theorem leads_to_frame {awaiting : Option (PacketHeader × Nat)} {body : List Byte} {n : Nat} (hd : Hunting awaiting d)
    (hs : syncFrom .hunt 0 bytes = some (n, body)) (hlen : 255 ≤ body.length) :
    ∃ m, (codewordIn m = fun j => body.getD j.val 0x00#8) ∧
      Leads base ⟨d, bytes, o⟩
        ⟨{ d with fbuf := m, idx := 256#9, scan := .hunt, phase := .validate }, body.drop 255, o⟩ := by
  have hsync := leads_to_body (base := base) (o := o) (n := 0) hd.phase (by rw [hd.scan, hs])
  obtain ⟨m, hread, hbody⟩ := leads_to_validate (base := base) (o := o) (d := { d with
    fbuf := Memory.write d.fbuf 0 syncContByte, idx := 1#9, scan := .hunt, phase := .body }) rfl rfl hlen
  refine ⟨m, ?_, hsync.trans hbody⟩
  rw [codewordIn_of_readBytes hread (body.drop 255), List.take_append_drop]

/-- R202 to R208: the region of an accepted frame is taken in. -/
theorem takesIn_accepted {m : Message} (hp : d.phase = .validate) (hr : d.refused = false)
    (ho : d.awaiting = o.1.awaiting) (hf : Config.given.fecDecode (codewordIn d.fbuf) = some m)
    (hv : m 0 = Config.given.protocolVersion) :
    TakesIn base ⟨d, bytes, o⟩ (takeRegion o.1 o.2 ((List.ofFn m).drop 3)) := by
  rw [← readBytes_writeMessage d.fbuf m]
  exact TakesIn.after (takesIn_region (d := { d with
    fbuf := writeMessage d.fbuf m, seqRx := of16 (m 1) (m 2), phase := .dispatch }) rfl hr ho)
    (leads_to_dispatch hp hf hv) rfl

/-- R214: from frame to frame DEC does what `decode` says; a frame uses up more than one byte, so the fuel is enough. -/
theorem ends_decodeFrames (fuel : Nat) (hd : Hunting o.1.awaiting d) (hfuel : bytes.length < fuel) :
    Ends base ⟨d, bytes, o⟩ (decodeFrames Config.given fuel o.1 o.2 bytes) := by
  induction fuel generalizing d bytes o with
  | zero => cases hfuel
  | succ fuel ih =>
    rcases hs : syncFrom .hunt 0 bytes with _ | ⟨n, body⟩
    · rw [decodeFrames_of_no_sync hs]
      exact ends_of_no_sync (n := 0) hd.phase (by rw [hd.scan, hs])
    by_cases hshort : body.length < 255
    · rw [decodeFrames_of_short_body hs hshort]
      refine Ends.after ?_ (leads_to_body (n := 0) hd.phase (by rw [hd.scan, hs]))
      exact ends_of_short_body rfl (show 1 + body.length ≤ 255 by omega)
    have hlen : 255 ≤ body.length := Nat.not_lt.mp hshort
    obtain ⟨m, hword, hframe⟩ := leads_to_frame (base := base) (o := o) hd hs hlen
    refine Ends.after ?_ hframe
    rcases hf : Config.given.fecDecode (codewordIn m) with _ | msg
    · rw [decodeFrames_of_uncorrectable hs hlen (hword ▸ hf)]
      exact ends_of_uncorrectable rfl hf
    by_cases hv : msg 0 = Config.given.protocolVersion
    · have hless : (body.drop 255).length < fuel := by
        have hsync := syncFrom_length hs
        rw [List.length_drop]
        omega
      obtain ⟨d', hd', hregion⟩ := takesIn_accepted (base := base) (bytes := body.drop 255) (o := o) (d := { d with
        fbuf := m, idx := 256#9, scan := .hunt, phase := .validate }) rfl hd.taken hd.carries hf hv
      rw [decodeFrames_of_version hs hlen (hword ▸ hf) hv]
      exact (ih hd' hless).after hregion
    · rw [decodeFrames_of_badVersion hs hlen (hword ▸ hf) hv]
      exact ends_of_badVersion rfl hf hv

/-- R34, R72: the step that makes the response of a session that has ended. -/
theorem step_session_response (hp : d.phase = .idle) (hd : d.rspDue = true) :
    step (Progress.state base ⟨d, bytes, o⟩) = .next { Progress.state base ⟨d, bytes, o⟩ with
      dec := { d with rspDue := false }
      decRsps := base.decRsps ++ [d.status] } :=
  (step_of_dec_due (s := Progress.state base ⟨d, bytes, o⟩) rfl hp hd).trans
    (congrArg Host.Outcome.next (respondDec_of_ready rfl))

/-- R200: DEC as a session begins. -/
def Dec.started (d : Dec) : Dec := { d with mode := .awaitingHeader, scan := .hunt, status := .running, phase := .sync }

theorem hunting_started (hr : d.refused = false) : Hunting none d.started :=
  ⟨rfl, rfl, hr, rfl⟩

end Session

/-- R200: the step that accepts the command, with the environment that the session is to have. -/
theorem step_session_start {s : State} {n : Nat} {bytes : List Byte} {sink : List Bool} (hp : s.dec.phase = .idle)
    (hd : s.dec.rspDue = false) (hcmd : s.decCmd = n + 1) (hrx : s.rx = bytesThenNone bytes)
    (hsnk : s.snk = sinkAnswers sink) (hevt : s.evt = alwaysReady) (hrsp : s.decRsp = alwaysReady)
    (hturns : s.turns = ⟨[], .always (some .dec)⟩) :
    step s = .next (Progress.state { s with decCmd := n } ⟨s.dec.started, bytes, (⟨[], [], none⟩, sink)⟩) := by
  have hpop : s.turns.pop = s.turns := by rw [hturns, Channel.pop_always]
  have hturn : s.turnNow = some .dec := by rw [State.turnNow, hturns, Channel.peek_always]
  obtain ⟨_, _, _, _, _, _, _, _, hcommand⟩ := decPhaseSelectsStep s hturn
  rw [hcommand n hp hd hcmd, hpop]
  refine (congrArg Host.Outcome.next (offerDecode_of_ready (s := { s with decCmd := n }) ⟨hp, hd⟩)).trans ?_
  simp only [Progress.state, Dec.started, List.append_nil, hrx, hsnk, hevt, hrsp, hturns]

/-- Settles O51: one step starts the session, its frames are taken in one after another, and one step makes the
response. -/
theorem decoderImplementsDecode : Obligations.DecoderImplementsDecode := by
  intro s n bytes sink hp hd hr hcmd hrx hsnk hevt hrsp hturns
  obtain ⟨q, ⟨k, hrun⟩, hidle, hdue, hstatus, hout⟩ := ends_decodeFrames (base := { s with decCmd := n })
    (o := (⟨[], [], none⟩, sink)) (bytes.length + 1) (hunting_started hr) (Nat.lt_succ_self bytes.length)
  have hwhole := (run_succ (k := k + 1) (step_session_start hp hd hcmd hrx hsnk hevt hrsp hturns)).trans
    ((run_add hrun).trans (run_succ (step_session_response hidle hdue)))
  rw [decodeSession, ← hstatus, ← hout]
  exact ⟨k + 1 + 1, _, hwhole, hidle, rfl, rfl, rfl, rfl, rfl, rfl, rfl⟩

end Sys2Proof.Machine
end

section
/-! What the codec's steps do not depend on (R252, R253, R255, R256): BODY and VALIDATE do the same whatever the
reassembly registers hold, PARITY depends on the buffer alone, and corruption that the codec corrects leaves no trace
behind VALIDATE. -/

namespace Sys2Proof.Machine

/-! ## The reassembly state put to other values -/

/-- `s` with other values in the reassembly registers (R255). -/
def State.withReassembly (mode : Mode) (rem : Half) (hdr : PacketHeader) (s : State) : State :=
  { s with dec := { s.dec with mode := mode, rem := rem, hdr := hdr } }

section Reassembly
variable (c : Config) (mode : Mode) (rem : Half) (hdr : PacketHeader) (s : State)

theorem readBody_withReassembly :
    readBody c (s.withReassembly mode rem hdr) = (readBody c s).withReassembly mode rem hdr := by
  obtain ⟨hr, e⟩ | ⟨hr, e⟩ | ⟨b, hr, -⟩ := readBody_cases c s
  · rw [e]
    exact readBody_of_wait (s := s.withReassembly mode rem hdr) hr
  · rw [e]
    exact readBody_of_none (s := s.withReassembly mode rem hdr) hr
  · rw [readBody_of_byte hr]
    exact readBody_of_byte (s := s.withReassembly mode rem hdr) hr

theorem validate_withReassembly :
    validate c (s.withReassembly mode rem hdr) = (validate c s).withReassembly mode rem hdr := by
  obtain ⟨hf, e⟩ | ⟨m, hf, hv, e⟩ | ⟨m, hf, hv, e⟩ := validate_cases c s <;> rw [e]
  · exact validate_of_uncorrectable (s := s.withReassembly mode rem hdr) hf
  · rw [validate_of_badVersion (s := s.withReassembly mode rem hdr) hf hv]
    dsimp only [State.withReassembly, endSession]
  · rw [validate_of_version (s := s.withReassembly mode rem hdr) hf hv]
    dsimp only [State.withReassembly]

/-- R255: `D.BODY` reads no reassembly state, its stop at an index outside the buffer included. -/
theorem exec_dBody_withReassembly :
    exec .dBody (s.withReassembly mode rem hdr) = view (State.withReassembly mode rem hdr) (exec .dBody s) := by
  by_cases hf : s.dec.phase = .body ∧ 255 < s.dec.idx.toNat
  · rw [exec_dBody_of_fault hf, exec_dBody_of_fault (s := s.withReassembly mode rem hdr) hf]
    rfl
  · rw [exec_dBody_of_no_fault hf, exec_dBody_of_no_fault (s := s.withReassembly mode rem hdr) hf, view_whenSelected,
      readBody_withReassembly]
    rfl

/-- R255: `D.VALIDATE` reads no reassembly state. -/
theorem exec_dValidate_withReassembly :
    exec .dValidate (s.withReassembly mode rem hdr) =
      view (State.withReassembly mode rem hdr) (exec .dValidate s) := by
  refine Eq.trans ?_ (view_whenSelected (p := s.dec.phase = .validate) _ _).symm
  rw [← validate_withReassembly]
  rfl

end Reassembly

/-- Settles O33: `D.BODY` and `D.VALIDATE` commute with putting the reassembly registers to other values, and what
`E.PARITY` writes is made of the buffer. -/
theorem validationIgnoresReassembly : Obligations.ValidationIgnoresReassembly := by
  intro s mode rem hdr
  refine ⟨exec_dBody_withReassembly mode rem hdr s, exec_dValidate_withReassembly mode rem hdr s,
    fun s' hp hp' hbuf => ⟨_, exec_eParity_of_parity hp, ?_⟩⟩
  rw [hbuf]
  exact exec_eParity_of_parity hp'

/-! ## Corruption that the codec corrects -/

/-- `s` with another frame buffer in DEC. -/
def State.withDecBuffer (m : Memory) (s : State) : State := { s with dec := { s.dec with fbuf := m } }

@[simp] theorem State.withDecBuffer_fbuf (m : Memory) (s : State) : (s.withDecBuffer m).dec.fbuf = m := rfl

/-- What `D.VALIDATE` does outside the buffer once the codec has answered with a message: its version decides between
DISPATCH and the end of the session (R202). -/
def State.judged (c : Config) (msg : Message) (s : State) : State :=
  if msg 0 = c.protocolVersion then
    { s with dec := { s.dec with seqRx := of16 (msg 1) (msg 2), phase := .dispatch } }
  else endSession .endVersion s

/-- R202: behind the codec the buffer has no part in `D.VALIDATE` but to receive the message. -/
theorem validate_withDecBuffer {c : Config} {m : Memory} {msg : Message} (s : State)
    (hf : c.fecDecode (codewordIn m) = some msg) :
    validate c (s.withDecBuffer m) = (s.judged c msg).withDecBuffer (writeMessage m msg) := by
  by_cases hv : msg 0 = c.protocolVersion
  · rw [validate_of_version (s := s.withDecBuffer m) hf hv, State.judged, if_pos hv]
    dsimp only [State.withDecBuffer]
  · rw [validate_of_badVersion (s := s.withDecBuffer m) hf hv, State.judged, if_neg hv]
    dsimp only [State.withDecBuffer, endSession]

/-- R253: the codec answers with the message sent, for a buffer that holds a corrupted copy of its codeword. -/
theorem fecDecode_of_corrupted {c : Config} (hc : c.Corrects) {sent received : Memory} {msg : Message}
    (hsent : codewordIn sent = codewordOf msg (c.fecEncode msg))
    (herr : codewordErrors (codewordIn sent) (codewordIn received) < c.fecT) :
    c.fecDecode (codewordIn received) = some msg :=
  hc msg _ (hsent ▸ herr)

/-- R202: the corrected message covers the whole message region, so what stood there before does not matter. -/
theorem read_writeMessage_eq_of_eq_outside {m m' : Memory} (msg : Message)
    (h : ∀ a, a = 0 ∨ 224 ≤ a → Memory.read m a = Memory.read m' a) (a : Nat) :
    Memory.read (writeMessage m msg) a = Memory.read (writeMessage m' msg) a := by
  rw [read_writeMessage, read_writeMessage]
  by_cases ha : 1 ≤ a ∧ a < 224
  · rw [dif_pos ha, dif_pos ha]
  · rw [dif_neg ha, dif_neg ha, h a (by omega)]

/-- Settles O53: both buffers decode to the message sent, so DEC goes the same way, and both have that message written
over the region in which they differ. -/
theorem corruptionBelowCapacityIsInvisible : Obligations.CorruptionBelowCapacityIsInvisible := by
  rintro c hc s t sent received msg hsent herr houtside ht
  have hself : codewordErrors (codewordIn sent) (codewordIn sent) < c.fecT := by
    rw [Laws.Codec.errors_self]
    exact Nat.zero_lt_of_lt herr
  have hvalSent := ht.trans (validate_withDecBuffer s (fecDecode_of_corrupted hc hsent hself))
  have hvalReceived := validate_withDecBuffer s (fecDecode_of_corrupted hc hsent herr)
  rw [hvalSent]
  refine ⟨writeMessage received msg, hvalReceived, fun a => ?_⟩
  rw [State.withDecBuffer_fbuf]
  exact read_writeMessage_eq_of_eq_outside msg houtside a

end Sys2Proof.Machine
end

section
/-! The two resets (R310), and the counter ENC.SEQ under every operation. -/

namespace Sys2Proof.Machine

/-- R310: `ENC.RESET` is taken in every state, without a look at the phase. -/
theorem exec_encReset (s : State) : exec .encReset s = .next (resetEnc Config.given s) := rfl

/-- R310: `DEC.RESET` is taken in every state, without a look at the phase. -/
theorem exec_decReset (s : State) : exec .decReset s = .next (resetDec Config.given s) := rfl

/-- R22, R166: `ENC.RESET` apart, the counter is left or, by `E.BUILD`, advanced by one. -/
theorem exec_seq_eq_or_eq_add_one {i : Instr} {s t : State} (h : exec i s = .next t) (hreset : i ≠ .encReset) :
    t.enc.seq = s.enc.seq ∨ t.enc.seq = s.enc.seq + 1#16 := by
  by_cases hbuild : i = .eBuild
  · subst hbuild
    obtain ⟨_, rfl⟩ := execEBuild_next h
    exact .inr rfl
  · exact .inl (exec_seq h hbuild hreset)

/-- Settles O11: each reset puts the agent's registers after reset in place and counts itself; the counter's clause is
that only `ENC.RESET` and `E.BUILD` write it. -/
theorem resetEffects : Obligations.ResetEffects := by
  intro s
  refine ⟨⟨encAfterReset Config.given s.encResets, exec_encReset s, ?enc⟩,
    ⟨decAfterReset Config.given s.decResets, exec_decReset s, ?dec⟩, ?counter⟩
  case enc =>
    exact ⟨encAfterReset_seq _ _, encAfterReset_phase _ _, encAfterReset_res _ _, encAfterReset_rspDue _ _⟩
  case dec =>
    exact ⟨decAfterReset_mode _ _, decAfterReset_scan _ _, decAfterReset_phase _ _, decAfterReset_status _ _,
      decAfterReset_rspDue _ _, decAfterReset_refused _ _⟩
  case counter =>
    intro i t h
    by_cases hreset : i = .encReset
    · exact .inl hreset
    · exact .inr (exec_seq_eq_or_eq_add_one h hreset)

end Sys2Proof.Machine
end
